-- ==== Sys2Proof/Word.lean ====
section
/-! DEFINITION. The widths CEPR-CORE works with and its two encodings. -/

namespace Sys2Proof

/-- A register word: registers are reached as whole 32-bit words (20_memory.md R64). -/
abbrev Word := BitVec 32

/-- A byte of frame memory or of an SPI frame; bit 7 is sent first (00_scope.md R12). -/
abbrev Byte := BitVec 8

/-- The 9-bit pattern `{DC, B[7:0]}` of an SPI frame (30_encoding.md R85). -/
abbrev FrameBits := BitVec 9

/-- An encoded unit belongs to exactly one of two formats (30_encoding.md R80). -/
inductive Encoding where
  | hostCmd (w : Word)
  | spiFrame (f : FrameBits)
deriving DecidableEq, Repr

end Sys2Proof
end

