-- ==== Sys2Proof/Config.lean ====
section
/-! DEFINITION. What is fixed when the block is built (00_scope.md R7), and the free values: what the
outside agents do where no schedule says it, and what frame memory returns where the spec leaves it a draw. -/

namespace Sys2Proof

/-- PANEL_VARIANT (00_scope.md R7, 44_frame.md R171). -/
inductive PanelVariant where
  | threeColor
  | mono
deriving DecidableEq, Repr

/-- One entry of INIT_TABLE: an opcode byte and zero or more data bytes (43_reset_init.md R156). -/
structure InitEntry where
  opcode : Byte
  data   : List Byte
deriving DecidableEq, Repr

/-- The default INIT_TABLE of 43_reset_init.md R156. Opcodes and order are the source's.
PRESUMED: the data bytes are general knowledge, as the spec itself marks them (log 14). -/
def Config.defaultInitTable : List InitEntry :=
  [ ⟨0x01#8, [0x27#8, 0x01#8, 0x00#8]⟩,
    ⟨0x11#8, [0x03#8]⟩,
    ⟨0x44#8, [0x00#8, 0x0F#8]⟩,
    ⟨0x45#8, [0x00#8, 0x00#8, 0x27#8, 0x01#8]⟩,
    ⟨0x3C#8, [0x05#8]⟩,
    ⟨0x21#8, [0x00#8, 0x80#8]⟩ ]

/-- The build parameters (00_scope.md R7), each an argument, with R7's value as its default; the two
OPEN ones have none. L, C and H are computed from them. The two durations of 93_implementation_defined.md
I6 are no parameters (log 22). -/
structure Config where
  /-- WIDTH, panel width in pixels. -/
  width            : Nat := 296
  /-- HEIGHT, panel height in pixels. -/
  height           : Nat := 128
  /-- CLK_HZ, OPEN. -/
  clkHz            : Nat
  /-- SPI_HZ_MAX, the SCLK frequency target. -/
  spiHzMax         : Nat := 4000000
  /-- POLL_MS, the busy-poll interval. -/
  pollMs           : Nat := 10
  /-- PANEL_VARIANT. -/
  panelVariant     : PanelVariant := .threeColor
  /-- BUSY_ACTIVE_LEVEL, OPEN (10_state.md R45). -/
  busyActiveLevel  : Bool
  /-- INIT_TABLE. -/
  initTable        : List InitEntry := Config.defaultInitTable
  /-- DEFAULT_TIMEOUT_MS, the reset value of TIMEOUT_MS. -/
  defaultTimeoutMs : Word := 20000#32
  /-- SYNC_STAGES, the flip-flops in the BUSY synchroniser (10_state.md R44). -/
  syncStages       : Nat := 2
  /-- ADDR_W, the frame-memory address width in bits (20_memory.md R67). -/
  addrW            : Nat := 32
deriving DecidableEq, Repr

namespace Config

/-- RESET_DWELL_MS, not tunable (93_implementation_defined.md I6). -/
abbrev resetDwellMs : Nat := 10
/-- SETTLE_MS, not tunable (93_implementation_defined.md I6). -/
abbrev settleMs : Nat := 5

/-- The build that `State.reset` shows: the values of 00_scope.md R7.
DESIGN CHOICE: for the two OPEN parameters, the values 92_eei_decisions.md gives its test vectors (log 1). -/
def default : Config := { clkHz := 8000000, busyActiveLevel := true }

/-- Free values (log 2): the levels the outside agents drive in cycle `n` where State schedules none
(00_scope.md R16: under no law). -/
opaque freeRstN : Nat → Bool
opaque freeRegWe : Nat → Bool
opaque freeRegAddr : Nat → BitVec 6
opaque freeRegWdata : Nat → Word
opaque freeBusy : Nat → Bool
opaque freeHwFault : Nat → Bool
opaque freeMemWrites : Nat → List (Word × Byte)

/-- Free value (log 3, log 4): the byte frame memory returns in cycle `n` where 20_memory.md R66 says
it is any byte. -/
opaque freeByte : Nat → Byte

end Config
end Sys2Proof
end

