-- ==== Sys2Proof/Syntax.lean ====
section
/-! DEFINITION. The instructions: one constructor per row of spec/opcode_table.json. -/

namespace Sys2Proof

/-- The five host commands written to CMD (30_encoding.md R81), the fourteen command frames the block
emits to the panel (R88), and the data frame with its payload byte (41_transport.md R122). -/
inductive Instr where
  /-- RESET, R150. -/
  | reset
  /-- INIT, R152. -/
  | init
  /-- CLEAR, R170. -/
  | clear
  /-- WRITE_FRAME, R174. -/
  | writeFrame
  /-- WAIT_IDLE, R190. -/
  | waitIdle
  /-- C:12 of INIT, software reset, R154. -/
  | cSwreset
  /-- C:12 of CLEAR and WRITE_FRAME in THREE_COLOR, refresh trigger, R172. -/
  | cRefresh
  /-- C:01, R156. -/
  | cDriverOutputControl
  /-- C:11, R156. -/
  | cDataEntryMode
  /-- C:44, R156. -/
  | cRamXWindow
  /-- C:45, R156. -/
  | cRamYWindow
  /-- C:3C, R156. -/
  | cBorderWaveform
  /-- C:21, R156. -/
  | cDisplayUpdateControl
  /-- C:4E, R157. -/
  | cRamXCounter
  /-- C:4F, R157. -/
  | cRamYCounter
  /-- C:10, black/white plane of THREE_COLOR, R171. -/
  | cWriteBwPlane
  /-- C:13, red plane of THREE_COLOR, R171. -/
  | cWriteRedPlane
  /-- C:24, the plane of MONO, R171. -/
  | cWriteRam
  /-- C:20, refresh trigger of MONO, R172. -/
  | cActivateUpdate
  /-- D:xx, a data frame with payload `b`, R122. -/
  | dData (b : Byte)
deriving DecidableEq, Repr

end Sys2Proof
end

