-- ==== Sys2Proof/WellFormed.lean ====
section
/-! DEFINITION. Which builds are legal, and which instructions belong to a build. -/

namespace Sys2Proof

/-- Every term of `Instr` is encodable: the one operand, a payload byte, is bounded by its type
(41_transport.md R121, R122: any byte value is sent the same way). -/
def Instr.wellFormed : Instr → Bool
  | .reset | .init | .clear | .writeFrame | .waitIdle => true
  | .cSwreset | .cRefresh | .cDriverOutputControl | .cDataEntryMode | .cRamXWindow | .cRamYWindow => true
  | .cBorderWaveform | .cDisplayUpdateControl | .cRamXCounter | .cRamYCounter => true
  | .cWriteBwPlane | .cWriteRedPlane | .cWriteRam | .cActivateUpdate => true
  | .dData _ => true

/-- CLK_HZ is a multiple of 1000 and at least 1000 (70_reset_and_hazards.md R234). -/
def Config.clockOk (c : Config) : Bool := decide (1000 ≤ c.clkHz) && c.clkHz % 1000 == 0

/-- A frame holds whole bytes: WIDTH·HEIGHT mod 8 = 0 (00_scope.md R7).
DESIGN CHOICE: a legal build has no upper bound on WIDTH, HEIGHT and L (log 24). -/
def Config.geometryOk (width height : Nat) : Bool := width * height % 8 == 0

/-- SCLK has a target and the poll interval a length, whose multiples up to the largest WAIT fit the
33 bits of st.elapsed (10_state.md R36). DESIGN CHOICE (log 23). -/
def Config.ratesOk (c : Config) : Bool :=
  decide (1 ≤ c.spiHzMax) && decide (1 ≤ c.pollMs) && decide (c.pollMs < 4294967296)

/-- The synchroniser has a first and a last stage (10_state.md R44), and an address fits the 32 bits of
FRAME_BASE (10_state.md R26). DESIGN CHOICE (log 23). -/
def Config.widthsOk (c : Config) : Bool := decide (2 ≤ c.syncStages) && decide (c.addrW ≤ 32)

/-- A legal build. -/
def Config.wf (c : Config) : Bool :=
  c.clockOk && Config.geometryOk c.width c.height && c.ratesOk && c.widthsOk

/-- The build has the values of 00_scope.md R7 in the parameters the other rules write as numbers. -/
def Config.sourceValues (c : Config) : Bool :=
  c.width == 296 && c.height == 128 && c.spiHzMax == 4000000 && c.pollMs == 10 && c.syncStages == 2
    && c.addrW == 32

/-- The opcode is listed in the build's INIT_TABLE. -/
def Config.listsOpcode (c : Config) (b : Byte) : Bool := c.initTable.any (fun e => e.opcode == b)

/-- The column 'sent by' of 30_encoding.md R88: the frames the programs of a build can emit. Host
commands belong to every build. -/
def Instr.inBuild (c : Config) : Instr → Bool
  | .reset | .init | .clear | .writeFrame | .waitIdle => true
  | .cSwreset => true
  | .cRefresh => c.panelVariant == .threeColor
  | .cDriverOutputControl => c.listsOpcode 0x01#8
  | .cDataEntryMode => c.listsOpcode 0x11#8
  | .cRamXWindow => c.listsOpcode 0x44#8
  | .cRamYWindow => c.listsOpcode 0x45#8
  | .cBorderWaveform => c.listsOpcode 0x3C#8
  | .cDisplayUpdateControl => c.listsOpcode 0x21#8
  | .cRamXCounter => c.listsOpcode 0x4E#8
  | .cRamYCounter => c.listsOpcode 0x4F#8
  | .cWriteBwPlane => c.panelVariant == .threeColor || c.listsOpcode 0x10#8
  | .cWriteRedPlane => c.panelVariant == .threeColor || c.listsOpcode 0x13#8
  | .cWriteRam => c.panelVariant == .mono || c.listsOpcode 0x24#8
  | .cActivateUpdate => c.panelVariant == .mono || c.listsOpcode 0x20#8
  | .dData _ => true

end Sys2Proof
end

