-- ==== Sys2Proof/Decode.lean ====
section
/-! DEFINITION. The decoder of the two formats, total, rejecting by name, and the encoder
(30_encoding.md R80 to R89). -/

namespace Sys2Proof

/-- Why a pattern is no instruction. The first two are ILLEGAL_CMD at the CMD edge (30_encoding.md
R84); the third is a command byte that no row of the opcode map names, which an INIT_TABLE may hold
and the machine sends like the rest (R89). DESIGN CHOICE: that the decoder reports it (log 8). -/
inductive DecodeReject where
  | reservedBits (op : BitVec 4)
  | reservedOp (op : BitVec 4)
  | unlistedOpcode (b : Byte)
deriving DecidableEq, Repr

/-- OP, bits [3:0] of a HOST_CMD word (R81). -/
def hostOp (w : Word) : BitVec 4 := w.extractLsb' 0 4

/-- RSVD, bits [31:4] of a HOST_CMD word (R81). -/
def hostRsvd (w : Word) : BitVec 28 := w.extractLsb' 4 28

/-- OP values of R81. -/
def hostTable : List (BitVec 4 × Instr) :=
  [ (0x1#4, .reset), (0x2#4, .init), (0x3#4, .clear), (0x4#4, .writeFrame), (0x5#4, .waitIdle) ]

/-- Decoding a CMD write (R83): RSVD must be 0 and OP one of 1..5. -/
def decodeHost (w : Word) : Except DecodeReject Instr :=
  if hostRsvd w = 0#28 then
    match hostTable.lookup (hostOp w) with
    | some i => .ok i
    | none => .error (.reservedOp (hostOp w))
  else .error (.reservedBits (hostOp w))

/-- The DC bit of a frame (R80). -/
def frameDc (f : FrameBits) : Bool := f.getLsbD 8

/-- The byte B of a frame (R80). -/
def frameB (f : FrameBits) : Byte := f.extractLsb' 0 8

/-- The frame `{dc, b}` (R85). -/
def mkFrame (dc : Bool) (b : Byte) : FrameBits := BitVec.ofBool dc ++ b

/-- The panel opcode map of R88. 0x12 stands once, under its name of the source's opcode table;
its other use depends on the running command (`decodeFrameIn`, log 7). -/
def frameTable : List (Byte × Instr) :=
  [ (0x12#8, .cSwreset), (0x01#8, .cDriverOutputControl), (0x11#8, .cDataEntryMode),
    (0x44#8, .cRamXWindow), (0x45#8, .cRamYWindow), (0x4E#8, .cRamXCounter), (0x4F#8, .cRamYCounter),
    (0x3C#8, .cBorderWaveform), (0x21#8, .cDisplayUpdateControl), (0x10#8, .cWriteBwPlane),
    (0x13#8, .cWriteRedPlane), (0x24#8, .cWriteRam), (0x20#8, .cActivateUpdate) ]

/-- Decoding an SPI frame from its bits alone (R80, R88). -/
def decodeFrame (f : FrameBits) : Except DecodeReject Instr :=
  if frameDc f then .ok (.dData (frameB f))
  else
    match frameTable.lookup (frameB f) with
    | some i => .ok i
    | none => .error (.unlistedOpcode (frameB f))

/-- Decoding a frame the block emits while command `op` runs: under CLEAR and WRITE_FRAME the command
byte 0x12 is the refresh trigger (30_encoding.md R88, 44_frame.md R172, 90_conflicts.md C1). -/
def decodeFrameIn (op : BitVec 4) (f : FrameBits) : Except DecodeReject Instr :=
  if f = 0x012#9 ∧ (op = 3#4 ∨ op = 4#4) then .ok .cRefresh else decodeFrame f

/-- The decoder over both formats. -/
def decode : Encoding → Except DecodeReject Instr
  | .hostCmd w => decodeHost w
  | .spiFrame f => decodeFrame f

/-- The words of an instruction, from the tables of R81 and R88. -/
def encode : Instr → Encoding
  | .reset => .hostCmd 0x00000001#32
  | .init => .hostCmd 0x00000002#32
  | .clear => .hostCmd 0x00000003#32
  | .writeFrame => .hostCmd 0x00000004#32
  | .waitIdle => .hostCmd 0x00000005#32
  | .cSwreset => .spiFrame 0x012#9
  | .cRefresh => .spiFrame 0x012#9
  | .cDriverOutputControl => .spiFrame 0x001#9
  | .cDataEntryMode => .spiFrame 0x011#9
  | .cRamXWindow => .spiFrame 0x044#9
  | .cRamYWindow => .spiFrame 0x045#9
  | .cBorderWaveform => .spiFrame 0x03C#9
  | .cDisplayUpdateControl => .spiFrame 0x021#9
  | .cRamXCounter => .spiFrame 0x04E#9
  | .cRamYCounter => .spiFrame 0x04F#9
  | .cWriteBwPlane => .spiFrame 0x010#9
  | .cWriteRedPlane => .spiFrame 0x013#9
  | .cWriteRam => .spiFrame 0x024#9
  | .cActivateUpdate => .spiFrame 0x020#9
  | .dData b => .spiFrame (mkFrame true b)

/-- The format a table row of `nbits` bits has: the SPI_FRAME rows are 9 bits wide (16 in whole bytes),
the HOST_CMD rows 32 (R80; log 17). -/
def tableEncoding (nbits w : Nat) : Option Encoding :=
  if nbits ≤ 16 then
    if w < 512 then some (.spiFrame (BitVec.ofNat 9 w)) else none
  else if w < 4294967296 then some (.hostCmd (BitVec.ofNat 32 w)) else none

/-- The instruction the decoder reads from a table row's bits. -/
def decodeTableWord (nbits w : Nat) : Option Instr :=
  match tableEncoding nbits w with
  | some e => (decode e).toOption
  | none => none

end Sys2Proof
end

