-- ==== Sys2Proof/Machine/State.lean ====
section
/-! DEFINITION. The state of CEPR-CORE and of its surroundings, as plain data, and the state after
block reset (10_state.md R20 to R46). -/

namespace Sys2Proof
namespace Machine

/-- The DriverState enumeration, in the source's order (10_state.md R24). -/
inductive DriverState where
  | uninitialized
  | resetting
  | initializing
  | idle
  | busy
  | transferring
  | failed
deriving DecidableEq, Repr

/-- The result codes (60_exceptions.md R200). -/
inductive ResultCode where
  | none
  | ok
  | busyTimeout
  | frameSizeMismatch
  | hardwareFault
  | cmdRejected
  | illegalCmd
deriving DecidableEq, Repr

/-- The registers of the 64-byte window (10_state.md R21). -/
inductive HostReg where
  | cmd
  | status
  | timeoutMs
  | frameBase
  | frameLen
  | geometry
  | frameBytes
  | waitElapsedMs
  | reserved
deriving DecidableEq, Repr

/-- `I_n`: what the outside drives during one cycle (10_state.md R43). FB_DATA is not here: it is the
byte frame memory holds at FB_ADDR (20_memory.md R66). -/
structure Inputs where
  /-- RST_N, active low (70_reset_and_hazards.md R230). -/
  rstN      : Bool
  /-- REG_WE. -/
  regWe     : Bool
  /-- REG_ADDR. -/
  regAddr   : BitVec 6
  /-- REG_WDATA. -/
  regWdata  : Word
  /-- BUSY, driven by the panel. -/
  busy      : Bool
  /-- HW_FAULT, driven by the platform (60_exceptions.md R204). -/
  hwFault   : Bool
  /-- The host's own writes to frame memory in this cycle, in order (20_memory.md R60, R75). -/
  memWrites : List (Word × Byte)
deriving DecidableEq, Repr

/-- Frame memory: (address, byte) pairs with strictly rising addresses. An unlisted address holds no
value: nothing has written it (log 3). -/
abbrev Memory := List Host.Cell

/-- The whole machine. Levels are `true` for 1 and `false` for 0 (00_scope.md R11). -/
@[ext]
structure State where
  /-- The build (00_scope.md R7); no step changes it (log 1). -/
  cfg       : Config
  /-- st.state (R31). -/
  state     : DriverState
  /-- st.active (R32). -/
  active    : Bool
  /-- st.op (R33). -/
  op        : BitVec 4
  /-- st.op_timeout (R33). -/
  opTimeout : Word
  /-- st.op_base (R33). -/
  opBase    : Word
  /-- st.upc, the program counter (R34, R42). -/
  upc       : Nat
  /-- st.cnt (R34). -/
  cnt       : Nat
  /-- st.sh (R35). -/
  sh        : Byte
  /-- st.elapsed (R36). -/
  elapsed   : BitVec 33
  /-- st.timed_out (R37). -/
  timedOut  : Bool
  /-- st.result (R38). -/
  result    : ResultCode
  /-- st.last_op (R38). -/
  lastOp    : BitVec 4
  /-- st.dropped (R38). -/
  dropped   : Bool
  /-- st.busy_s1 (R44). -/
  busyS1    : Bool
  /-- The stages between the first and the last, first to last: none where SYNC_STAGES = 2 (R44, log 22). -/
  busyMid   : List Bool
  /-- st.busy_sync (R44). -/
  busySync  : Bool
  /-- reg[TIMEOUT_MS] (R25, R39). -/
  timeoutMs : Word
  /-- reg[FRAME_BASE] (R26, R39). -/
  frameBase : Word
  /-- reg[FRAME_LEN] (R27, R39). -/
  frameLen  : Word
  /-- pin.RST (R40). -/
  pinRst    : Bool
  /-- pin.DC (R40). -/
  pinDc     : Bool
  /-- pin.CS, active low (R40). -/
  pinCs     : Bool
  /-- pin.SCLK (R40). -/
  pinSclk   : Bool
  /-- pin.MOSI (R40). -/
  pinMosi   : Bool
  /-- Frame memory, owned and written by the host (20_memory.md R60). -/
  mem       : Memory
  /-- The model's own: the addresses the host wrote while the running WRITE_FRAME was active (log 4). -/
  contended : List Nat
  /-- The model's own: the schedule of the inputs, the head being those of the current cycle (log 2). -/
  inputs    : List Inputs
  /-- The model's own: the number n of the current cycle (00_scope.md R9), which indexes free values. -/
  cycle     : Nat
deriving DecidableEq, Repr

/-- Why the machine can stop. -/
inductive Fault where
  /-- Raised by the engine alone (Machine/Edge.lean), when ACTIVE = 1 and st.upc stands outside P(st.op):
  a state no run reaches, of which the spec says nothing (10_state.md R42). Safe (log 9). -/
  | outsideProgram
deriving DecidableEq, Repr

/-- Why an instruction can have no meaning. -/
inductive Refusal where
  /-- Raised by the dispatch's arm of an instruction not modelled yet. Safe. No arm raises it: every
  instruction has its meaning. -/
  | notModelled (mnemonic : String)
deriving DecidableEq, Repr

/-- The state after block reset of the build `c`, with empty surroundings (10_state.md R46).
DESIGN CHOICE: the model's own fields are empty and the cycle number is 0 (log 11). -/
def State.resetOf (c : Config) : State :=
  { cfg := c
    state := .uninitialized, active := false
    op := 0#4, opTimeout := 0#32, opBase := 0#32, upc := 0, cnt := 0
    sh := 0#8, elapsed := 0#33, timedOut := false
    result := .none, lastOp := 0#4, dropped := false
    busyS1 := false, busyMid := List.replicate (c.syncStages - 2) false, busySync := false
    timeoutMs := c.defaultTimeoutMs, frameBase := 0#32, frameLen := 0#32
    pinRst := true, pinDc := false, pinCs := true, pinSclk := false, pinMosi := false
    mem := [], contended := [], inputs := [], cycle := 0 }

/-- The machine right after block reset, for the default build (log 1). -/
def State.reset : State := State.resetOf Config.default

end Machine
end Sys2Proof
end

