-- ==== Sys2Proof/Machine/MicroOp.lean ====
section
/-! DEFINITION. The micro-ops and the programs P(op) they make up (42_sequencer.md R134), with the
times a build derives from CLK_HZ. -/

namespace Sys2Proof
namespace Machine

/-- Where a BYTE takes its byte from (40_adapter.md R104). -/
inductive ByteSrc where
  | const (b : Byte)
  | frame (i : Nat)
deriving DecidableEq, Repr

/-- One step of a sequencer program (00_scope.md R14). `finish` is END. -/
inductive MicroOp where
  | setRst (v : Bool)
  | delay (ms : Nat)
  | byte (dc : Bool) (src : ByteSrc)
  | wait
  | setState (d : DriverState)
  | finish (sOk sTo : DriverState)
deriving DecidableEq, Repr

/-- C, clock cycles per millisecond (00_scope.md R7). -/
def cyclesPerMs (c : Config) : Nat := c.clkHz / 1000

/-- H, clock cycles per SCLK half-period: ceil(CLK_HZ / (2·SPI_HZ_MAX)) (00_scope.md R7, R8).
DEDUCED: R7's 8 000 000 is twice its SPI_HZ_MAX (log 22). -/
def halfPeriod (c : Config) : Nat :=
  c.clkHz / (2 * c.spiHzMax) + if c.clkHz % (2 * c.spiHzMax) = 0 then 0 else 1

/-- L, bytes per frame plane (00_scope.md R7, 10_state.md R29). -/
def planeBytes (c : Config) : Nat := c.width * c.height / 8

/-- The edges of one poll interval, POLL_MS·C (45_busy_wait.md R186). DEDUCED: its 10 is POLL_MS (log 22). -/
def pollEdges (c : Config) : Nat := c.pollMs * cyclesPerMs c

/-- The duration of one BYTE (40_adapter.md R104). -/
def byteDur (c : Config) : Nat := 1 + 20 * halfPeriod c

/-- M = max(1, ceil(T/POLL_MS)), the index of the last sample a WAIT can take (45_busy_wait.md). -/
def lastSample (c : Config) (t : Word) : Nat := max 1 ((t.toNat + (c.pollMs - 1)) / c.pollMs)

/-- dur(u) of 42_sequencer.md R135. A WAIT has no fixed duration; its bound is R191's. -/
def microDur (c : Config) (t : Word) : MicroOp → Nat
  | .setRst _ => 1
  | .delay ms => ms * cyclesPerMs c
  | .byte _ _ => byteDur c
  | .wait => 1 + pollEdges c * lastSample c t
  | .setState _ => 1
  | .finish _ _ => 1

/-- sendCommand(opcode) (41_transport.md R121). -/
def sendCommand (b : Byte) : MicroOp := .byte false (.const b)

/-- sendData of one constant byte (41_transport.md R122). -/
def sendData (b : Byte) : MicroOp := .byte true (.const b)

/-- RST_PULSE (42_sequencer.md R134). -/
def rstPulse : List MicroOp :=
  [ .setRst true, .delay Config.resetDwellMs, .setRst false, .delay Config.resetDwellMs,
    .setRst true, .delay Config.resetDwellMs ]

/-- One CommandFrame: the opcode, then its data bytes with nothing between (41_transport.md R125). -/
def expandEntry (e : InitEntry) : List MicroOp := sendCommand e.opcode :: e.data.map sendData

/-- The entries after the first, each preceded by the settle delay (43_reset_init.md R156). -/
def expandRest : List InitEntry → List MicroOp
  | [] => []
  | e :: es => .delay Config.settleMs :: (expandEntry e ++ expandRest es)

/-- TABLE, the expansion of INIT_TABLE (43_reset_init.md R156). -/
def expandTable : List InitEntry → List MicroOp
  | [] => []
  | e :: es => expandEntry e ++ expandRest es

/-- L data frames of one constant byte. -/
def constPlane (c : Config) (b : Byte) : List MicroOp := List.replicate (planeBytes c) (sendData b)

/-- The L data frames of the host's buffer, i ascending (20_memory.md R67). -/
def bufferPlane (c : Config) : List MicroOp :=
  (List.range (planeBytes c)).map (fun i => .byte true (.frame i))

/-- The planes and the refresh trigger of a frame command whose first plane is `plane`
(44_frame.md R170 to R175). -/
def framePlanes (c : Config) (plane : List MicroOp) : List MicroOp :=
  match c.panelVariant with
  | .threeColor =>
    [sendCommand 0x10#8] ++ plane ++ [sendCommand 0x13#8] ++ constPlane c 0x00#8 ++ [sendCommand 0x12#8]
  | .mono => [sendCommand 0x24#8] ++ plane ++ [sendCommand 0x20#8]

/-- The refresh wait and END of a frame command (44_frame.md R173). -/
def refreshWait : List MicroOp := [.setState .busy, .wait, .finish .idle .busy]

def programReset : List MicroOp := rstPulse ++ [.finish .resetting .resetting]

def programInit (c : Config) : List MicroOp :=
  rstPulse ++ [.setState .initializing, sendCommand 0x12#8, .wait] ++ expandTable c.initTable
    ++ [.finish .idle .failed]

def programClear (c : Config) : List MicroOp :=
  framePlanes c (constPlane c 0xFF#8) ++ refreshWait

def programWriteFrame (c : Config) : List MicroOp :=
  framePlanes c (bufferPlane c) ++ refreshWait

def programWaitIdle : List MicroOp := [.wait, .finish .idle .busy]

/-- P(op) (42_sequencer.md R134). No program belongs to another OP. -/
def program (c : Config) (op : BitVec 4) : List MicroOp :=
  if op = 1#4 then programReset
  else if op = 2#4 then programInit c
  else if op = 3#4 then programClear c
  else if op = 4#4 then programWriteFrame c
  else if op = 5#4 then programWaitIdle
  else []

/-- E, the index of the program's END (45_busy_wait.md R188). -/
def endIndex (c : Config) (op : BitVec 4) : Nat := (program c op).length - 1

/-- The current micro-op P(st.op)[st.upc] (10_state.md R34). -/
def microOp (s : State) : Option MicroOp := (program s.cfg s.op)[s.upc]?

end Machine
end Sys2Proof
end

