-- ==== Sys2Proof/Machine/Ops.lean ====
section
/-! DEFINITION. The named operations over the state: frame memory, registers, command acceptance,
errors, the sequencer's counters, the synchroniser and block reset. -/

namespace Sys2Proof
namespace Machine

/-- What a step answers. -/
abbrev Result := Host.Outcome State Fault Refusal

/-- Go on with `f` where `o` answers a next state. -/
def andThen (o : Result) (f : State → Result) : Result :=
  match o with
  | .next s => f s
  | .fault r => .fault r
  | .refused r => .refused r

/-! ### Frame memory -/

/-- The byte at an address, if anything was ever written there. -/
def Memory.read : Memory → Nat → Option Byte
  | [], _ => none
  | c :: m, a => if c.1 = a then some c.2 else Memory.read m a

/-- A write keeps the addresses strictly rising. -/
def Memory.write : Memory → Nat → Byte → Memory
  | [], a, b => [(a, b)]
  | c :: m, a, b =>
    if a < c.1 then (a, b) :: c :: m
    else if a = c.1 then (a, b) :: m
    else c :: Memory.write m a b

/-- The host's writes of one cycle, in order. -/
def Memory.writeAll (m : Memory) (ws : List (Word × Byte)) : Memory :=
  ws.foldl (fun m w => Memory.write m w.1.toNat w.2) m

/-- The addresses stand in strictly rising order. -/
def Memory.rising : Memory → Bool
  | [] => true
  | c :: m => m.all (fun d => decide (c.1 < d.1)) && Memory.rising m

/-- The canonical form: strictly rising addresses inside the 2^32 bytes of 20_memory.md R60 (the widest ADDR_W of a legal build). An
unlisted address holds no value, so no entry is redundant. -/
def Memory.wf (m : Memory) : Bool := Memory.rising m && m.all (fun c => decide (c.1 < 4294967296))

/-! ### Inputs -/

/-- A cycle in which nothing happens at the inputs. -/
def quietInputs : Inputs :=
  { rstN := true, regWe := false, regAddr := 0#6, regWdata := 0#32, busy := false, hwFault := false,
    memWrites := [] }

/-- What the outside drives in cycle `n` where nothing is scheduled: free values (log 2). -/
def freeInputs (n : Nat) : Inputs :=
  { rstN := Config.freeRstN n, regWe := Config.freeRegWe n, regAddr := Config.freeRegAddr n,
    regWdata := Config.freeRegWdata n, busy := Config.freeBusy n, hwFault := Config.freeHwFault n,
    memWrites := Config.freeMemWrites n }

/-- `I_n` (00_scope.md R9): the head of the schedule, or free values. -/
def State.input (s : State) : Inputs :=
  match s.inputs with
  | [] => freeInputs s.cycle
  | i :: _ => i

/-! ### Registers -/

/-- The register at offset `{a[5:2], 00}`: bits [1:0] are ignored (20_memory.md R61, R68). -/
def regAt (a : BitVec 6) : HostReg :=
  match (a.extractLsb' 2 4).toNat with
  | 0 => .cmd
  | 1 => .status
  | 2 => .timeoutMs
  | 3 => .frameBase
  | 4 => .frameLen
  | 5 => .geometry
  | 6 => .frameBytes
  | 7 => .waitElapsedMs
  | _ => .reserved

/-- A register write but for CMD (20_memory.md R61): three registers store, the others ignore it. A
CMD write stores nothing here (10_state.md R22); it is dispatched. -/
def writeReg (r : HostReg) (w : Word) (s : State) : State :=
  match r with
  | .timeoutMs => { s with timeoutMs := w }
  | .frameBase => { s with frameBase := w }
  | .frameLen => { s with frameLen := w }
  | .cmd | .status | .geometry | .frameBytes | .waitElapsedMs | .reserved => s

/-! ### Errors: the one place a result is raised -/

/-- `raise X` (00_scope.md R10, 42_sequencer.md R130): STATUS.RESULT, and nothing else. -/
def raise (r : ResultCode) (s : State) : State := { s with result := r }

/-- The hardware-fault abort (60_exceptions.md R205). RST, DC, MOSI, st.elapsed and st.timed_out keep
their values. There is no return from it but the next host command (R210). -/
def abort (s : State) : State :=
  raise .hardwareFault
    { s with active := false, state := .failed, pinCs := true, pinSclk := false, upc := 0, cnt := 0 }

/-! ### Host commands -/

/-- A CMD write while ACTIVE = 1 (42_sequencer.md R132). -/
def dropCommand (s : State) : State := { s with dropped := true }

/-- What every evaluated CMD write records (42_sequencer.md R130). -/
def recordCommand (op : BitVec 4) (s : State) : State := { s with lastOp := op, dropped := false }

/-- A CMD write whose word is illegal (30_encoding.md R84). -/
def illegalCommand (op : BitVec 4) (s : State) : State :=
  if s.active then dropCommand s else raise .illegalCmd (recordCommand op s)

/-- allowed(op, state) (42_sequencer.md R133). -/
def allowed (op : BitVec 4) (d : DriverState) : Bool :=
  if op = 1#4 ∨ op = 2#4 then true
  else if op = 3#4 ∨ op = 4#4 then d == .idle
  else if op = 5#4 then d == .idle || d == .busy
  else false

/-- entry_state(op) (42_sequencer.md R131). -/
def entryState (op : BitVec 4) : DriverState :=
  if op = 1#4 ∨ op = 2#4 then .resetting
  else if op = 3#4 ∨ op = 4#4 then .transferring
  else .busy

/-- accept(op) (42_sequencer.md R131): the operands are latched together (20_memory.md R69). The
record of overlapping host writes starts afresh (log 4). -/
def accept (op : BitVec 4) (s : State) : State :=
  { s with
    active := true, op := op, opTimeout := s.timeoutMs, opBase := s.frameBase,
    upc := 0, cnt := 0, timedOut := false, result := .none, state := entryState op,
    contended := [] }

/-- The evaluation of a legal CMD word at its edge (42_sequencer.md R130), in the priority of
60_exceptions.md R207. DESIGN CHOICE: FRAME_LEN is compared with L itself, so in a build with an L of
2^32 or more no WRITE_FRAME is accepted (log 24). -/
def hostCommand (op : BitVec 4) (s : State) : State :=
  if s.active then dropCommand s
  else if allowed op s.state = false then raise .cmdRejected (recordCommand op s)
  else if op = 4#4 ∧ s.frameLen.toNat ≠ planeBytes s.cfg then
    raise .frameSizeMismatch (recordCommand op s)
  else accept op (recordCommand op s)

/-! ### Sequencer counters, synchroniser, block reset -/

/-- The sequencer's move after an edge of a micro-op of duration `dur` (42_sequencer.md R135). -/
def advance (dur : Nat) (s : State) : State :=
  if s.cnt + 1 = dur then { s with upc := s.upc + 1, cnt := 0 } else { s with cnt := s.cnt + 1 }

/-- One edge of the stages after the first, whose old level is `b`: the middle stages and the last. -/
def shiftStages (b : Bool) : List Bool → List Bool × Bool
  | [] => ([], b)
  | m :: rest => (b :: (shiftStages m rest).1, (shiftStages m rest).2)

/-- The BUSY synchroniser (10_state.md R44): every stage takes the pre-edge level of the one before it.
With SYNC_STAGES = 2 there is no middle stage, and st.busy_sync takes st.busy_s1. DEDUCED: with more
the levels pass through each in turn (log 22). -/
def synchronise (busy : Bool) (s : State) : State :=
  { s with
    busyS1 := busy
    busyMid := (shiftStages s.busyS1 s.busyMid).1
    busySync := (shiftStages s.busyS1 s.busyMid).2 }

/-- Block reset (70_reset_and_hazards.md R230). The host's memory, the schedule and the cycle number
are no part of the block and stay (log 12). -/
def blockReset (s : State) : State :=
  { State.resetOf s.cfg with mem := s.mem, inputs := s.inputs, cycle := s.cycle }

/-- An active WRITE_FRAME (70_reset_and_hazards.md R240). -/
def writeFrameActive (s : State) : Bool := s.active && s.op == 4#4

/-- The addresses whose fetch is a draw, with those written in this cycle (20_memory.md R66, log 4). -/
def noteContended (running : Bool) (ws : List (Word × Byte)) (l : List Nat) : List Nat :=
  if running then ws.foldl (fun l w => if w.1.toNat ∈ l then l else w.1.toNat :: l) l else l

/-- The surroundings' part of an edge: the host's memory writes land, the schedule and the cycle
number move on. -/
def surroundings (i : Inputs) (running : Bool) (s : State) : State :=
  { s with
    mem := Memory.writeAll s.mem i.memWrites
    contended := noteContended running i.memWrites s.contended
    inputs := s.inputs.tail
    cycle := s.cycle + 1 }

end Machine
end Sys2Proof
end

