-- ==== Sys2Proof/Machine/Flags.lean ====
section
/-! DEFINITION. The status fields and the register views (10_state.md R22 to R30, 20_memory.md R62). -/

namespace Sys2Proof
namespace Machine

/-- STATE encoding (10_state.md R24). -/
def stateCode : DriverState → BitVec 3
  | .uninitialized => 0#3
  | .resetting => 1#3
  | .initializing => 2#3
  | .idle => 3#3
  | .busy => 4#3
  | .transferring => 5#3
  | .failed => 6#3

/-- RESULT encoding (60_exceptions.md R200). -/
def resultCode : ResultCode → BitVec 3
  | .none => 0#3
  | .ok => 1#3
  | .busyTimeout => 2#3
  | .frameSizeMismatch => 3#3
  | .hardwareFault => 4#3
  | .cmdRejected => 5#3
  | .illegalCmd => 6#3

/-- The panel shows idle (10_state.md R45). -/
def panelIdle (s : State) : Bool := s.busySync != s.cfg.busyActiveLevel

/-- STATUS.PANEL_BUSY (10_state.md R23). -/
def panelBusy (s : State) : Bool := s.busySync == s.cfg.busyActiveLevel

/-- STATUS (10_state.md R23), from bit 31 down: reserved, LAST_OP, reserved, RESULT, reserved,
PANEL_BUSY, DROPPED, BUSY_SYNC, ACTIVE, STATE. -/
def statusWord (s : State) : Word :=
  0#12 ++ s.lastOp ++ 0#5 ++ resultCode s.result ++ 0#1 ++ BitVec.ofBool (panelBusy s)
    ++ BitVec.ofBool s.dropped ++ BitVec.ofBool s.busySync ++ BitVec.ofBool s.active ++ stateCode s.state

/-- WAIT_ELAPSED_MS: min(st.elapsed, 0xFFFF_FFFF) (10_state.md R30). -/
def waitElapsed (s : State) : Word := BitVec.ofNat 32 (min s.elapsed.toNat 4294967295)

/-- GEOMETRY: HEIGHT above WIDTH, 16 bits each (10_state.md R28).
DESIGN CHOICE: of a larger HEIGHT or WIDTH it shows the low 16 bits (log 24). -/
def geometryWord (c : Config) : Word := BitVec.ofNat 16 c.height ++ BitVec.ofNat 16 c.width

/-- FRAME_BYTES: L in 32 bits (10_state.md R29).
DESIGN CHOICE: of an L of 2^32 or more it shows the low 32 bits (log 24). -/
def frameBytesWord (c : Config) : Word := BitVec.ofNat 32 (planeBytes c)

/-- A register read: a function of the state, without a side effect (20_memory.md R62). -/
def readReg (r : HostReg) (s : State) : Word :=
  match r with
  | .cmd => 0#32
  | .status => statusWord s
  | .timeoutMs => s.timeoutMs
  | .frameBase => s.frameBase
  | .frameLen => s.frameLen
  | .geometry => geometryWord s.cfg
  | .frameBytes => frameBytesWord s.cfg
  | .waitElapsedMs => waitElapsed s
  | .reserved => 0#32

/-- REG_RDATA for REG_ADDR = `a` (20_memory.md R62). -/
def regRdata (a : BitVec 6) (s : State) : Word := readReg (regAt a) s

end Machine
end Sys2Proof
end

