-- ==== Sys2Proof/Machine/Operands.lean ====
section
/-! DEFINITION. The operand forms: the byte sources of BYTE and the frame-memory read port
(40_adapter.md R104, R106; 20_memory.md R66, R67; 10_state.md R41). -/

namespace Sys2Proof
namespace Machine

/-- The address of frame byte `i`: (st.op_base + i) mod 2^ADDR_W (20_memory.md R67).
DEDUCED: its 2^32 is 2^ADDR_W (log 22). -/
def frameAddr (s : State) (i : Nat) : Word := BitVec.ofNat 32 ((s.opBase.toNat + i) % 2 ^ s.cfg.addrW)

/-- The frame byte the fetch edge would read in this cycle, if it is one (10_state.md R41). -/
def fetchIndex (s : State) : Option Nat :=
  if s.active ∧ s.cnt = 0 then
    match microOp s with
    | some (.byte true (.frame i)) => some i
    | _ => none
  else none

/-- FB_RD (10_state.md R41). -/
def fbRd (s : State) : Bool := (fetchIndex s).isSome

/-- FB_ADDR (10_state.md R41): 0 where FB_RD = 0. -/
def fbAddr (s : State) : Word :=
  match fetchIndex s with
  | some i => frameAddr s i
  | none => 0#32

/-- The host wrote address `a` while the running WRITE_FRAME was active, this cycle included. -/
def overlapped (i : Inputs) (s : State) (a : Word) : Bool :=
  decide (a.toNat ∈ s.contended) || i.memWrites.any (fun w => w.1 == a)

/-- FB_DATA for address `a` in this cycle (20_memory.md R66): the byte the host last wrote there, or
any byte (a draw) where it wrote none or broke its duty of R240. Never a fault (40_adapter.md R104). -/
def fbData (i : Inputs) (s : State) (a : Word) : Byte :=
  if overlapped i s a then Config.freeByte s.cycle
  else (Memory.read s.mem a.toNat).getD (Config.freeByte s.cycle)

/-- The byte of the frame a BYTE sends at this edge: a constant, the byte being fetched, or the byte
fetched before, which stands in st.sh (40_adapter.md R106). -/
def sourceByte (i : Inputs) (s : State) : ByteSrc → Byte
  | .const b => b
  | .frame n => if s.cnt = 0 then fbData i s (frameAddr s n) else s.sh

end Machine
end Sys2Proof
end

