-- ==== Sys2Proof/Machine/Sequencer.lean ====
section
/-! DEFINITION. What each micro-op does at one edge, its counters included (40_adapter.md R102 to
R108, 42_sequencer.md R135 to R138, 45_busy_wait.md R186 to R188). -/

namespace Sys2Proof
namespace Machine

/-- SETRST(v) (40_adapter.md R102). -/
def setRstEdge (v : Bool) (s : State) : State := advance 1 { s with pinRst := v }

/-- DELAY(t) (40_adapter.md R103). -/
def delayEdge (ms : Nat) (s : State) : State := advance (ms * cyclesPerMs s.cfg) s

/-- SETSTATE(d) (42_sequencer.md R137). -/
def setStateEdge (d : DriverState) (s : State) : State := advance 1 { s with state := d }

/-- The action at the first edge of slot `n` of a BYTE (40_adapter.md R107, R108). -/
def byteSlot (dc : Bool) (n : Nat) (s : State) : State :=
  if n = 0 then { s with pinDc := dc, pinMosi := s.sh.getLsbD 7 }
  else if n = 1 then { s with pinCs := false }
  else if n ≤ 17 ∧ n % 2 = 0 then { s with pinSclk := true }
  else if n < 17 then { s with pinSclk := false, pinMosi := s.sh.getLsbD (6 - (n - 3) / 2) }
  else if n = 17 then { s with pinSclk := false }
  else if n = 18 then { s with pinCs := true }
  else s

/-- The action of a BYTE at st.cnt (40_adapter.md R105, R108): the fetch, or the slot that begins here. -/
def byteAction (dc : Bool) (b : Byte) (s : State) : State :=
  if s.cnt = 0 then { s with sh := b }
  else if (s.cnt - 1) % halfPeriod s.cfg = 0 then byteSlot dc ((s.cnt - 1) / halfPeriod s.cfg) s
  else s

/-- One edge of BYTE(dc, src), `b` being the byte src gives. -/
def byteEdge (dc : Bool) (b : Byte) (s : State) : State := advance (byteDur s.cfg) (byteAction dc b s)

/-- A WAIT that saw the panel idle (45_busy_wait.md R188). -/
def waitSuccess (s : State) : State := { s with upc := s.upc + 1, cnt := 0 }

/-- A WAIT that timed out jumps to END (45_busy_wait.md R188). -/
def waitTimeout (s : State) : State :=
  { s with timedOut := true, upc := endIndex s.cfg s.op, cnt := 0 }

/-- The m-th sample edge of a WAIT (45_busy_wait.md R186): idle is tested before the timeout. -/
def waitSample (m : Nat) (s : State) : State :=
  if panelIdle s then waitSuccess { s with elapsed := BitVec.ofNat 33 (s.cfg.pollMs * m) }
  else if s.opTimeout.toNat ≤ s.cfg.pollMs * m then
    waitTimeout { s with elapsed := BitVec.ofNat 33 (s.cfg.pollMs * m) }
  else { s with elapsed := BitVec.ofNat 33 (s.cfg.pollMs * m), cnt := s.cnt + 1 }

/-- One edge of WAIT (45_busy_wait.md R186). -/
def waitEdge (s : State) : State :=
  if s.cnt = 0 then { s with elapsed := 0#33, cnt := 1 }
  else if s.cnt % pollEdges s.cfg = 0 then waitSample (s.cnt / pollEdges s.cfg) s
  else { s with cnt := s.cnt + 1 }

/-- END(sOk, sTo) (42_sequencer.md R138). -/
def finishEdge (sOk sTo : DriverState) (s : State) : State :=
  if s.timedOut then
    raise .busyTimeout { s with state := sTo, active := false, upc := 0, cnt := 0 }
  else raise .ok { s with state := sOk, active := false, upc := 0, cnt := 0 }

end Machine
end Sys2Proof
end

