-- ==== Sys2Proof/Machine/HostCommands.lean ====
section
/-! DEFINITION. The meanings of the five host commands: what the CMD edge does (42_sequencer.md R130
to R133; log 10). The operation an accepted command starts is run by the sequencer, an edge a step. -/

namespace Sys2Proof
namespace Machine

/-- RESET, OP = 1 (43_reset_init.md R150). -/
def execReset (s : State) : Result := .next (hostCommand 1#4 s)

/-- INIT, OP = 2 (43_reset_init.md R152). -/
def execInit (s : State) : Result := .next (hostCommand 2#4 s)

/-- CLEAR, OP = 3 (44_frame.md R170). -/
def execClear (s : State) : Result := .next (hostCommand 3#4 s)

/-- WRITE_FRAME, OP = 4 (44_frame.md R174, R176). -/
def execWriteFrame (s : State) : Result := .next (hostCommand 4#4 s)

/-- WAIT_IDLE, OP = 5 (45_busy_wait.md R190). -/
def execWaitIdle (s : State) : Result := .next (hostCommand 5#4 s)

end Machine
end Sys2Proof
end

