-- ==== Sys2Proof/Machine/PanelFrames.lean ====
section
/-! DEFINITION. The meanings of the SPI frames: one edge of the BYTE micro-op that sends the frame, at
st.cnt (40_adapter.md R104 to R108; 41_transport.md R120 to R122; log 6). -/

namespace Sys2Proof
namespace Machine

/-- C:12, software reset of INIT (43_reset_init.md R154). -/
def execCSwreset (s : State) : Result := .next (byteEdge false 0x12#8 s)

/-- C:12, refresh trigger of THREE_COLOR (44_frame.md R172). -/
def execCRefresh (s : State) : Result := .next (byteEdge false 0x12#8 s)

/-- C:01, driver output control (43_reset_init.md R156). -/
def execCDriverOutputControl (s : State) : Result := .next (byteEdge false 0x01#8 s)

/-- C:11, data entry mode (43_reset_init.md R156). -/
def execCDataEntryMode (s : State) : Result := .next (byteEdge false 0x11#8 s)

/-- C:44, RAM X address window (43_reset_init.md R156). -/
def execCRamXWindow (s : State) : Result := .next (byteEdge false 0x44#8 s)

/-- C:45, RAM Y address window (43_reset_init.md R156). -/
def execCRamYWindow (s : State) : Result := .next (byteEdge false 0x45#8 s)

/-- C:3C, border waveform control (43_reset_init.md R156). -/
def execCBorderWaveform (s : State) : Result := .next (byteEdge false 0x3C#8 s)

/-- C:21, display update control (43_reset_init.md R156). -/
def execCDisplayUpdateControl (s : State) : Result := .next (byteEdge false 0x21#8 s)

/-- C:4E, RAM X address counter (43_reset_init.md R157). -/
def execCRamXCounter (s : State) : Result := .next (byteEdge false 0x4E#8 s)

/-- C:4F, RAM Y address counter (43_reset_init.md R157). -/
def execCRamYCounter (s : State) : Result := .next (byteEdge false 0x4F#8 s)

/-- C:10, black/white plane (44_frame.md R171). -/
def execCWriteBwPlane (s : State) : Result := .next (byteEdge false 0x10#8 s)

/-- C:13, red plane (44_frame.md R171). -/
def execCWriteRedPlane (s : State) : Result := .next (byteEdge false 0x13#8 s)

/-- C:24, plane of MONO (44_frame.md R171). -/
def execCWriteRam (s : State) : Result := .next (byteEdge false 0x24#8 s)

/-- C:20, refresh trigger of MONO (44_frame.md R172). -/
def execCActivateUpdate (s : State) : Result := .next (byteEdge false 0x20#8 s)

/-- D:b, a data frame with payload `b` (41_transport.md R122). -/
def execDData (b : Byte) (s : State) : Result := .next (byteEdge true b s)

end Machine
end Sys2Proof
end

