-- ==== Sys2Proof/Machine/Dispatch.lean ====
section
/-! DEFINITION. The dispatch: one arm per instruction, each a direct call of its meaning. -/

namespace Sys2Proof
namespace Machine

def exec (i : Instr) (s : State) : Host.Outcome State Fault Refusal :=
  match i with
  | .reset => Sys2Proof.Machine.execReset s
  | .init => Sys2Proof.Machine.execInit s
  | .clear => Sys2Proof.Machine.execClear s
  | .writeFrame => Sys2Proof.Machine.execWriteFrame s
  | .waitIdle => Sys2Proof.Machine.execWaitIdle s
  | .cSwreset => Sys2Proof.Machine.execCSwreset s
  | .cRefresh => Sys2Proof.Machine.execCRefresh s
  | .cDriverOutputControl => Sys2Proof.Machine.execCDriverOutputControl s
  | .cDataEntryMode => Sys2Proof.Machine.execCDataEntryMode s
  | .cRamXWindow => Sys2Proof.Machine.execCRamXWindow s
  | .cRamYWindow => Sys2Proof.Machine.execCRamYWindow s
  | .cBorderWaveform => Sys2Proof.Machine.execCBorderWaveform s
  | .cDisplayUpdateControl => Sys2Proof.Machine.execCDisplayUpdateControl s
  | .cRamXCounter => Sys2Proof.Machine.execCRamXCounter s
  | .cRamYCounter => Sys2Proof.Machine.execCRamYCounter s
  | .cWriteBwPlane => Sys2Proof.Machine.execCWriteBwPlane s
  | .cWriteRedPlane => Sys2Proof.Machine.execCWriteRedPlane s
  | .cWriteRam => Sys2Proof.Machine.execCWriteRam s
  | .cActivateUpdate => Sys2Proof.Machine.execCActivateUpdate s
  | .dData b => Sys2Proof.Machine.execDData b s

end Machine
end Sys2Proof
end

