-- ==== Sys2Proof/Machine/Edge.lean ====
section
/-! DEFINITION. One edge of CLK: block reset, the register bus with the CMD dispatch, the engine, the
synchroniser, the surroundings (00_scope.md R9, 20_memory.md R61, 42_sequencer.md R135, R136). -/

namespace Sys2Proof
namespace Machine

/-- A word written to CMD: the decoded command runs, an illegal word is ILLEGAL_CMD (42_sequencer.md
R130, 30_encoding.md R84). -/
def cmdWrite (w : Word) (s : State) : Result :=
  match decodeHost w with
  | .ok c => exec c s
  | .error _ => .next (illegalCommand (hostOp w) s)

/-- The register bus at one edge (20_memory.md R61). -/
def busPhase (i : Inputs) (s : State) : Result :=
  if i.regWe then
    match regAt i.regAddr with
    | .cmd => cmdWrite i.regWdata s
    | r => .next (writeReg r i.regWdata s)
  else .next s

/-- One edge of a BYTE: the frame it sends is decoded and run. A command byte that no row of the table
names is sent the same way (30_encoding.md R89; log 8). -/
def sendFrame (dc : Bool) (b : Byte) (s : State) : Result :=
  match decodeFrameIn s.op (mkFrame dc b) with
  | .ok c => exec c s
  | .error _ => .next (byteEdge dc b s)

/-- One edge of the current micro-op. -/
def microEdge (i : Inputs) (s : State) : MicroOp → Result
  | .setRst v => .next (setRstEdge v s)
  | .delay ms => .next (delayEdge ms s)
  | .byte dc src => sendFrame dc (sourceByte i s src) s
  | .wait => .next (waitEdge s)
  | .setState d => .next (setStateEdge d s)
  | .finish sOk sTo => .next (finishEdge sOk sTo s)

/-- The engine at an edge with ACTIVE = 1 (42_sequencer.md R135): the abort pre-empts the micro-op
(60_exceptions.md R205, R208). -/
def enginePhase (i : Inputs) (s : State) : Result :=
  if i.hwFault then .next (abort s)
  else
    match microOp s with
    | some u => microEdge i s u
    | none => .fault .outsideProgram

/-- The whole edge with inputs `i`. Every part reads the pre-edge state: the engine runs iff ACTIVE
was 1 before the edge (42_sequencer.md R136; log 18). -/
def clockEdge (i : Inputs) (s : State) : Result :=
  if i.rstN then
    andThen (busPhase i s) fun s1 =>
    andThen (if s.active then enginePhase i s1 else .next s1) fun s2 =>
    .next (surroundings i (writeFrameActive s || writeFrameActive s2) (synchronise i.busy s2))
  else .next (surroundings i false (blockReset s))

end Machine
end Sys2Proof
end

