-- ==== Sys2Proof/Machine/Fetch.lean ====
section
/-! DEFINITION. Where the machine takes its next instruction from, and how one is put there (log 5). -/

namespace Sys2Proof
namespace Machine

/-- The host writes `w` to CMD in the next cycle, and nothing else happens at the inputs. -/
def placeHostCommand (w : Word) (s : State) : State :=
  { s with inputs := { quietInputs with regWe := true, regWdata := w } :: s.inputs }

/-- The index in P(INIT) of the first micro-op of TABLE (42_sequencer.md R134). -/
def tableStart : Nat := 9

/-- An INIT_TABLE that sends the frame `f`: a command byte as an entry of its own, a data byte after an
opcode. -/
def tableSending (f : FrameBits) : List InitEntry :=
  if frameDc f then [⟨0x01#8, [frameB f]⟩] else [⟨frameB f, []⟩]

/-- INIT stands at the fetch edge of the frame `f`, which its INIT_TABLE lists (30_encoding.md R89:
INIT_TABLE may hold any opcode byte), and the inputs are quiet in the next cycle. -/
def placeFrame (f : FrameBits) (s : State) : State :=
  { s with
    cfg := { s.cfg with initTable := tableSending f }
    active := true, op := 2#4, upc := if frameDc f then tableStart + 1 else tableStart, cnt := 0
    inputs := quietInputs :: s.inputs }

/-- Put an encoded instruction where the next step takes it from. -/
def placeEncoding (e : Encoding) (s : State) : State :=
  match e with
  | .hostCmd w => placeHostCommand w s
  | .spiFrame f => placeFrame f s

end Machine
end Sys2Proof
end

