-- ==== Sys2Proof/Machine/Step.lean ====
section
/-! DEFINITION. The step: one edge of CLK with the inputs of the current cycle (00_scope.md R9). -/

namespace Sys2Proof
namespace Machine

/-- `S_{n+1} = step(S_n, I_n)` (00_scope.md R9). -/
def step (s : State) : Host.Outcome State Fault Refusal := clockEdge s.input s

/-- `s` with a table row's bits where `step` takes its next instruction from (log 5). Bits that no
format can hold place nothing. -/
def State.withFetchWord (s : State) (nbits w : Nat) : State :=
  match tableEncoding nbits w with
  | some e => placeEncoding e s
  | none => s

end Machine
end Sys2Proof
end

