-- ==== Sys2Proof/Machine/Outputs.lean ====
section
/-! DEFINITION. What the outside sees of a state: a Moore machine's outputs (00_scope.md R9, 10_state.md
R40, R41). REG_RDATA also depends on REG_ADDR: `regRdata` in Flags.lean (R43). -/

namespace Sys2Proof
namespace Machine

/-- The levels of the five output pins (10_state.md R40). -/
structure PinLevels where
  rst  : Bool
  dc   : Bool
  cs   : Bool
  sclk : Bool
  mosi : Bool
deriving DecidableEq, Repr

/-- The pins of a state. -/
def pins (s : State) : PinLevels :=
  { rst := s.pinRst, dc := s.pinDc, cs := s.pinCs, sclk := s.pinSclk, mosi := s.pinMosi }

/-- All outputs but REG_RDATA. -/
structure Outputs where
  pins   : PinLevels
  fbRd   : Bool
  fbAddr : Word
deriving DecidableEq, Repr

/-- The outputs during the cycle of state `s`. -/
def outputs (s : State) : Outputs := { pins := pins s, fbRd := fbRd s, fbAddr := fbAddr s }

end Machine
end Sys2Proof
end

