-- ==== Sys2Proof/Machine/HostProgram.lean ====
section
/-! DEFINITION. Host programs (30_encoding.md R90, R91): one bus operation a cycle, the host's own
control flow between cycles, and the pseudo-instructions. -/

namespace Sys2Proof
namespace Machine

/-- The byte offset of a register in the window (10_state.md R21). DESIGN CHOICE: the first reserved offset
stands for them all (log 16). -/
def regOffset : HostReg → BitVec 6
  | .cmd => 0x00#6
  | .status => 0x04#6
  | .timeoutMs => 0x08#6
  | .frameBase => 0x0C#6
  | .frameLen => 0x10#6
  | .geometry => 0x14#6
  | .frameBytes => 0x18#6
  | .waitElapsedMs => 0x1C#6
  | .reserved => 0x20#6

/-- One line of a host program (30_encoding.md R90). A read binds variable `x`; a label is a number. -/
inductive HostLine where
  | wr (r : HostReg) (v : Word)
  | rd (r : HostReg) (x : Nat)
  | label (l : Nat)
  | bnz (x bit l : Nat)
  | bz (x bit l : Nat)
  | idle (n : Nat)
deriving DecidableEq, Repr

/-- `WR CMD, OP` under the command's mnemonic (30_encoding.md R90); an SPI frame is no host command. -/
def hostMnemonic (i : Instr) : List HostLine :=
  match encode i with
  | .hostCmd w => [.wr .cmd w]
  | .spiFrame _ => []

/-- `POLL -> x`, `l` being a fresh label (30_encoding.md R91). -/
def pollLines (x l : Nat) : List HostLine := [.label l, .rd .status x, .bnz x 3 l]

/-- `RUN i -> x` (30_encoding.md R91). -/
def runLines (i : Instr) (x l : Nat) : List HostLine := hostMnemonic i ++ pollLines x l

/-- `SETTIMEOUT t` (30_encoding.md R91). -/
def setTimeoutLines (t : Word) : List HostLine := [.wr .timeoutMs t]

/-- `FRAME base` for the build `c` (30_encoding.md R91). DEDUCED: the 4736 it writes is L (log 22).
DESIGN CHOICE: of an L of 2^32 or more it writes the low 32 bits (log 24). -/
def frameLines (c : Config) (base : Word) : List HostLine :=
  [.wr .frameBase base, .wr .frameLen (BitVec.ofNat 32 (planeBytes c))]

/-- The boot order of 70_reset_and_hazards.md R235 up to the first frame: a timeout, INIT, and a check
that INIT ended OK and Idle (STATUS bit 8 alone set of RESULT, STATE = 3), else nothing more. -/
def bootLines (c : Config) (t base : Word) : List HostLine :=
  setTimeoutLines t ++ runLines .init 0 0
    ++ [.bz 0 8 9, .bnz 0 9 9, .bnz 0 10 9, .bz 0 0 9, .bz 0 1 9, .bnz 0 2 9]
    ++ frameLines c base ++ runLines .writeFrame 1 1 ++ [.label 9]

/-- The host between cycles: the lines still to run, the bound variables, the idle cycles left. -/
structure HostCtl where
  rest : List HostLine
  vars : List (Nat × Word)
  idle : Nat
deriving DecidableEq, Repr

/-- A variable's value; one that nothing has bound reads 0 (the host's own affair, log 16). -/
def hostVar (vars : List (Nat × Word)) (x : Nat) : Word := (vars.lookup x).getD 0#32

/-- The lines after a label. DESIGN CHOICE: the first line of the program that holds the label, where
several do; an absent label ends the program (log 16). -/
def seekLabel (l : Nat) : List HostLine → List HostLine
  | [] => []
  | .label m :: rest => if m = l then rest else seekLabel l rest
  | .wr _ _ :: rest | .rd _ _ :: rest | .bnz _ _ _ :: rest | .bz _ _ _ :: rest | .idle _ :: rest =>
    seekLabel l rest

/-- Run the lines that take no cycle: labels, branches, IDLE 0. `fuel` bounds a loop that never reaches
a bus operation (log 16). -/
def hostResolve (prog : List HostLine) : Nat → HostCtl → HostCtl
  | 0, h => h
  | fuel + 1, h =>
    match h.rest with
    | .label _ :: rest => hostResolve prog fuel { h with rest := rest }
    | .bnz x bit l :: rest =>
      hostResolve prog fuel
        { h with rest := if (hostVar h.vars x).getLsbD bit then seekLabel l prog else rest }
    | .bz x bit l :: rest =>
      hostResolve prog fuel
        { h with rest := if (hostVar h.vars x).getLsbD bit then rest else seekLabel l prog }
    | .idle 0 :: rest => hostResolve prog fuel { h with rest := rest }
    | .wr _ _ :: _ | .rd _ _ :: _ | .idle (_ + 1) :: _ | [] => h

/-- The register-bus levels of one cycle and the host after it (30_encoding.md R90): a write drives
REG_WE = 1, a read binds REG_RDATA of this cycle's state, and other cycles have REG_WE = 0. -/
def hostDrive (i : Inputs) (s : State) (h : HostCtl) : Inputs × HostCtl :=
  if 0 < h.idle then ({ i with regWe := false }, { h with idle := h.idle - 1 })
  else
    match h.rest with
    | .wr r v :: rest =>
      ({ i with regWe := true, regAddr := regOffset r, regWdata := v }, { h with rest := rest })
    | .rd r x :: rest =>
      ({ i with regWe := false, regAddr := regOffset r },
        { h with rest := rest, vars := (x, regRdata (regOffset r) s) :: h.vars })
    | .idle n :: rest => ({ i with regWe := false }, { h with rest := rest, idle := n - 1 })
    | .label _ :: _ | .bnz _ _ _ :: _ | .bz _ _ _ :: _ | [] => ({ i with regWe := false }, h)

/-- `s` with the inputs of its current cycle replaced. -/
def State.withInput (i : Inputs) (s : State) : State := { s with inputs := i :: s.inputs.tail }

/-- `k` cycles of the machine under a host program: the schedule gives BUSY, HW_FAULT, RST_N and the
memory writes, the program gives the register bus. -/
def runHost (prog : List HostLine) : Nat → HostCtl → State → Result × HostCtl
  | 0, h, s => (.next s, h)
  | k + 1, h, s =>
    let ready := if h.idle = 0 then hostResolve prog (prog.length + 1) h else h
    let drive := hostDrive s.input s ready
    match step (State.withInput drive.1 s) with
    | .next t => runHost prog k drive.2 t
    | .fault r => (.fault r, drive.2)
    | .refused r => (.refused r, drive.2)

/-- A host program at its first line. -/
def hostStart (prog : List HostLine) : HostCtl := { rest := prog, vars := [], idle := 0 }

end Machine
end Sys2Proof
end

