-- ==== Sys2Proof/Machine/Stream.lean ====
section
/-! DEFINITION. The panel stream (20_memory.md R60, 30_encoding.md R92): what a program sends, and what
a receiver on the SPI pins collects. -/

namespace Sys2Proof
namespace Machine

/-- `C:b` (30_encoding.md R92). -/
def cFrame (b : Byte) : FrameBits := mkFrame false b

/-- `D:b` (30_encoding.md R92). -/
def dFrame (b : Byte) : FrameBits := mkFrame true b

/-- The frame a micro-op sends, `buf i` being frame byte i. -/
def frameOfMicroOp (buf : Nat → Byte) : MicroOp → Option FrameBits
  | .byte dc (.const b) => some (mkFrame dc b)
  | .byte dc (.frame i) => some (mkFrame dc (buf i))
  | .setRst _ | .delay _ | .wait | .setState _ | .finish _ _ => none

/-- The frames a program sends when it runs through (30_encoding.md R86, R92). -/
def streamOf (buf : Nat → Byte) (p : List MicroOp) : List FrameBits := p.filterMap (frameOfMicroOp buf)

/-- A receiver on the bus: the DC level at the last CS assertion, the bits sampled since, first bit
first, and the complete frames, newest first. -/
structure Receiver where
  dc     : Bool
  bits   : List Bool
  frames : List FrameBits
deriving DecidableEq, Repr

/-- The byte of eight bits, most significant first (20_memory.md R65). -/
def byteOfBits (l : List Bool) : Byte := l.foldl (fun acc b => (acc <<< 1) ||| (BitVec.ofBool b).setWidth 8) 0#8

/-- One edge seen from the bus: a CS assertion starts a frame (00_scope.md R14), a rising SCLK samples
MOSI, a CS deassertion ends the frame, which is complete with eight bits.
PRESUMED: mode 0 samples on the rising edge (40_adapter.md R107 marks it general knowledge; log 15). -/
def receive (before after : PinLevels) (r : Receiver) : Receiver :=
  if before.cs ∧ ¬ after.cs then { r with dc := after.dc, bits := [] }
  else if ¬ before.cs ∧ after.cs then
    if r.bits.length = 8 then { r with bits := [], frames := mkFrame r.dc (byteOfBits r.bits) :: r.frames }
    else { r with bits := [] }
  else if ¬ after.cs ∧ ¬ before.sclk ∧ after.sclk then { r with bits := r.bits ++ [after.mosi] }
  else r

end Machine
end Sys2Proof
end

