-- ==== Sys2Proof/Safety.lean ====
section
/-! DEFINITION. What claims speak of: the invariants of a run, the waveform of a byte, the edges an
operation still takes, the host's duties and the transitions of the DriverState. -/

namespace Sys2Proof
namespace Machine

/-! ### The sequencer's position -/

/-- ACTIVE = 1: st.upc and st.cnt stand inside P(st.op); ACTIVE = 0: both are 0 (10_state.md R34, R42). -/
def positionOk (s : State) : Bool :=
  if s.active then
    match microOp s with
    | some u => decide (s.cnt < microDur s.cfg s.opTimeout u)
    | none => false
  else s.upc == 0 && s.cnt == 0

/-- The synchroniser has SYNC_STAGES stages (10_state.md R44). -/
def stagesOk (s : State) : Bool := s.busyMid.length + 2 == s.cfg.syncStages

/-- The base invariant: a legal build, canonical frame memory, a position inside the program, a whole
synchroniser. -/
def SeqInv (s : State) : Prop :=
  s.cfg.wf = true ∧ Memory.wf s.mem = true ∧ positionOk s = true ∧ stagesOk s = true

/-! ### The waveform of one byte (40_adapter.md R105, R107, R109) -/

/-- How many slots have begun after `k` edges of a BYTE with half-period `h`. -/
def slotsBegun (h k : Nat) : Nat := if k ≤ 1 then 0 else (k - 2) / h + 1

/-- CS is 0 from slot 1 to slot 18. -/
def waveCs (h k : Nat) : Bool := !(decide (2 ≤ slotsBegun h k) && decide (slotsBegun h k ≤ 18))

/-- SCLK is 1 in the even slots 2 to 16. -/
def waveSclk (h k : Nat) : Bool :=
  decide (3 ≤ slotsBegun h k) && decide (slotsBegun h k ≤ 17) && slotsBegun h k % 2 == 1

/-- The bit of st.sh on MOSI, for k ≥ 2. -/
def waveBit (h k : Nat) : Nat := 7 - min 7 ((slotsBegun h k - 2) / 2)

/-- The BYTE the sequencer stands in, if any. -/
def currentByte (s : State) : Option (Bool × ByteSrc) :=
  if s.active then
    match microOp s with
    | some (.byte dc src) => some (dc, src)
    | _ => none
  else none

/-- The pins follow the waveform inside a BYTE, and CS = 1, SCLK = 0 outside (40_adapter.md R109). -/
def pinsOk (s : State) : Bool :=
  match currentByte s with
  | some (dc, src) =>
    s.pinCs == waveCs (halfPeriod s.cfg) s.cnt && s.pinSclk == waveSclk (halfPeriod s.cfg) s.cnt
      && (decide (s.cnt ≤ 1) ||
          (s.pinDc == dc && s.pinMosi == s.sh.getLsbD (waveBit (halfPeriod s.cfg) s.cnt)))
      && (decide (s.cnt = 0) ||
          match src with
          | .const b => s.sh == b
          | .frame _ => true)
  | none => s.pinCs && !s.pinSclk

/-! ### DriverState and results -/

/-- The DriverState a micro-op leaves (42_sequencer.md R137). -/
def stateAfter (d : DriverState) : MicroOp → DriverState
  | .setState e => e
  | .setRst _ | .delay _ | .byte _ _ | .wait | .finish _ _ => d

/-- The DriverState at position `upc` of P(op): the entry state, then each SETSTATE passed. -/
def stateAt (c : Config) (op : BitVec 4) (upc : Nat) : DriverState :=
  ((program c op).take upc).foldl stateAfter (entryState op)

/-- Initializing and Transferring never hold while ACTIVE = 0 (42_sequencer.md R133); while ACTIVE = 1
the state is the program's. -/
def driverStateOk (s : State) : Bool :=
  if s.active then s.state == stateAt s.cfg s.op s.upc
  else s.state != .initializing && s.state != .transferring

/-- RESULT is NONE while an operation runs, and with ACTIVE = 0 only in Uninitialized (60_exceptions.md R200). -/
def resultOk (s : State) : Bool :=
  if s.active then s.result == .none else s.result != .none || s.state == .uninitialized

/-! ### The busy-wait -/

/-- What st.elapsed and st.timed_out hold (45_busy_wait.md R187, R189; 60_exceptions.md R202). -/
def waitOk (s : State) : Bool :=
  decide (s.elapsed.toNat ≤ s.cfg.pollMs * lastSample s.cfg 0xFFFFFFFF#32)
    && (if s.active then
          if s.timedOut then
            s.upc == endIndex s.cfg s.op && decide (s.elapsed.toNat = s.cfg.pollMs * lastSample s.cfg s.opTimeout)
          else
            match microOp s with
            | some .wait =>
              decide (s.cnt = 0)
                || decide (s.elapsed.toNat = s.cfg.pollMs * ((s.cnt - 1) / pollEdges s.cfg))
            | _ => true
        else
          s.result != .busyTimeout
            || decide (s.elapsed.toNat = s.cfg.pollMs * lastSample s.cfg s.opTimeout))

/-- The whole invariant of a run. -/
def RunInv (s : State) : Prop :=
  SeqInv s ∧ pinsOk s = true ∧ driverStateOk s = true ∧ resultOk s = true ∧ waitOk s = true

/-- The running command under which a frame's word is decoded (30_encoding.md R88, log 7). -/
def runningOp (i : Instr) : BitVec 4 := if i = .cRefresh then 3#4 else 2#4

/-! ### How long an operation takes -/

/-- The bound of 42_sequencer.md R140 on the edges of P(op) under timeout `t`. -/
def opBound (c : Config) (op : BitVec 4) (t : Word) : Nat := ((program c op).map (microDur c t)).sum

/-- The edges the running operation takes at most from here. -/
def remaining (s : State) : Nat :=
  if s.active then
    (((program s.cfg s.op).drop s.upc).map (microDur s.cfg s.opTimeout)).sum - s.cnt
  else 0

/-- In the next `n` cycles the schedule holds RST_N = 1 and HW_FAULT = 0. -/
def calmFor (n : Nat) (s : State) : Prop :=
  ∀ k, k < n → ∃ i : Inputs, s.inputs[k]? = some i ∧ i.rstN = true ∧ i.hwFault = false

/-- `k` steps watched by a receiver on the SPI pins. -/
def observe : Nat → State → Receiver → Option (State × Receiver)
  | 0, s, r => some (s, r)
  | k + 1, s, r =>
    match step s with
    | .next t => observe k t (receive (pins s) (pins t) r)
    | .fault _ | .refused _ => none

/-- In the next `n` cycles the panel holds BUSY at `level`, and the synchroniser holds it already. -/
def busyHeld (level : Bool) (n : Nat) (s : State) : Prop :=
  s.busyS1 = level ∧ s.busySync = level ∧ (∀ b ∈ s.busyMid, b = level)
    ∧ ∀ k, k < n → ∃ i : Inputs, s.inputs[k]? = some i ∧ i.busy = level

/-! ### The host's duties (70_reset_and_hazards.md R240) -/

/-- The host keeps its duty for the running WRITE_FRAME: every byte of the buffer was written before the
acceptance, `buf k` being frame byte k, none since, and none in the next `n` scheduled cycles. -/
def bufferKept (buf : Nat → Byte) (n : Nat) (s : State) : Prop :=
  s.op = 4#4 → ∀ k, k < planeBytes s.cfg →
    (frameAddr s k).toNat ∉ s.contended ∧ Memory.read s.mem (frameAddr s k).toNat = some (buf k)
    ∧ ∀ j i, j < n → s.inputs[j]? = some i → ∀ w ∈ i.memWrites, w.1 ≠ frameAddr s k

/-! ### Transitions of the DriverState (42_sequencer.md R139) -/

/-- The event 'c accepted': a CMD write with ACTIVE = 0 that decodes to `c` and raises ACTIVE. -/
def acceptedAt (i : Inputs) (c : Instr) (s t : State) : Prop :=
  s.active = false ∧ i.regWe = true ∧ regAt i.regAddr = .cmd ∧ decodeHost i.regWdata = .ok c
    ∧ t.active = true

/-- The event 'the operation's micro-op is u': the edge runs `u`, not the abort. -/
def runsAt (i : Inputs) (u : MicroOp) (s : State) : Prop :=
  s.active = true ∧ i.hwFault = false ∧ microOp s = some u

/-- The table of R139, row by row and block reset left aside: `s` before the edge, `t` after it. The two
rows that keep STATE (END of RESET, and a refresh or WAIT_IDLE that timed out) are the first line's. -/
def transitionListed (i : Inputs) (s t : State) : Prop :=
  t.state = s.state
    ∨ (acceptedAt i .reset s t ∧ t.state = .resetting)
    ∨ (acceptedAt i .init s t ∧ t.state = .resetting)
    ∨ (runsAt i (.setState .initializing) s ∧ s.op = 2#4 ∧ s.state = .resetting ∧ t.state = .initializing)
    ∨ (runsAt i (.finish .idle .failed) s ∧ s.op = 2#4 ∧ s.state = .initializing ∧ t.active = false
        ∧ s.timedOut = false ∧ t.state = .idle)
    ∨ (runsAt i (.finish .idle .failed) s ∧ s.op = 2#4 ∧ s.state = .initializing ∧ t.active = false
        ∧ s.timedOut = true ∧ t.state = .failed)
    ∨ ((acceptedAt i .clear s t ∨ acceptedAt i .writeFrame s t) ∧ s.state = .idle ∧ t.state = .transferring)
    ∨ (runsAt i (.setState .busy) s ∧ (s.op = 3#4 ∨ s.op = 4#4) ∧ s.state = .transferring ∧ t.state = .busy)
    ∨ (acceptedAt i .waitIdle s t ∧ (s.state = .idle ∨ s.state = .busy) ∧ t.state = .busy)
    ∨ (runsAt i (.finish .idle .busy) s ∧ (s.op = 3#4 ∨ s.op = 4#4 ∨ s.op = 5#4) ∧ s.state = .busy
        ∧ t.active = false ∧ s.timedOut = false ∧ t.state = .idle)
    ∨ (s.active = true ∧ i.hwFault = true ∧ t.active = false ∧ t.state = .failed)

end Machine
end Sys2Proof
end

