-- ==== Sys2Proof/Certificates/Slice0/Obligations.lean ====
section
/-! DEFINITION. The statements for the provers. -/

open Sys2Proof Sys2Proof.Machine

/-! ### Encoding -/

/-- 30_encoding.md R93 and the tables of R81 and R88: words written out from the spec. -/
def Obligations.WrittenOutWordsDecode : Prop :=
  decodeHost 0x00000001#32 = .ok .reset ∧ decodeHost 0x00000002#32 = .ok .init
    ∧ decodeHost 0x00000003#32 = .ok .clear ∧ decodeHost 0x00000004#32 = .ok .writeFrame
    ∧ decodeHost 0x00000005#32 = .ok .waitIdle
    ∧ decodeHost 0x00000010#32 = .error (.reservedBits 0x0#4)
    ∧ decodeHost 0x00000016#32 = .error (.reservedBits 0x6#4)
    ∧ decodeHost 0x80000001#32 = .error (.reservedBits 0x1#4)
    ∧ decodeFrame 0b000010010#9 = .ok .cSwreset
    ∧ decodeFrame 0b111111111#9 = .ok (.dData 0xFF#8)
    ∧ decodeFrame 0b000010000#9 = .ok .cWriteBwPlane ∧ decodeFrame 0b000010011#9 = .ok .cWriteRedPlane
    ∧ decodeFrame 0b000100100#9 = .ok .cWriteRam ∧ decodeFrame 0b000100000#9 = .ok .cActivateUpdate
    ∧ decodeFrame 0b001000100#9 = .ok .cRamXWindow ∧ decodeFrame 0b001001111#9 = .ok .cRamYCounter

/-- Decode and encode agree, for every instruction and every payload. The refresh trigger, which shares
its word with the software reset, is told by the running command (log 7). -/
def Obligations.DecodeOfEncodeIsTheInstruction : Prop :=
  ∀ i : Instr, i.wellFormed = true →
    (∀ w, encode i = .hostCmd w → decodeHost w = .ok i)
    ∧ (∀ f, encode i = .spiFrame f → decodeFrameIn (runningOp i) f = .ok i)
    ∧ (i ≠ .cRefresh → decode (encode i) = .ok i)
    ∧ (i = .cRefresh → decode (encode i) = .ok .cSwreset)

/-- A pattern that decodes is the encoding of what it decodes to: no bit is dropped. -/
def Obligations.EncodeOfDecodeIsTheWord : Prop :=
  (∀ (e : Encoding) (i : Instr), decode e = .ok i → encode i = e)
  ∧ ∀ (op : BitVec 4) (f : FrameBits) (i : Instr), decodeFrameIn op f = .ok i → encode i = .spiFrame f

/-- 30_encoding.md R83: legal = (w[31:4] == 0) and (op in 1..5); the decoder is total, and what it answers
is one of the five commands, the one of its OP. -/
def Obligations.HostWordLegalIffReservedZeroAndKnownOp : Prop :=
  ∀ w : Word,
    ((∃ i, decodeHost w = .ok i) ↔
      (w.extractLsb' 4 28 = 0#28 ∧ 1 ≤ (w.extractLsb' 0 4).toNat ∧ (w.extractLsb' 0 4).toNat ≤ 5))
    ∧ (∀ i, decodeHost w = .ok i →
        (i = .reset ∧ w.extractLsb' 0 4 = 1#4) ∨ (i = .init ∧ w.extractLsb' 0 4 = 2#4)
        ∨ (i = .clear ∧ w.extractLsb' 0 4 = 3#4) ∨ (i = .writeFrame ∧ w.extractLsb' 0 4 = 4#4)
        ∨ (i = .waitIdle ∧ w.extractLsb' 0 4 = 5#4))
    ∧ (w.extractLsb' 4 28 ≠ 0#28 → decodeHost w = .error (.reservedBits (w.extractLsb' 0 4)))
    ∧ (w.extractLsb' 4 28 = 0#28 → ¬ (1 ≤ (w.extractLsb' 0 4).toNat ∧ (w.extractLsb' 0 4).toNat ≤ 5) →
        decodeHost w = .error (.reservedOp (w.extractLsb' 0 4)))

/-- A frame with DC = 1 is a data frame whatever its byte (30_encoding.md R85). With DC = 0 the bytes of the
opcode map have a row (R88); that the decoder reports any other byte by name is the model's own choice
(log 8): the spec sends it like the rest (R89), and so does a step (StepRunsTheDecodedFrame). -/
def Obligations.FrameDecodesIffDataOrListedOpcode : Prop :=
  ∀ f : FrameBits,
    (f.getLsbD 8 = true → decodeFrame f = .ok (.dData (f.extractLsb' 0 8)))
    ∧ (f.getLsbD 8 = false →
        ((∃ i, decodeFrame f = .ok i) ↔
          (f.extractLsb' 0 8).toNat ∈ [0x01, 0x10, 0x11, 0x12, 0x13, 0x20, 0x21, 0x24, 0x3C, 0x44, 0x45, 0x4E, 0x4F])
        ∧ ((f.extractLsb' 0 8).toNat ∉ [0x01, 0x10, 0x11, 0x12, 0x13, 0x20, 0x21, 0x24, 0x3C, 0x44, 0x45, 0x4E, 0x4F] →
          decodeFrame f = .error (.unlistedOpcode (f.extractLsb' 0 8))))

/-! ### Host commands -/

/-- 42_sequencer.md R131: accept(op) of RESET, INIT, CLEAR, WRITE_FRAME and WAIT_IDLE where they are
accepted. The list of overlapping host writes is the model's own (log 4): nothing is said of it. -/
def Obligations.AcceptedCommandStartsItsOperation : Prop :=
  ∀ (i : Instr) (w : Word) (s : State), encode i = .hostCmd w → s.active = false →
    (i = .reset ∨ i = .init ∨ (i = .clear ∧ s.state = .idle)
      ∨ (i = .writeFrame ∧ s.state = .idle ∧ s.frameLen.toNat = s.cfg.width * s.cfg.height / 8)
      ∨ (i = .waitIdle ∧ (s.state = .idle ∨ s.state = .busy))) →
    ∃ t, exec i s = .next t ∧ t =
      { s with
        active := true, op := w.extractLsb' 0 4, opTimeout := s.timeoutMs, opBase := s.frameBase
        upc := 0, cnt := 0, timedOut := false, result := .none
        state := if i = .reset ∨ i = .init then .resetting
                 else if i = .clear ∨ i = .writeFrame then .transferring else .busy
        lastOp := w.extractLsb' 0 4, dropped := false, contended := t.contended }

/-- 42_sequencer.md R133: a legal command is rejected exactly where the acceptance table says R, whatever
the length register holds, and then changes three fields. -/
def Obligations.CommandRejectedOutsideItsStates : Prop :=
  ∀ (i : Instr) (w : Word) (s : State), encode i = .hostCmd w → s.active = false →
    ((∃ t, exec i s = .next t ∧ t.result = .cmdRejected) ↔
      (((i = .clear ∨ i = .writeFrame) ∧ s.state ≠ .idle)
        ∨ (i = .waitIdle ∧ s.state ≠ .idle ∧ s.state ≠ .busy)))
    ∧ (((i = .clear ∨ i = .writeFrame) ∧ s.state ≠ .idle)
        ∨ (i = .waitIdle ∧ s.state ≠ .idle ∧ s.state ≠ .busy) →
      exec i s = .next { s with lastOp := w.extractLsb' 0 4, dropped := false, result := .cmdRejected })

/-- 44_frame.md R176: a WRITE_FRAME of another length than L = WIDTH·HEIGHT/8 (00_scope.md R7) is refused
at its CMD edge. -/
def Obligations.WrongFrameLengthRefused : Prop :=
  ∀ s : State, s.active = false → s.state = .idle → s.frameLen.toNat ≠ s.cfg.width * s.cfg.height / 8 →
    exec .writeFrame s = .next { s with lastOp := 4#4, dropped := false, result := .frameSizeMismatch }

/-- 42_sequencer.md R132: while an operation runs, every CMD word, legal or not, is dropped. -/
def Obligations.CommandDroppedWhileActive : Prop :=
  ∀ s : State, s.active = true →
    (∀ w : Word, cmdWrite w s = .next { s with dropped := true })
    ∧ ∀ (i : Instr) (w : Word), encode i = .hostCmd w → exec i s = .next { s with dropped := true }

/-- 30_encoding.md R84: an illegal word with ACTIVE = 0 records RESULT and LAST_OP, clears DROPPED and
changes nothing else of the block; with ACTIVE = 1 it is dropped. The rest of the edge is the
synchroniser's and the surroundings'. -/
def Obligations.IllegalWordOnlyReports : Prop :=
  ∀ (w : Word) (s : State),
    (w.extractLsb' 4 28 ≠ 0#28 ∨ (w.extractLsb' 0 4).toNat = 0 ∨ 5 < (w.extractLsb' 0 4).toNat) →
    (s.active = false → cmdWrite w s =
      .next { s with lastOp := w.extractLsb' 0 4, dropped := false, result := .illegalCmd })
    ∧ (s.active = true → cmdWrite w s = .next { s with dropped := true })
    ∧ (s.active = false → s.input.rstN = true → s.input.regWe = true →
        s.input.regAddr.extractLsb' 2 4 = 0#4 → s.input.regWdata = w →
        step s = .next (surroundings s.input false (synchronise s.input.busy
          { s with lastOp := w.extractLsb' 0 4, dropped := false, result := .illegalCmd })))

/-- The frame of the five host commands: what none of them changes (R131, R201). Memory is read byte
by byte. -/
def Obligations.HostCommandsKeepPinsRegistersAndMemory : Prop :=
  ∀ (i : Instr) (w : Word) (s t : State), encode i = .hostCmd w → exec i s = .next t →
    t.cfg = s.cfg ∧ t.sh = s.sh ∧ t.elapsed = s.elapsed
    ∧ t.busyS1 = s.busyS1 ∧ t.busyMid = s.busyMid ∧ t.busySync = s.busySync
    ∧ t.timeoutMs = s.timeoutMs ∧ t.frameBase = s.frameBase ∧ t.frameLen = s.frameLen
    ∧ t.pinRst = s.pinRst ∧ t.pinDc = s.pinDc ∧ t.pinCs = s.pinCs ∧ t.pinSclk = s.pinSclk
    ∧ t.pinMosi = s.pinMosi ∧ t.inputs = s.inputs ∧ t.cycle = s.cycle
    ∧ (∀ a, Memory.read t.mem a = Memory.read s.mem a)
    ∧ (t.active = s.active →
        t.state = s.state ∧ t.op = s.op ∧ t.opTimeout = s.opTimeout ∧ t.opBase = s.opBase
        ∧ t.upc = s.upc ∧ t.cnt = s.cnt ∧ t.timedOut = s.timedOut ∧ t.contended = s.contended)

/-- 60_exceptions.md R201: a refused command changes RESULT, LAST_OP and DROPPED only. -/
def Obligations.RefusedCommandsArePrecise : Prop :=
  ∀ (w : Word) (s t : State), s.active = false → cmdWrite w s = .next t → t.active = false →
    t = { s with result := t.result, lastOp := w.extractLsb' 0 4, dropped := false }
    ∧ (t.result = .illegalCmd ∨ t.result = .cmdRejected ∨ t.result = .frameSizeMismatch)

/-! ### SPI frames: the BYTE micro-op -/

/-- 40_adapter.md R106: the fetch edge loads st.sh and moves no pin, for the fifteen SPI frames of the
table (C_SWRESET to C_ACTIVATE_UPDATE, and D_DATA with every payload). -/
def Obligations.FrameFetchEdgeLoadsTheByte : Prop :=
  ∀ (i : Instr) (f : FrameBits) (s : State), encode i = .spiFrame f → s.cfg.wf = true → s.cnt = 0 →
    exec i s = .next { s with sh := f.extractLsb' 0 8, cnt := 1 }

/-- 40_adapter.md R107: the slot table, for the fifteen SPI frames of the table; the last edge ends the
BYTE. -/
def Obligations.FrameSlotEdgesDriveThePins : Prop :=
  ∀ (i : Instr) (f : FrameBits) (s : State) (n : Nat), encode i = .spiFrame f → s.cfg.wf = true →
    n < 20 → s.cnt = 1 + n * halfPeriod s.cfg →
    exec i s = .next
      { s with
        pinDc := if n = 0 then f.getLsbD 8 else s.pinDc
        pinMosi := if n = 0 then s.sh.getLsbD 7
                   else if 3 ≤ n ∧ n ≤ 15 ∧ n % 2 = 1 then s.sh.getLsbD (6 - (n - 3) / 2) else s.pinMosi
        pinCs := if n = 1 then false else if n = 18 then true else s.pinCs
        pinSclk := if 2 ≤ n ∧ n ≤ 16 ∧ n % 2 = 0 then true
                   else if 3 ≤ n ∧ n ≤ 17 ∧ n % 2 = 1 then false else s.pinSclk
        upc := if s.cnt = 20 * halfPeriod s.cfg then s.upc + 1 else s.upc
        cnt := if s.cnt = 20 * halfPeriod s.cfg then 0 else s.cnt + 1 }

/-- 40_adapter.md R105: only the first edge of a slot acts. -/
def Obligations.FrameEdgesInsideASlotOnlyCount : Prop :=
  ∀ (i : Instr) (f : FrameBits) (s : State), encode i = .spiFrame f → s.cfg.wf = true →
    1 ≤ s.cnt → s.cnt ≤ 20 * halfPeriod s.cfg → (s.cnt - 1) % halfPeriod s.cfg ≠ 0 →
    exec i s = .next
      { s with
        upc := if s.cnt = 20 * halfPeriod s.cfg then s.upc + 1 else s.upc
        cnt := if s.cnt = 20 * halfPeriod s.cfg then 0 else s.cnt + 1 }

/-- The frame of the fifteen SPI frames (R104: state written st.sh, DC, CS, SCLK, MOSI). -/
def Obligations.FramesWriteOnlyShiftByteAndBusPins : Prop :=
  ∀ (i : Instr) (f : FrameBits) (s t : State), encode i = .spiFrame f → exec i s = .next t →
    t = { s with sh := t.sh, pinDc := t.pinDc, pinCs := t.pinCs, pinSclk := t.pinSclk
                 pinMosi := t.pinMosi, upc := t.upc, cnt := t.cnt }
    ∧ ∀ a, Memory.read t.mem a = Memory.read s.mem a

/-- 40_adapter.md R109, 41_transport.md R120: over its 1 + 20·H edges a BYTE sends exactly one complete
frame, its DC level and its eight bits as the source gives them, whatever the host writes meanwhile.
The receiver samples on the rising SCLK edge (log 15). -/
def Obligations.OneByteIsOneCompleteFrame : Prop :=
  ∀ (s : State) (r : Receiver) (dc : Bool) (src : ByteSrc), SeqInv s → pinsOk s = true →
    s.active = true → microOp s = some (.byte dc src) → s.cnt = 0 → calmFor (1 + 20 * halfPeriod s.cfg) s →
    ∃ t q, observe (1 + 20 * halfPeriod s.cfg) s r = some (t, q)
      ∧ q.frames = mkFrame dc (sourceByte s.input s src) :: r.frames
      ∧ t.upc = s.upc + 1 ∧ t.cnt = 0 ∧ t.pinCs = true ∧ t.pinSclk = false ∧ t.pinDc = dc
      ∧ t.pinMosi = (sourceByte s.input s src).getLsbD 0

/-! ### The other micro-ops -/

/-- 40_adapter.md R102. -/
def Obligations.SetRstDrivesRstInOneEdge : Prop :=
  ∀ (i : Inputs) (s : State) (v : Bool), i.hwFault = false → microOp s = some (.setRst v) → s.cnt = 0 →
    enginePhase i s = .next { s with pinRst := v, upc := s.upc + 1, cnt := 0 }

/-- 40_adapter.md R103: DELAY(t) lasts t·C edges, which change nothing but the sequencer's counters. -/
def Obligations.DelayCountsItsEdges : Prop :=
  ∀ (i : Inputs) (s : State) (ms : Nat), i.hwFault = false → microOp s = some (.delay ms) →
    s.cnt < ms * (s.cfg.clkHz / 1000) →
    enginePhase i s = .next
      { s with
        upc := if s.cnt = ms * (s.cfg.clkHz / 1000) - 1 then s.upc + 1 else s.upc
        cnt := if s.cnt = ms * (s.cfg.clkHz / 1000) - 1 then 0 else s.cnt + 1 }

/-- 42_sequencer.md R137 and R138. -/
def Obligations.SetStateAndEndTakeOneEdge : Prop :=
  (∀ (i : Inputs) (s : State) (d : DriverState), i.hwFault = false → microOp s = some (.setState d) →
    s.cnt = 0 → enginePhase i s = .next { s with state := d, upc := s.upc + 1, cnt := 0 })
  ∧ ∀ (i : Inputs) (s : State) (sOk sTo : DriverState), i.hwFault = false →
    microOp s = some (.finish sOk sTo) →
    enginePhase i s = .next
      { s with
        state := if s.timedOut = true then sTo else sOk
        result := if s.timedOut = true then .busyTimeout else .ok
        active := false, upc := 0, cnt := 0 }

/-- 45_busy_wait.md R186 and R188: start edge, sample edges (idle before timeout), other edges. The poll
interval is POLL_MS of 00_scope.md R7. That the rules' 10 reads so in a build of another POLL_MS is the
model's reading (log 22). -/
def Obligations.WaitSamplesAndEnds : Prop :=
  ∀ (i : Inputs) (s : State), i.hwFault = false → microOp s = some .wait →
    (s.cnt = 0 → enginePhase i s = .next { s with elapsed := 0#33, cnt := 1 })
    ∧ (∀ m, 1 ≤ m → s.cfg.wf = true → s.cnt = s.cfg.pollMs * (s.cfg.clkHz / 1000) * m →
        (s.busySync ≠ s.cfg.busyActiveLevel →
          enginePhase i s = .next
            { s with elapsed := BitVec.ofNat 33 (s.cfg.pollMs * m), upc := s.upc + 1, cnt := 0 })
        ∧ (s.busySync = s.cfg.busyActiveLevel → s.opTimeout.toNat ≤ s.cfg.pollMs * m →
          enginePhase i s = .next
            { s with elapsed := BitVec.ofNat 33 (s.cfg.pollMs * m), timedOut := true
                     upc := (program s.cfg s.op).length - 1, cnt := 0 })
        ∧ (s.busySync = s.cfg.busyActiveLevel → s.cfg.pollMs * m < s.opTimeout.toNat →
          enginePhase i s = .next
            { s with elapsed := BitVec.ofNat 33 (s.cfg.pollMs * m), cnt := s.cnt + 1 }))
    ∧ (0 < s.cnt → s.cnt % (s.cfg.pollMs * (s.cfg.clkHz / 1000)) ≠ 0 →
        enginePhase i s = .next { s with cnt := s.cnt + 1 })

/-! ### One edge -/

/-- A step runs the decoded host command: with ACTIVE = 0 the edge is the command's meaning, then the
synchroniser and the surroundings; with ACTIVE = 1 the engine runs after it, on the same edge (log 18). -/
def Obligations.StepRunsTheDecodedHostCommand : Prop :=
  ∀ (s : State) (c : Instr), s.input.rstN = true → s.input.regWe = true →
    s.input.regAddr.extractLsb' 2 4 = 0#4 → decodeHost s.input.regWdata = .ok c →
    (s.active = false →
      step s = andThen (exec c s) (fun t =>
        .next (surroundings s.input (writeFrameActive t) (synchronise s.input.busy t))))
    ∧ (s.active = true →
      step s = andThen (exec c s) (fun t => andThen (enginePhase s.input t) (fun u =>
        .next (surroundings s.input (writeFrameActive s || writeFrameActive u)
          (synchronise s.input.busy u)))))

/-- A step runs the decoded SPI frame: where the sequencer stands in a BYTE and neither reset, fault nor
a register write comes in, the edge is the frame's meaning, then the synchroniser and the surroundings.
A command byte that no row names is sent by the same edge (30_encoding.md R89; log 8). -/
def Obligations.StepRunsTheDecodedFrame : Prop :=
  ∀ (s : State) (dc : Bool) (src : ByteSrc), s.input.rstN = true → s.input.hwFault = false →
    s.input.regWe = false → s.active = true → microOp s = some (.byte dc src) →
    (∀ c, decodeFrameIn s.op (mkFrame dc (sourceByte s.input s src)) = .ok c →
      step s = andThen (exec c s) (fun t =>
        .next (surroundings s.input (writeFrameActive s || writeFrameActive t)
          (synchronise s.input.busy t))))
    ∧ (∀ e, decodeFrameIn s.op (mkFrame dc (sourceByte s.input s src)) = .error e →
      step s = .next (surroundings s.input
        (writeFrameActive s || writeFrameActive (byteEdge dc (sourceByte s.input s src) s))
        (synchronise s.input.busy (byteEdge dc (sourceByte s.input s src) s))))

/-- 70_reset_and_hazards.md R230: whatever the state and the other inputs, RST_N = 0 gives the reset
state of 10_state.md R46, whatever operation ran. That the middle stages of a synchroniser of more than two
stages reset to 0 too is the model's reading (log 22). -/
def Obligations.BlockResetWinsOverEverything : Prop :=
  ∀ s : State, s.input.rstN = false → ∃ t, step s = .next t
    ∧ t.state = .uninitialized ∧ t.active = false ∧ t.op = 0#4 ∧ t.opTimeout = 0#32 ∧ t.opBase = 0#32
    ∧ t.upc = 0 ∧ t.cnt = 0 ∧ t.sh = 0#8 ∧ t.elapsed = 0#33 ∧ t.timedOut = false ∧ t.result = .none
    ∧ t.lastOp = 0#4 ∧ t.dropped = false ∧ t.busyS1 = false ∧ (∀ b ∈ t.busyMid, b = false) ∧ t.busySync = false
    ∧ t.timeoutMs = s.cfg.defaultTimeoutMs ∧ t.frameBase = 0#32 ∧ t.frameLen = 0#32
    ∧ t.pinRst = true ∧ t.pinDc = false ∧ t.pinCs = true ∧ t.pinSclk = false ∧ t.pinMosi = false

/-- 10_state.md R46: the reset state of every build, and of the machine `State.reset` shows. That the middle
stages of a synchroniser of more than two stages reset to 0 too is the model's reading (log 22). -/
def Obligations.ResetStateIsTheSpecs : Prop :=
  (∀ r : State, (r = State.reset ∨ ∃ c, r = State.resetOf c) →
    r.state = .uninitialized ∧ r.active = false ∧ r.op = 0#4 ∧ r.opTimeout = 0#32
    ∧ r.opBase = 0#32 ∧ r.upc = 0 ∧ r.cnt = 0 ∧ r.sh = 0#8 ∧ r.elapsed = 0#33 ∧ r.timedOut = false
    ∧ r.result = .none ∧ r.lastOp = 0#4 ∧ r.dropped = false ∧ r.busyS1 = false
    ∧ (∀ b ∈ r.busyMid, b = false) ∧ r.busySync = false
    ∧ r.timeoutMs = r.cfg.defaultTimeoutMs ∧ r.frameBase = 0#32 ∧ r.frameLen = 0#32 ∧ r.pinRst = true
    ∧ r.pinDc = false ∧ r.pinCs = true ∧ r.pinSclk = false ∧ r.pinMosi = false)
  ∧ State.reset.timeoutMs = 20000#32

/-- 60_exceptions.md R205: the abort, whatever micro-op it pre-empts and whatever the bus does. -/
def Obligations.HardwareFaultAborts : Prop :=
  ∀ s : State, s.input.rstN = true → s.active = true → s.input.hwFault = true → ∃ t, step s = .next t
    ∧ t.active = false ∧ t.state = .failed ∧ t.result = .hardwareFault ∧ t.pinCs = true
    ∧ t.pinSclk = false ∧ t.upc = 0 ∧ t.cnt = 0 ∧ t.pinRst = s.pinRst ∧ t.pinDc = s.pinDc
    ∧ t.pinMosi = s.pinMosi ∧ t.elapsed = s.elapsed ∧ t.timedOut = s.timedOut ∧ t.sh = s.sh
    ∧ t.op = s.op ∧ t.opTimeout = s.opTimeout ∧ t.opBase = s.opBase ∧ t.lastOp = s.lastOp

/-- 60_exceptions.md R204: HW_FAULT is ignored while st.active = 0, the accepting edge included. -/
def Obligations.HardwareFaultIgnoredWhileInactive : Prop :=
  ∀ (i : Inputs) (s : State) (b : Bool), s.active = false →
    clockEdge { i with hwFault := b } s = clockEdge i s

/-- 20_memory.md R61: which writes store, at any ACTIVE, which have no effect, and that a CMD write is a
host command. -/
def Obligations.RegisterWritesStoreTheWholeWord : Prop :=
  (∀ s t : State, s.input.rstN = true → step s = .next t →
    t.timeoutMs = (if s.input.regWe = true ∧ s.input.regAddr.extractLsb' 2 4 = 2#4
      then s.input.regWdata else s.timeoutMs)
    ∧ t.frameBase = (if s.input.regWe = true ∧ s.input.regAddr.extractLsb' 2 4 = 3#4
      then s.input.regWdata else s.frameBase)
    ∧ t.frameLen = (if s.input.regWe = true ∧ s.input.regAddr.extractLsb' 2 4 = 4#4
      then s.input.regWdata else s.frameLen))
  ∧ ∀ (i : Inputs) (s : State),
    ((i.regAddr.extractLsb' 2 4 = 1#4 ∨ 5 ≤ (i.regAddr.extractLsb' 2 4).toNat) →
      clockEdge i s = clockEdge { i with regWe := false } s)
    ∧ (i.regWe = true → i.regAddr.extractLsb' 2 4 = 0#4 → busPhase i s = cmdWrite i.regWdata s)

/-- 20_memory.md R62: what every offset of the window reads, bits [1:0] ignored. GEOMETRY and FRAME_BYTES
read the build's WIDTH, HEIGHT and L (10_state.md R28, R29), which R7 sets to 296, 128 and 4736. That a
value too wide for its field is cut to the field's low bits is the model's choice (log 24). -/
def Obligations.RegisterReadsFollowTheMap : Prop :=
  ∀ (n : BitVec 4) (lo : BitVec 2) (s : State),
    (regRdata (n ++ lo) s =
      if n = 0#4 then 0#32 else if n = 1#4 then statusWord s else if n = 2#4 then s.timeoutMs
      else if n = 3#4 then s.frameBase else if n = 4#4 then s.frameLen
      else if n = 5#4 then BitVec.ofNat 16 s.cfg.height ++ BitVec.ofNat 16 s.cfg.width
      else if n = 6#4 then BitVec.ofNat 32 (s.cfg.width * s.cfg.height / 8)
      else if n = 7#4 then BitVec.ofNat 32 (min s.elapsed.toNat 0xFFFFFFFF) else 0#32)
    ∧ (s.cfg.width = 296 → s.cfg.height = 128 →
        (n = 5#4 → regRdata (n ++ lo) s = 0x00800128#32) ∧ (n = 6#4 → regRdata (n ++ lo) s = 0x00001280#32))

/-- 10_state.md R23: the fields of STATUS, hardwired to the state they report, the numbers STATE and
RESULT read, and that a write to STATUS is ignored. -/
def Obligations.StatusFieldsReportTheState : Prop :=
  (∀ s : State,
    (statusWord s).extractLsb' 0 3 = stateCode s.state ∧ (statusWord s).getLsbD 3 = s.active
    ∧ (statusWord s).getLsbD 4 = s.busySync ∧ (statusWord s).getLsbD 5 = s.dropped
    ∧ (statusWord s).getLsbD 6 = (s.busySync == s.cfg.busyActiveLevel)
    ∧ (statusWord s).getLsbD 7 = false ∧ (statusWord s).extractLsb' 8 3 = resultCode s.result
    ∧ (statusWord s).extractLsb' 11 5 = 0#5 ∧ (statusWord s).extractLsb' 16 4 = s.lastOp
    ∧ (statusWord s).extractLsb' 20 12 = 0#12)
  ∧ (stateCode .uninitialized = 0#3 ∧ stateCode .resetting = 1#3 ∧ stateCode .initializing = 2#3
    ∧ stateCode .idle = 3#3 ∧ stateCode .busy = 4#3 ∧ stateCode .transferring = 5#3
    ∧ stateCode .failed = 6#3)
  ∧ (resultCode .none = 0#3 ∧ resultCode .ok = 1#3 ∧ resultCode .busyTimeout = 2#3
    ∧ resultCode .frameSizeMismatch = 3#3 ∧ resultCode .hardwareFault = 4#3
    ∧ resultCode .cmdRejected = 5#3 ∧ resultCode .illegalCmd = 6#3)
  ∧ ∀ (i : Inputs) (s : State), i.regAddr.extractLsb' 2 4 = 1#4 →
      clockEdge i s = clockEdge { i with regWe := false } s

/-- 20_memory.md R63: a write is visible to the next cycle's read; an accepted command shows ACTIVE = 1,
its state and RESULT = NONE there, and a refused one its RESULT. -/
def Obligations.ReadAfterWriteSeesTheWrite : Prop :=
  ∀ s t : State, s.input.rstN = true → s.input.regWe = true → step s = .next t →
    (s.input.regAddr.extractLsb' 2 4 = 2#4 → regRdata 0x08#6 t = s.input.regWdata)
    ∧ (s.input.regAddr.extractLsb' 2 4 = 3#4 → regRdata 0x0C#6 t = s.input.regWdata)
    ∧ (s.input.regAddr.extractLsb' 2 4 = 4#4 → regRdata 0x10#6 t = s.input.regWdata)
    ∧ (s.input.regAddr.extractLsb' 2 4 = 0#4 → s.active = false →
        ∃ x, cmdWrite s.input.regWdata s = .next x
          ∧ (regRdata 0x04#6 t).extractLsb' 0 3 = stateCode x.state
          ∧ (regRdata 0x04#6 t).getLsbD 3 = x.active
          ∧ (regRdata 0x04#6 t).extractLsb' 8 3 = resultCode x.result
          ∧ (regRdata 0x04#6 t).extractLsb' 16 4 = s.input.regWdata.extractLsb' 0 4
          ∧ (x.active = true → x.result = .none)
          ∧ (x.active = false →
              x.result = .illegalCmd ∨ x.result = .cmdRejected ∨ x.result = .frameSizeMismatch))

/-- 10_state.md R44: at every edge outside block reset each stage of the synchroniser takes the pre-edge
level of the one before it; with the two stages of 00_scope.md R7, st.busy_sync takes st.busy_s1. A chain
of more stages is the model's reading (log 22). -/
def Obligations.BusyPassesTwoStages : Prop :=
  ∀ s t : State, s.input.rstN = true → step s = .next t →
    t.busyS1 = s.input.busy ∧ t.busyMid ++ [t.busySync] = s.busyS1 :: s.busyMid
    ∧ (SeqInv s → s.cfg.syncStages = 2 → t.busySync = s.busyS1)

/-- 20_memory.md R66, R67 and 10_state.md R41: the fetch edge of frame byte k reads one byte at
(st.op_base + k) mod 2^ADDR_W, wrap-around included, and moves no pin, where the host keeps its duty.
ADDR_W is 32 in 00_scope.md R7. That the rules' 2^32 reads as 2^ADDR_W in another build is the model's
reading (log 22). -/
def Obligations.FrameByteIsReadFromTheBuffer : Prop :=
  ∀ (s : State) (k : Nat) (b : Byte), s.input.rstN = true → s.input.hwFault = false → s.active = true →
    s.cfg.wf = true → s.cnt = 0 → microOp s = some (.byte true (.frame k)) →
    (s.opBase.toNat + k) % 2 ^ s.cfg.addrW ∉ s.contended →
    (∀ w ∈ s.input.memWrites, w.1.toNat ≠ (s.opBase.toNat + k) % 2 ^ s.cfg.addrW) →
    Memory.read s.mem ((s.opBase.toNat + k) % 2 ^ s.cfg.addrW) = some b →
    fbRd s = true ∧ (fbAddr s).toNat = (s.opBase.toNat + k) % 2 ^ s.cfg.addrW
    ∧ ∃ t, step s = .next t ∧ t.sh = b ∧ pins t = pins s ∧ t.upc = s.upc ∧ t.cnt = 1

/-- 10_state.md R41: FB_RD = 1 exactly in the fetch cycles, with FB_ADDR = (st.op_base + k) mod 2^32 for the
ADDR_W = 32 of 00_scope.md R7, and FB_ADDR = 0 outside them. That R41's 2^32 reads as 2^ADDR_W in a build
of another ADDR_W is the model's reading (log 22). -/
def Obligations.FramePortReadsOnlyInFetchCycles : Prop :=
  ∀ s : State,
    (fbRd s = true ↔ s.active = true ∧ s.cnt = 0 ∧ ∃ k, microOp s = some (.byte true (.frame k)))
    ∧ (∀ k, s.active = true → s.cnt = 0 → microOp s = some (.byte true (.frame k)) →
        (s.cfg.addrW ≤ 32 → (fbAddr s).toNat = (s.opBase.toNat + k) % 2 ^ s.cfg.addrW)
        ∧ (s.cfg.addrW = 32 → fbAddr s = s.opBase + BitVec.ofNat 32 k))
    ∧ (fbRd s = false → fbAddr s = 0#32)

/-- 60_exceptions.md R219: with st.active = 0 and no register write the block changes only its
synchroniser. -/
def Obligations.InactiveBlockChangesOnlyTheSynchroniser : Prop :=
  ∀ s : State, s.input.rstN = true → s.input.regWe = false → s.active = false →
    step s = .next (surroundings s.input false (synchronise s.input.busy s))

/-- 20_memory.md R71 and R79: the block never writes frame memory, and nothing changes the build, its
programs with it. That host writes land during block reset too is the model's reading (log 12). -/
def Obligations.OnlyTheHostWritesFrameMemory : Prop :=
  ∀ s t : State, step s = .next t →
    t.mem = Memory.writeAll s.mem s.input.memWrites ∧ t.cfg = s.cfg
    ∧ (∀ op, program t.cfg op = program s.cfg op)
    ∧ ∀ a, (∀ w ∈ s.input.memWrites, w.1.toNat ≠ a) → Memory.read t.mem a = Memory.read s.mem a

/-- 10_state.md R33: st.op, st.op_timeout and st.op_base are written only at an accepting edge, and there
take the command word's OP and the pre-edge registers. -/
def Obligations.OperandsAreLatchedAtAcceptance : Prop :=
  ∀ s t : State, s.input.rstN = true → step s = .next t →
    (s.active = false → t.active = true →
      t.op = s.input.regWdata.extractLsb' 0 4 ∧ t.opTimeout = s.timeoutMs ∧ t.opBase = s.frameBase)
    ∧ (s.active = true ∨ t.active = false →
      t.op = s.op ∧ t.opTimeout = s.opTimeout ∧ t.opBase = s.opBase)

/-- 10_state.md R25, 20_memory.md R61: what the host does on the register bus while an operation runs
reaches nothing but the three registers and DROPPED. -/
def Obligations.RunningOperationIgnoresTheBus : Prop :=
  ∀ (i : Inputs) (we : Bool) (a : BitVec 6) (w : Word) (s t u : State),
    i.rstN = true → s.active = true → clockEdge i s = .next t →
    clockEdge { i with regWe := we, regAddr := a, regWdata := w } s = .next u →
    u = { t with timeoutMs := u.timeoutMs, frameBase := u.frameBase, frameLen := u.frameLen
                 dropped := u.dropped }

/-- 41_transport.md R124, 40_adapter.md R102: RST moves only at a SETRST; DC, CS, SCLK and MOSI only in
a BYTE or at the abort. -/
def Obligations.PinsMoveOnlyByTheirMicroOps : Prop :=
  ∀ s t : State, s.input.rstN = true → step s = .next t →
    ((s.active = false ∨ s.input.hwFault = true ∨ ∀ v, microOp s ≠ some (.setRst v)) →
      t.pinRst = s.pinRst)
    ∧ ((s.active = false ∨ (s.input.hwFault = false ∧ ∀ dc src, microOp s ≠ some (.byte dc src))) →
      t.pinDc = s.pinDc ∧ t.pinCs = s.pinCs ∧ t.pinSclk = s.pinSclk ∧ t.pinMosi = s.pinMosi)

/-! ### Programs -/

/-- 42_sequencer.md R134, 44_frame.md R170 to R174, R177: P(CLEAR) and P(WRITE_FRAME) in full, for both
variants: the planes of exactly L = WIDTH·HEIGHT/8 data bytes, the refresh trigger, and only then
SETSTATE(Busy), the wait and END. So they send whole planes and the trigger. L is 4736 in R7's geometry. -/
def Obligations.FrameProgramsSendWholePlanes : Prop :=
  ∀ (c : Config) (buf : Nat → Byte) (n : Nat), n = c.width * c.height / 8 →
    (c.panelVariant = .threeColor →
      program c 3#4
        = [.byte false (.const 0x10#8)] ++ List.replicate n (.byte true (.const 0xFF#8))
          ++ [.byte false (.const 0x13#8)] ++ List.replicate n (.byte true (.const 0x00#8))
          ++ [.byte false (.const 0x12#8), .setState .busy, .wait, .finish .idle .busy]
      ∧ program c 4#4
        = [.byte false (.const 0x10#8)] ++ (List.range n).map (fun i => .byte true (.frame i))
          ++ [.byte false (.const 0x13#8)] ++ List.replicate n (.byte true (.const 0x00#8))
          ++ [.byte false (.const 0x12#8), .setState .busy, .wait, .finish .idle .busy]
      ∧ streamOf buf (program c 3#4)
        = cFrame 0x10#8 :: List.replicate n (dFrame 0xFF#8)
          ++ (cFrame 0x13#8 :: List.replicate n (dFrame 0x00#8)) ++ [cFrame 0x12#8]
      ∧ streamOf buf (program c 4#4)
        = cFrame 0x10#8 :: (List.range n).map (fun i => dFrame (buf i))
          ++ (cFrame 0x13#8 :: List.replicate n (dFrame 0x00#8)) ++ [cFrame 0x12#8])
    ∧ (c.panelVariant = .mono →
      program c 3#4
        = [.byte false (.const 0x24#8)] ++ List.replicate n (.byte true (.const 0xFF#8))
          ++ [.byte false (.const 0x20#8), .setState .busy, .wait, .finish .idle .busy]
      ∧ program c 4#4
        = [.byte false (.const 0x24#8)] ++ (List.range n).map (fun i => .byte true (.frame i))
          ++ [.byte false (.const 0x20#8), .setState .busy, .wait, .finish .idle .busy]
      ∧ streamOf buf (program c 3#4)
        = cFrame 0x24#8 :: List.replicate n (dFrame 0xFF#8) ++ [cFrame 0x20#8]
      ∧ streamOf buf (program c 4#4)
        = cFrame 0x24#8 :: (List.range n).map (fun i => dFrame (buf i)) ++ [cFrame 0x20#8])
    ∧ (c.sourceValues = true → n = 4736)

/-- 43_reset_init.md R153, R154, R156, 41_transport.md R125: INIT is the reset pulse, SETSTATE, C:12, the
wait, and then each entry's opcode and data in order, with nothing between and a settle delay between
entries only. So it sends C:12 and the entries' frames; RESET and WAIT_IDLE send nothing. -/
def Obligations.InitSendsItsTableInOrder : Prop :=
  ∀ (c : Config) (buf : Nat → Byte),
    program c 2#4
      = [.setRst true, .delay 10, .setRst false, .delay 10, .setRst true, .delay 10]
        ++ [.setState .initializing, .byte false (.const 0x12#8), .wait]
        ++ List.intercalate [.delay 5] (c.initTable.map fun e =>
            .byte false (.const e.opcode) :: e.data.map fun b => .byte true (.const b))
        ++ [.finish .idle .failed]
    ∧ streamOf buf (program c 2#4)
      = cFrame 0x12#8 :: c.initTable.flatMap (fun e => cFrame e.opcode :: e.data.map dFrame)
    ∧ streamOf buf (program c 1#4) = [] ∧ streamOf buf (program c 5#4) = []

/-- 30_encoding.md R88, R89: every frame a program emits and the decoder names is one the build can emit;
the default build emits no frame the decoder does not name. -/
def Obligations.BuildsEmitOnlyTheirFrames : Prop :=
  (∀ (c : Config) (op : BitVec 4) (buf : Nat → Byte) (f : FrameBits) (i : Instr),
    f ∈ streamOf buf (program c op) → decodeFrameIn op f = .ok i → i.inBuild c = true)
  ∧ ∀ (op : BitVec 4) (buf : Nat → Byte) (f : FrameBits),
    f ∈ streamOf buf (program Config.default op) → ∃ i, decodeFrameIn op f = .ok i

/-- 42_sequencer.md R134: every program ends with exactly one END, its last element, whose states are
Resetting on both ways for RESET, Idle or Failed for INIT, and Idle or Busy for the other three. -/
def Obligations.ProgramsEndInTheirOnlyEnd : Prop :=
  ∀ (c : Config) (op : BitVec 4), 1 ≤ op.toNat → op.toNat ≤ 5 →
    ∃ p : List MicroOp,
      program c op = p ++ [.finish (if op = 1#4 then .resetting else .idle)
        (if op = 1#4 then .resetting else if op = 2#4 then .failed else .busy)]
      ∧ ∀ u ∈ p, ∀ a b, u ≠ .finish a b

/-- 00_scope.md R7, R8: C cycles make a millisecond, and H is the least half-period that keeps SCLK at or
below SPI_HZ_MAX, exactly there where CLK_HZ is a multiple of 2·SPI_HZ_MAX. With R7's 4 MHz that is
H = ceil(CLK_HZ/8 000 000); with another target it is the model's reading (log 22). -/
def Obligations.DerivedClockTimes : Prop :=
  ∀ c : Config, c.wf = true →
    cyclesPerMs c * 1000 = c.clkHz ∧ 1 ≤ cyclesPerMs c ∧ 1 ≤ halfPeriod c
    ∧ c.clkHz ≤ c.spiHzMax * (2 * halfPeriod c)
    ∧ (∀ h, 1 ≤ h → c.clkHz ≤ c.spiHzMax * (2 * h) → halfPeriod c ≤ h)
    ∧ (c.clkHz % (2 * c.spiHzMax) = 0 → c.clkHz = c.spiHzMax * (2 * halfPeriod c))
    ∧ (c.spiHzMax = 4000000 → halfPeriod c = (c.clkHz + 7999999) / 8000000)

/-- 42_sequencer.md R140 and 70_reset_and_hazards.md R247: the edges of each program, with the WAIT taken
at its last sample M = max(1, ceil(T/POLL_MS)). With R7's values a plane has 4736 bytes and POLL_MS is 10;
in a build of other values the formula is the model's reading (log 22). -/
def Obligations.OperationBounds : Prop :=
  ∀ (c : Config) (t : Word), c.wf = true →
    let ms := c.clkHz / 1000
    let byte := 1 + 20 * halfPeriod c
    let wait := c.pollMs * ms * max 1 ((t.toNat + c.pollMs - 1) / c.pollMs)
    let n := c.width * c.height / 8
    opBound c 1#4 t = 30 * ms + 4
    ∧ (c.initTable = Config.defaultInitTable → opBound c 2#4 t = 6 + 55 * ms + 20 * byte + wait)
    ∧ (c.panelVariant = .threeColor →
        opBound c 3#4 t = (2 * n + 3) * byte + 3 + wait ∧ opBound c 4#4 t = (2 * n + 3) * byte + 3 + wait)
    ∧ (c.panelVariant = .mono →
        opBound c 3#4 t = (n + 2) * byte + 3 + wait ∧ opBound c 4#4 t = (n + 2) * byte + 3 + wait)
    ∧ opBound c 5#4 t = 2 + wait
    ∧ (c.sourceValues = true →
        2 * n + 3 = 9475 ∧ n + 2 = 4738 ∧ wait = 10 * ms * max 1 ((t.toNat + 9) / 10))

/-! ### Frame memory -/

/-- A read after a write gives the byte written, and every other address reads as before. -/
def Obligations.FrameMemoryReadAfterWrite : Prop :=
  ∀ (m : Memory) (a x : Nat) (b : Byte),
    Memory.read (Memory.write m a b) x = if x = a then some b else Memory.read m x

/-! ### Invariants and runs -/

/-- The invariants hold after block reset of every legal build. -/
def Obligations.ResetMeetsTheInvariants : Prop :=
  ∀ c : Config, c.wf = true → RunInv (State.resetOf c)

/-- Every step keeps a legal build, canonical frame memory, and a position inside the program. -/
def Obligations.EveryStepStaysInItsProgram : Prop :=
  ∀ s t : State, SeqInv s → step s = .next t → SeqInv t

/-- From a state of the base invariant a step never stops: no instruction, input or memory content faults
(10_state.md R42, 20_memory.md R67, R68). -/
def Obligations.NoStepStops : Prop :=
  ∀ s : State, SeqInv s → ∃ t, step s = .next t

/-- 40_adapter.md R109: at every edge the pins are the waveform of the BYTE the sequencer stands in, and
CS = 1, SCLK = 0 outside a BYTE. -/
def Obligations.EveryStepKeepsThePinWaveform : Prop :=
  ∀ s t : State, SeqInv s → pinsOk s = true → step s = .next t → pinsOk t = true

/-- 42_sequencer.md R133, R139: while an operation runs STATE is the one its program has reached, and
Initializing and Transferring never hold with ACTIVE = 0; RESULT is NONE while it runs, and with
ACTIVE = 0 only in Uninitialized. -/
def Obligations.EveryStepKeepsTheDriverState : Prop :=
  ∀ s t : State, SeqInv s → driverStateOk s = true → resultOk s = true → step s = .next t →
    driverStateOk t = true ∧ resultOk t = true

/-- 45_busy_wait.md R187, R189 and 60_exceptions.md R202: st.elapsed is POLL_MS times the number of samples
taken, and a wait that timed out leaves POLL_MS·max(1, ceil(T/POLL_MS)). That the rules' 10 reads as
POLL_MS (log 22), and the largest value, 4 294 967 300 with R7's 10 (log 19), are the model's readings. -/
def Obligations.EveryStepKeepsTheElapsedTime : Prop :=
  ∀ s t : State, SeqInv s → waitOk s = true → step s = .next t →
    waitOk t = true ∧ (s.cfg.pollMs = 10 → t.elapsed.toNat ≤ 4294967300)

/-- 42_sequencer.md R139: the DriverState transitions that can occur, each with its row's event, and
nothing else. -/
def Obligations.OnlyListedStateTransitionsOccur : Prop :=
  ∀ s t : State, SeqInv s → driverStateOk s = true → s.input.rstN = true → step s = .next t →
    transitionListed s.input s t

/-- 41_transport.md R123: DC does not change while CS is asserted; outside the abort SCLK is 0 at every
edge where CS changes, before and after it. -/
def Obligations.FramingHoldsAtEveryEdge : Prop :=
  ∀ s t : State, SeqInv s → pinsOk s = true → s.input.rstN = true → step s = .next t →
    (t.pinDc ≠ s.pinDc → s.pinCs = true ∧ t.pinCs = true)
    ∧ (t.pinCs ≠ s.pinCs → t.pinSclk = false ∧ (s.input.hwFault = false → s.pinSclk = false))

/-- 42_sequencer.md R135: where no WAIT ends, an edge brings a running operation exactly one edge nearer
to its end; where one ends, at least one. -/
def Obligations.EveryEdgeCountsDown : Prop :=
  ∀ s t : State, SeqInv s → s.active = true → s.input.rstN = true → s.input.hwFault = false →
    step s = .next t →
    remaining t < remaining s ∧ ((microOp s = some .wait → t.upc = s.upc) → remaining t + 1 = remaining s)

/-- 42_sequencer.md R140: whatever the inputs, a running operation ends within its bound, and no input
can hold the sequencer. The bound counts a WAIT as 1 + POLL_MS·C·M edges, M = max(1, ceil(T/POLL_MS)):
R140's own where POLL_MS is the 10 of 00_scope.md R7, the model's reading elsewhere (log 22). -/
def Obligations.EveryOperationEnds : Prop :=
  (∀ s : State, SeqInv s → s.active = true →
    ∃ k t, k ≤ remaining s ∧ Sys2Proof.core.run k s = .next t ∧ t.active = false)
  ∧ ∀ s : State, s.active = true → s.upc = 0 → s.cnt = 0 → remaining s = opBound s.cfg s.op s.opTimeout

/-- What a receiver on the SPI pins collects from an undisturbed operation: its program's whole stream
where it ends OK, and the frames before the WAIT where it times out (45_busy_wait.md R189). It ends in the
state its END gives (42_sequencer.md R134): CLEAR, WRITE_FRAME and WAIT_IDLE Idle or Busy, INIT Idle or
Failed, RESET Resetting. The newest frame stands first; `buf` is the buffer of a WRITE_FRAME, which the
host leaves alone. The receiver samples on the rising SCLK edge (log 15). -/
def Obligations.OperationsSendTheirStream : Prop :=
  ∀ (s : State) (r : Receiver) (buf : Nat → Byte), SeqInv s → pinsOk s = true → s.active = true →
    s.upc = 0 → s.cnt = 0 → s.timedOut = false → calmFor (remaining s) s →
    bufferKept buf (remaining s) s →
    ∃ k t q, k ≤ remaining s ∧ observe k s r = some (t, q) ∧ t.active = false
      ∧ ((t.result = .ok ∧ t.state = (if s.op = 1#4 then .resetting else .idle)
          ∧ q.frames = (streamOf buf (program s.cfg s.op)).reverse ++ r.frames)
        ∨ (t.result = .busyTimeout ∧ t.state = (if s.op = 2#4 then .failed else .busy) ∧ s.op ≠ 1#4
          ∧ q.frames
            = (streamOf buf ((program s.cfg s.op).takeWhile (fun u => u != .wait))).reverse ++ r.frames))

/-- 43_reset_init.md R150, R151: an accepted RESET, undisturbed, ends OK after exactly 30·C + 4 edges, and
RST is low exactly from edge 2 + 10·C to edge 3 + 20·C. -/
def Obligations.ResetPulsesRstAndEndsOk : Prop :=
  ∀ s : State, SeqInv s → s.active = true → s.op = 1#4 → s.upc = 0 → s.cnt = 0 → s.timedOut = false →
    calmFor (30 * (s.cfg.clkHz / 1000) + 4) s →
    (∃ t, Sys2Proof.core.run (30 * (s.cfg.clkHz / 1000) + 4) s = .next t
      ∧ t.active = false ∧ t.state = .resetting ∧ t.result = .ok)
    ∧ ∀ k, 1 ≤ k → k ≤ 30 * (s.cfg.clkHz / 1000) + 4 →
      ∃ u, Sys2Proof.core.run k s = .next u
        ∧ u.pinRst = !(decide (2 + 10 * (s.cfg.clkHz / 1000) ≤ k)
            && decide (k < 3 + 20 * (s.cfg.clkHz / 1000)))
        ∧ (k < 30 * (s.cfg.clkHz / 1000) + 4 → u.active = true)

/-- 45_busy_wait.md R189, R190: an accepted WAIT_IDLE, undisturbed. With P = POLL_MS (10 in R7) and BUSY
held at the idle level it ends Idle/OK after 2 + P·C edges; with BUSY held active it ends
Busy/BUSY_TIMEOUT after 2 + P·C·M edges, M = max(1, ceil(T/P)), with st.elapsed = P·M. Another P than 10
is the model's reading (log 22). -/
def Obligations.WaitIdleEndsByTheLevelHeld : Prop :=
  ∀ s : State, SeqInv s → s.active = true → s.op = 5#4 → s.upc = 0 → s.cnt = 0 → s.timedOut = false →
    (∀ level, level ≠ s.cfg.busyActiveLevel → calmFor (2 + s.cfg.pollMs * (s.cfg.clkHz / 1000)) s →
      busyHeld level (2 + s.cfg.pollMs * (s.cfg.clkHz / 1000)) s →
      ∃ t, Sys2Proof.core.run (2 + s.cfg.pollMs * (s.cfg.clkHz / 1000)) s = .next t
        ∧ t.active = false ∧ t.state = .idle ∧ t.result = .ok ∧ t.elapsed.toNat = s.cfg.pollMs)
    ∧ (∀ m, m = max 1 ((s.opTimeout.toNat + s.cfg.pollMs - 1) / s.cfg.pollMs) →
      calmFor (2 + s.cfg.pollMs * (s.cfg.clkHz / 1000) * m) s →
      busyHeld s.cfg.busyActiveLevel (2 + s.cfg.pollMs * (s.cfg.clkHz / 1000) * m) s →
      ∃ t, Sys2Proof.core.run (2 + s.cfg.pollMs * (s.cfg.clkHz / 1000) * m) s = .next t
        ∧ t.active = false ∧ t.state = .busy ∧ t.result = .busyTimeout
        ∧ t.elapsed.toNat = s.cfg.pollMs * m)

/-! ### The host's programs -/

/-- 30_encoding.md R90, R91 and 10_state.md R21: one cycle of a host program at a WR, an RD and an IDLE
line (begun, or under way), each register's offset; labels, IDLE 0 and the branches on a read value, which
take no cycle and go on after the line that holds their label; the word each command mnemonic writes; the
expansions of POLL, RUN, SETTIMEOUT and FRAME, whose L is 4736 in a build of R7's values. That of several
lines with one label a branch takes the first is the model's choice (log 16). -/
def Obligations.HostLinesDriveTheBus : Prop :=
  (∀ (i : Inputs) (s : State) (h : HostCtl) (r : HostReg) (v : Word) (rest : List HostLine),
    h.idle = 0 → h.rest = .wr r v :: rest →
    hostDrive i s h = ({ i with regWe := true, regAddr := regOffset r, regWdata := v }, { h with rest := rest }))
  ∧ (∀ (i : Inputs) (s : State) (h : HostCtl) (r : HostReg) (x : Nat) (rest : List HostLine),
    h.idle = 0 → h.rest = .rd r x :: rest →
    (hostDrive i s h).1 = { i with regWe := false, regAddr := regOffset r }
    ∧ (hostDrive i s h).2.rest = rest ∧ (hostDrive i s h).2.idle = 0
    ∧ hostVar (hostDrive i s h).2.vars x = readReg r s
    ∧ ∀ y, y ≠ x → hostVar (hostDrive i s h).2.vars y = hostVar h.vars y)
  ∧ (∀ (i : Inputs) (s : State) (h : HostCtl) (n : Nat) (rest : List HostLine),
    h.idle = 0 → h.rest = .idle n :: rest → 1 ≤ n →
    hostDrive i s h = ({ i with regWe := false }, { h with rest := rest, idle := n - 1 }))
  ∧ (∀ (i : Inputs) (s : State) (h : HostCtl), 0 < h.idle →
    hostDrive i s h = ({ i with regWe := false }, { h with idle := h.idle - 1 }))
  ∧ (∀ (prog : List HostLine) (fuel : Nat) (h : HostCtl) (l : Nat) (rest : List HostLine),
    (h.rest = .idle 0 :: rest → hostResolve prog (fuel + 1) h = hostResolve prog fuel { h with rest := rest })
    ∧ (h.rest = .label l :: rest →
      hostResolve prog (fuel + 1) h = hostResolve prog fuel { h with rest := rest }))
  ∧ (∀ (prog : List HostLine) (fuel : Nat) (h : HostCtl) (x bit l : Nat) (rest : List HostLine),
    (h.rest = .bnz x bit l :: rest →
      hostResolve prog (fuel + 1) h = hostResolve prog fuel
        { h with rest := if (hostVar h.vars x).getLsbD bit = true then seekLabel l prog else rest })
    ∧ (h.rest = .bz x bit l :: rest →
      hostResolve prog (fuel + 1) h = hostResolve prog fuel
        { h with rest := if (hostVar h.vars x).getLsbD bit = true then rest else seekLabel l prog }))
  ∧ (∀ (l : Nat) (pre rest : List HostLine), (∀ u ∈ pre, u ≠ .label l) →
    seekLabel l (pre ++ .label l :: rest) = rest)
  ∧ (regOffset .cmd = 0x00#6 ∧ regOffset .status = 0x04#6 ∧ regOffset .timeoutMs = 0x08#6
    ∧ regOffset .frameBase = 0x0C#6 ∧ regOffset .frameLen = 0x10#6 ∧ regOffset .geometry = 0x14#6
    ∧ regOffset .frameBytes = 0x18#6 ∧ regOffset .waitElapsedMs = 0x1C#6)
  ∧ hostMnemonic .reset = [.wr .cmd 1#32] ∧ hostMnemonic .init = [.wr .cmd 2#32]
  ∧ hostMnemonic .clear = [.wr .cmd 3#32] ∧ hostMnemonic .writeFrame = [.wr .cmd 4#32]
  ∧ hostMnemonic .waitIdle = [.wr .cmd 5#32]
  ∧ (∀ (x l : Nat), pollLines x l = [.label l, .rd .status x, .bnz x 3 l])
  ∧ (∀ (c : Instr) (x l : Nat), runLines c x l = hostMnemonic c ++ [.label l, .rd .status x, .bnz x 3 l])
  ∧ (∀ t : Word, setTimeoutLines t = [.wr .timeoutMs t])
  ∧ ∀ (c : Config) (base : Word), c.sourceValues = true →
    frameLines c base = [.wr .frameBase base, .wr .frameLen 4736#32]
end

