-- ==== Sys2Proof/Laws/Decode.lean ====
section
/-! SUPPORT. Lemmas about the two formats: fields of a frame, what decodes, and what each word means. -/

namespace Sys2Proof

@[simp] theorem frameDc_mkFrame (dc : Bool) (b : Byte) : frameDc (mkFrame dc b) = dc := by
  simp only [frameDc, mkFrame, BitVec.getLsbD_append]
  simp

@[simp] theorem frameB_mkFrame (dc : Bool) (b : Byte) : frameB (mkFrame dc b) = b := by
  apply BitVec.eq_of_getLsbD_eq
  intro i hi
  simp only [frameB, mkFrame, BitVec.getLsbD_extractLsb', BitVec.getLsbD_append]
  simp [hi]

theorem mkFrame_fields (f : FrameBits) : mkFrame (frameDc f) (frameB f) = f := by
  apply BitVec.eq_of_getLsbD_eq
  intro i hi
  simp only [frameB, frameDc, mkFrame, BitVec.getLsbD_extractLsb', BitVec.getLsbD_append]
  by_cases h : i < 8
  · simp [h]
  · obtain rfl : i = 8 := by omega
    simp

/-- Two frames with the same fields are the same. -/
theorem frame_ext {f g : FrameBits} (hd : frameDc f = frameDc g) (hb : frameB f = frameB g) : f = g := by
  rw [← mkFrame_fields f, ← mkFrame_fields g, hd, hb]

/-- What the opcode map answers is a command frame whose word is that opcode. -/
theorem encode_of_frameTable {b : Byte} {i : Instr} (h : frameTable.lookup b = some i) :
    encode i = .spiFrame (mkFrame false b) := by
  simp only [frameTable, List.lookup] at h
  repeat' split at h
  all_goals first
    | (rename_i hb; simp only [beq_iff_eq] at hb; subst hb; cases h; decide)
    | cases h

theorem encode_of_decodeFrame {f : FrameBits} {i : Instr} (h : decodeFrame f = .ok i) :
    encode i = .spiFrame f := by
  unfold decodeFrame at h
  split at h
  · rename_i hd
    cases h
    simp only [encode]
    rw [← mkFrame_fields f, hd]; simp
  · rename_i hd
    split at h
    · rename_i j hj
      cases h
      rw [encode_of_frameTable hj, ← mkFrame_fields f]
      simp only [Bool.not_eq_true] at hd
      simp [hd]
    · cases h

/-- The running command picks the name of 0x12, never the word. -/
theorem encode_of_decodeFrameIn {op : BitVec 4} {f : FrameBits} {i : Instr}
    (h : decodeFrameIn op f = .ok i) : encode i = .spiFrame f := by
  unfold decodeFrameIn at h
  split at h
  · rename_i hf
    cases h
    rw [hf.1]; rfl
  · exact encode_of_decodeFrame h

theorem hostWord_ext {w v : Word} (ho : hostOp w = hostOp v) (hr : hostRsvd w = hostRsvd v) : w = v := by
  ext i hi
  by_cases h : i < 4
  · have := congrArg (fun x : BitVec 4 => x.getLsbD i) ho
    simpa [hostOp, h, BitVec.getLsbD_eq_getElem, hi] using this
  · have := congrArg (fun x : BitVec 28 => x.getLsbD (i - 4)) hr
    have e : 4 + (i - 4) = i := by omega
    have e2 : i - 4 < 28 := by omega
    simpa [hostRsvd, e, e2, BitVec.getLsbD_eq_getElem, hi] using this

theorem encode_of_hostTable {w : Word} {i : Instr} (hr : hostRsvd w = 0#28)
    (h : hostTable.lookup (hostOp w) = some i) : encode i = .hostCmd w := by
  simp only [hostTable, List.lookup] at h
  repeat' split at h
  all_goals first
    | (rename_i hb
       simp only [beq_iff_eq] at hb
       cases h
       simp only [encode, Encoding.hostCmd.injEq]
       exact hostWord_ext (by rw [hb]; decide) (by rw [hr]; decide))
    | cases h

theorem encode_of_decodeHost {w : Word} {i : Instr} (h : decodeHost w = .ok i) : encode i = .hostCmd w := by
  unfold decodeHost at h
  split at h
  · rename_i hr
    split at h
    · rename_i j hj
      cases h
      exact encode_of_hostTable hr hj
    · cases h
  · cases h

/-- The five legal OP values (30_encoding.md R81). -/
theorem hostTable_lookup_isSome (op : BitVec 4) :
    (hostTable.lookup op).isSome = decide (1 ≤ op.toNat ∧ op.toNat ≤ 5) := by
  revert op; decide

/-- OP of a host command's word is 1 to 5, and RSVD is 0. -/
theorem hostCmd_fields {i : Instr} {w : Word} (h : encode i = .hostCmd w) :
    hostRsvd w = 0#28 ∧ 1 ≤ (hostOp w).toNat ∧ (hostOp w).toNat ≤ 5 := by
  cases i <;> cases h <;> decide

/-- Every opcode of the map is a byte of R88's list. -/
theorem decodeFrame_command (b : Byte) :
    decodeFrame (mkFrame false b)
      = match frameTable.lookup b with
        | some i => .ok i
        | none => .error (.unlistedOpcode b) := by
  simp only [decodeFrame, frameDc_mkFrame, frameB_mkFrame]; rfl

theorem decodeFrame_data (b : Byte) : decodeFrame (mkFrame true b) = .ok (.dData b) := by
  simp [decodeFrame]

theorem mkFrame_true_ne (b : Byte) : mkFrame true b ≠ 0x012#9 := by
  intro h
  have := congrArg frameDc h
  simp at this
  exact absurd this (by decide)

/-- A data frame decodes alike under every command. -/
@[simp] theorem decodeFrameIn_data (op : BitVec 4) (b : Byte) :
    decodeFrameIn op (mkFrame true b) = .ok (.dData b) := by
  simp [decodeFrameIn, mkFrame_true_ne, decodeFrame_data]

end Sys2Proof
end

