-- ==== Sys2Proof/Laws/State.lean ====
section
/-! SUPPORT. One lemma per field and shared operation: what it writes, what it leaves. No later proof
unfolds a record update. -/

namespace Sys2Proof
namespace Machine

/-! ### shiftStages -/

@[simp] theorem shiftStages_nil (b : Bool) : shiftStages b [] = ([], b) := rfl

/-- The stages after the first take the levels of the ones before them. -/
theorem shiftStages_chain (b : Bool) (l : List Bool) :
    (shiftStages b l).1 ++ [(shiftStages b l).2] = b :: l := by
  induction l generalizing b with
  | nil => rfl
  | cons m l ih => simp [shiftStages, ih]

@[simp] theorem shiftStages_length (b : Bool) (l : List Bool) : (shiftStages b l).1.length = l.length := by
  have := congrArg List.length (shiftStages_chain b l)
  simpa using this

/-- Stages that all hold one level keep it. -/
theorem shiftStages_level {b : Bool} {l : List Bool} (h : ∀ m ∈ l, m = b) :
    (∀ m ∈ (shiftStages b l).1, m = b) ∧ (shiftStages b l).2 = b := by
  have hall : ∀ m ∈ (shiftStages b l).1 ++ [(shiftStages b l).2], m = b := by
    rw [shiftStages_chain]
    simpa using h
  exact ⟨fun m hm => hall m (by simp [hm]), hall _ (by simp)⟩

/-! ### raise -/

@[simp] theorem raise_cfg (r : ResultCode) (s : State) : (raise r s).cfg = s.cfg := rfl
@[simp] theorem raise_state (r : ResultCode) (s : State) : (raise r s).state = s.state := rfl
@[simp] theorem raise_active (r : ResultCode) (s : State) : (raise r s).active = s.active := rfl
@[simp] theorem raise_op (r : ResultCode) (s : State) : (raise r s).op = s.op := rfl
@[simp] theorem raise_opTimeout (r : ResultCode) (s : State) : (raise r s).opTimeout = s.opTimeout := rfl
@[simp] theorem raise_opBase (r : ResultCode) (s : State) : (raise r s).opBase = s.opBase := rfl
@[simp] theorem raise_upc (r : ResultCode) (s : State) : (raise r s).upc = s.upc := rfl
@[simp] theorem raise_cnt (r : ResultCode) (s : State) : (raise r s).cnt = s.cnt := rfl
@[simp] theorem raise_sh (r : ResultCode) (s : State) : (raise r s).sh = s.sh := rfl
@[simp] theorem raise_elapsed (r : ResultCode) (s : State) : (raise r s).elapsed = s.elapsed := rfl
@[simp] theorem raise_timedOut (r : ResultCode) (s : State) : (raise r s).timedOut = s.timedOut := rfl
@[simp] theorem raise_result (r : ResultCode) (s : State) : (raise r s).result = r := rfl
@[simp] theorem raise_lastOp (r : ResultCode) (s : State) : (raise r s).lastOp = s.lastOp := rfl
@[simp] theorem raise_dropped (r : ResultCode) (s : State) : (raise r s).dropped = s.dropped := rfl
@[simp] theorem raise_busyS1 (r : ResultCode) (s : State) : (raise r s).busyS1 = s.busyS1 := rfl
@[simp] theorem raise_busyMid (r : ResultCode) (s : State) : (raise r s).busyMid = s.busyMid := rfl
@[simp] theorem raise_busySync (r : ResultCode) (s : State) : (raise r s).busySync = s.busySync := rfl
@[simp] theorem raise_timeoutMs (r : ResultCode) (s : State) : (raise r s).timeoutMs = s.timeoutMs := rfl
@[simp] theorem raise_frameBase (r : ResultCode) (s : State) : (raise r s).frameBase = s.frameBase := rfl
@[simp] theorem raise_frameLen (r : ResultCode) (s : State) : (raise r s).frameLen = s.frameLen := rfl
@[simp] theorem raise_pinRst (r : ResultCode) (s : State) : (raise r s).pinRst = s.pinRst := rfl
@[simp] theorem raise_pinDc (r : ResultCode) (s : State) : (raise r s).pinDc = s.pinDc := rfl
@[simp] theorem raise_pinCs (r : ResultCode) (s : State) : (raise r s).pinCs = s.pinCs := rfl
@[simp] theorem raise_pinSclk (r : ResultCode) (s : State) : (raise r s).pinSclk = s.pinSclk := rfl
@[simp] theorem raise_pinMosi (r : ResultCode) (s : State) : (raise r s).pinMosi = s.pinMosi := rfl
@[simp] theorem raise_mem (r : ResultCode) (s : State) : (raise r s).mem = s.mem := rfl
@[simp] theorem raise_contended (r : ResultCode) (s : State) : (raise r s).contended = s.contended := rfl
@[simp] theorem raise_inputs (r : ResultCode) (s : State) : (raise r s).inputs = s.inputs := rfl
@[simp] theorem raise_cycle (r : ResultCode) (s : State) : (raise r s).cycle = s.cycle := rfl

/-! ### dropCommand -/

@[simp] theorem dropCommand_cfg (s : State) : (dropCommand s).cfg = s.cfg := rfl
@[simp] theorem dropCommand_state (s : State) : (dropCommand s).state = s.state := rfl
@[simp] theorem dropCommand_active (s : State) : (dropCommand s).active = s.active := rfl
@[simp] theorem dropCommand_op (s : State) : (dropCommand s).op = s.op := rfl
@[simp] theorem dropCommand_opTimeout (s : State) : (dropCommand s).opTimeout = s.opTimeout := rfl
@[simp] theorem dropCommand_opBase (s : State) : (dropCommand s).opBase = s.opBase := rfl
@[simp] theorem dropCommand_upc (s : State) : (dropCommand s).upc = s.upc := rfl
@[simp] theorem dropCommand_cnt (s : State) : (dropCommand s).cnt = s.cnt := rfl
@[simp] theorem dropCommand_sh (s : State) : (dropCommand s).sh = s.sh := rfl
@[simp] theorem dropCommand_elapsed (s : State) : (dropCommand s).elapsed = s.elapsed := rfl
@[simp] theorem dropCommand_timedOut (s : State) : (dropCommand s).timedOut = s.timedOut := rfl
@[simp] theorem dropCommand_result (s : State) : (dropCommand s).result = s.result := rfl
@[simp] theorem dropCommand_lastOp (s : State) : (dropCommand s).lastOp = s.lastOp := rfl
@[simp] theorem dropCommand_dropped (s : State) : (dropCommand s).dropped = true := rfl
@[simp] theorem dropCommand_busyS1 (s : State) : (dropCommand s).busyS1 = s.busyS1 := rfl
@[simp] theorem dropCommand_busyMid (s : State) : (dropCommand s).busyMid = s.busyMid := rfl
@[simp] theorem dropCommand_busySync (s : State) : (dropCommand s).busySync = s.busySync := rfl
@[simp] theorem dropCommand_timeoutMs (s : State) : (dropCommand s).timeoutMs = s.timeoutMs := rfl
@[simp] theorem dropCommand_frameBase (s : State) : (dropCommand s).frameBase = s.frameBase := rfl
@[simp] theorem dropCommand_frameLen (s : State) : (dropCommand s).frameLen = s.frameLen := rfl
@[simp] theorem dropCommand_pinRst (s : State) : (dropCommand s).pinRst = s.pinRst := rfl
@[simp] theorem dropCommand_pinDc (s : State) : (dropCommand s).pinDc = s.pinDc := rfl
@[simp] theorem dropCommand_pinCs (s : State) : (dropCommand s).pinCs = s.pinCs := rfl
@[simp] theorem dropCommand_pinSclk (s : State) : (dropCommand s).pinSclk = s.pinSclk := rfl
@[simp] theorem dropCommand_pinMosi (s : State) : (dropCommand s).pinMosi = s.pinMosi := rfl
@[simp] theorem dropCommand_mem (s : State) : (dropCommand s).mem = s.mem := rfl
@[simp] theorem dropCommand_contended (s : State) : (dropCommand s).contended = s.contended := rfl
@[simp] theorem dropCommand_inputs (s : State) : (dropCommand s).inputs = s.inputs := rfl
@[simp] theorem dropCommand_cycle (s : State) : (dropCommand s).cycle = s.cycle := rfl

/-! ### recordCommand -/

@[simp] theorem recordCommand_cfg (op : BitVec 4) (s : State) : (recordCommand op s).cfg = s.cfg := rfl
@[simp] theorem recordCommand_state (op : BitVec 4) (s : State) : (recordCommand op s).state = s.state := rfl
@[simp] theorem recordCommand_active (op : BitVec 4) (s : State) : (recordCommand op s).active = s.active := rfl
@[simp] theorem recordCommand_op (op : BitVec 4) (s : State) : (recordCommand op s).op = s.op := rfl
@[simp] theorem recordCommand_opTimeout (op : BitVec 4) (s : State) : (recordCommand op s).opTimeout = s.opTimeout := rfl
@[simp] theorem recordCommand_opBase (op : BitVec 4) (s : State) : (recordCommand op s).opBase = s.opBase := rfl
@[simp] theorem recordCommand_upc (op : BitVec 4) (s : State) : (recordCommand op s).upc = s.upc := rfl
@[simp] theorem recordCommand_cnt (op : BitVec 4) (s : State) : (recordCommand op s).cnt = s.cnt := rfl
@[simp] theorem recordCommand_sh (op : BitVec 4) (s : State) : (recordCommand op s).sh = s.sh := rfl
@[simp] theorem recordCommand_elapsed (op : BitVec 4) (s : State) : (recordCommand op s).elapsed = s.elapsed := rfl
@[simp] theorem recordCommand_timedOut (op : BitVec 4) (s : State) : (recordCommand op s).timedOut = s.timedOut := rfl
@[simp] theorem recordCommand_result (op : BitVec 4) (s : State) : (recordCommand op s).result = s.result := rfl
@[simp] theorem recordCommand_lastOp (op : BitVec 4) (s : State) : (recordCommand op s).lastOp = op := rfl
@[simp] theorem recordCommand_dropped (op : BitVec 4) (s : State) : (recordCommand op s).dropped = false := rfl
@[simp] theorem recordCommand_busyS1 (op : BitVec 4) (s : State) : (recordCommand op s).busyS1 = s.busyS1 := rfl
@[simp] theorem recordCommand_busyMid (op : BitVec 4) (s : State) : (recordCommand op s).busyMid = s.busyMid := rfl
@[simp] theorem recordCommand_busySync (op : BitVec 4) (s : State) : (recordCommand op s).busySync = s.busySync := rfl
@[simp] theorem recordCommand_timeoutMs (op : BitVec 4) (s : State) : (recordCommand op s).timeoutMs = s.timeoutMs := rfl
@[simp] theorem recordCommand_frameBase (op : BitVec 4) (s : State) : (recordCommand op s).frameBase = s.frameBase := rfl
@[simp] theorem recordCommand_frameLen (op : BitVec 4) (s : State) : (recordCommand op s).frameLen = s.frameLen := rfl
@[simp] theorem recordCommand_pinRst (op : BitVec 4) (s : State) : (recordCommand op s).pinRst = s.pinRst := rfl
@[simp] theorem recordCommand_pinDc (op : BitVec 4) (s : State) : (recordCommand op s).pinDc = s.pinDc := rfl
@[simp] theorem recordCommand_pinCs (op : BitVec 4) (s : State) : (recordCommand op s).pinCs = s.pinCs := rfl
@[simp] theorem recordCommand_pinSclk (op : BitVec 4) (s : State) : (recordCommand op s).pinSclk = s.pinSclk := rfl
@[simp] theorem recordCommand_pinMosi (op : BitVec 4) (s : State) : (recordCommand op s).pinMosi = s.pinMosi := rfl
@[simp] theorem recordCommand_mem (op : BitVec 4) (s : State) : (recordCommand op s).mem = s.mem := rfl
@[simp] theorem recordCommand_contended (op : BitVec 4) (s : State) : (recordCommand op s).contended = s.contended := rfl
@[simp] theorem recordCommand_inputs (op : BitVec 4) (s : State) : (recordCommand op s).inputs = s.inputs := rfl
@[simp] theorem recordCommand_cycle (op : BitVec 4) (s : State) : (recordCommand op s).cycle = s.cycle := rfl

/-! ### accept -/

@[simp] theorem accept_cfg (op : BitVec 4) (s : State) : (accept op s).cfg = s.cfg := rfl
@[simp] theorem accept_state (op : BitVec 4) (s : State) : (accept op s).state = entryState op := rfl
@[simp] theorem accept_active (op : BitVec 4) (s : State) : (accept op s).active = true := rfl
@[simp] theorem accept_op (op : BitVec 4) (s : State) : (accept op s).op = op := rfl
@[simp] theorem accept_opTimeout (op : BitVec 4) (s : State) : (accept op s).opTimeout = s.timeoutMs := rfl
@[simp] theorem accept_opBase (op : BitVec 4) (s : State) : (accept op s).opBase = s.frameBase := rfl
@[simp] theorem accept_upc (op : BitVec 4) (s : State) : (accept op s).upc = 0 := rfl
@[simp] theorem accept_cnt (op : BitVec 4) (s : State) : (accept op s).cnt = 0 := rfl
@[simp] theorem accept_sh (op : BitVec 4) (s : State) : (accept op s).sh = s.sh := rfl
@[simp] theorem accept_elapsed (op : BitVec 4) (s : State) : (accept op s).elapsed = s.elapsed := rfl
@[simp] theorem accept_timedOut (op : BitVec 4) (s : State) : (accept op s).timedOut = false := rfl
@[simp] theorem accept_result (op : BitVec 4) (s : State) : (accept op s).result = .none := rfl
@[simp] theorem accept_lastOp (op : BitVec 4) (s : State) : (accept op s).lastOp = s.lastOp := rfl
@[simp] theorem accept_dropped (op : BitVec 4) (s : State) : (accept op s).dropped = s.dropped := rfl
@[simp] theorem accept_busyS1 (op : BitVec 4) (s : State) : (accept op s).busyS1 = s.busyS1 := rfl
@[simp] theorem accept_busyMid (op : BitVec 4) (s : State) : (accept op s).busyMid = s.busyMid := rfl
@[simp] theorem accept_busySync (op : BitVec 4) (s : State) : (accept op s).busySync = s.busySync := rfl
@[simp] theorem accept_timeoutMs (op : BitVec 4) (s : State) : (accept op s).timeoutMs = s.timeoutMs := rfl
@[simp] theorem accept_frameBase (op : BitVec 4) (s : State) : (accept op s).frameBase = s.frameBase := rfl
@[simp] theorem accept_frameLen (op : BitVec 4) (s : State) : (accept op s).frameLen = s.frameLen := rfl
@[simp] theorem accept_pinRst (op : BitVec 4) (s : State) : (accept op s).pinRst = s.pinRst := rfl
@[simp] theorem accept_pinDc (op : BitVec 4) (s : State) : (accept op s).pinDc = s.pinDc := rfl
@[simp] theorem accept_pinCs (op : BitVec 4) (s : State) : (accept op s).pinCs = s.pinCs := rfl
@[simp] theorem accept_pinSclk (op : BitVec 4) (s : State) : (accept op s).pinSclk = s.pinSclk := rfl
@[simp] theorem accept_pinMosi (op : BitVec 4) (s : State) : (accept op s).pinMosi = s.pinMosi := rfl
@[simp] theorem accept_mem (op : BitVec 4) (s : State) : (accept op s).mem = s.mem := rfl
@[simp] theorem accept_contended (op : BitVec 4) (s : State) : (accept op s).contended = [] := rfl
@[simp] theorem accept_inputs (op : BitVec 4) (s : State) : (accept op s).inputs = s.inputs := rfl
@[simp] theorem accept_cycle (op : BitVec 4) (s : State) : (accept op s).cycle = s.cycle := rfl

/-! ### abort -/

@[simp] theorem abort_cfg (s : State) : (abort s).cfg = s.cfg := rfl
@[simp] theorem abort_state (s : State) : (abort s).state = .failed := rfl
@[simp] theorem abort_active (s : State) : (abort s).active = false := rfl
@[simp] theorem abort_op (s : State) : (abort s).op = s.op := rfl
@[simp] theorem abort_opTimeout (s : State) : (abort s).opTimeout = s.opTimeout := rfl
@[simp] theorem abort_opBase (s : State) : (abort s).opBase = s.opBase := rfl
@[simp] theorem abort_upc (s : State) : (abort s).upc = 0 := rfl
@[simp] theorem abort_cnt (s : State) : (abort s).cnt = 0 := rfl
@[simp] theorem abort_sh (s : State) : (abort s).sh = s.sh := rfl
@[simp] theorem abort_elapsed (s : State) : (abort s).elapsed = s.elapsed := rfl
@[simp] theorem abort_timedOut (s : State) : (abort s).timedOut = s.timedOut := rfl
@[simp] theorem abort_result (s : State) : (abort s).result = .hardwareFault := rfl
@[simp] theorem abort_lastOp (s : State) : (abort s).lastOp = s.lastOp := rfl
@[simp] theorem abort_dropped (s : State) : (abort s).dropped = s.dropped := rfl
@[simp] theorem abort_busyS1 (s : State) : (abort s).busyS1 = s.busyS1 := rfl
@[simp] theorem abort_busyMid (s : State) : (abort s).busyMid = s.busyMid := rfl
@[simp] theorem abort_busySync (s : State) : (abort s).busySync = s.busySync := rfl
@[simp] theorem abort_timeoutMs (s : State) : (abort s).timeoutMs = s.timeoutMs := rfl
@[simp] theorem abort_frameBase (s : State) : (abort s).frameBase = s.frameBase := rfl
@[simp] theorem abort_frameLen (s : State) : (abort s).frameLen = s.frameLen := rfl
@[simp] theorem abort_pinRst (s : State) : (abort s).pinRst = s.pinRst := rfl
@[simp] theorem abort_pinDc (s : State) : (abort s).pinDc = s.pinDc := rfl
@[simp] theorem abort_pinCs (s : State) : (abort s).pinCs = true := rfl
@[simp] theorem abort_pinSclk (s : State) : (abort s).pinSclk = false := rfl
@[simp] theorem abort_pinMosi (s : State) : (abort s).pinMosi = s.pinMosi := rfl
@[simp] theorem abort_mem (s : State) : (abort s).mem = s.mem := rfl
@[simp] theorem abort_contended (s : State) : (abort s).contended = s.contended := rfl
@[simp] theorem abort_inputs (s : State) : (abort s).inputs = s.inputs := rfl
@[simp] theorem abort_cycle (s : State) : (abort s).cycle = s.cycle := rfl

/-! ### synchronise -/

@[simp] theorem synchronise_cfg (b : Bool) (s : State) : (synchronise b s).cfg = s.cfg := rfl
@[simp] theorem synchronise_state (b : Bool) (s : State) : (synchronise b s).state = s.state := rfl
@[simp] theorem synchronise_active (b : Bool) (s : State) : (synchronise b s).active = s.active := rfl
@[simp] theorem synchronise_op (b : Bool) (s : State) : (synchronise b s).op = s.op := rfl
@[simp] theorem synchronise_opTimeout (b : Bool) (s : State) : (synchronise b s).opTimeout = s.opTimeout := rfl
@[simp] theorem synchronise_opBase (b : Bool) (s : State) : (synchronise b s).opBase = s.opBase := rfl
@[simp] theorem synchronise_upc (b : Bool) (s : State) : (synchronise b s).upc = s.upc := rfl
@[simp] theorem synchronise_cnt (b : Bool) (s : State) : (synchronise b s).cnt = s.cnt := rfl
@[simp] theorem synchronise_sh (b : Bool) (s : State) : (synchronise b s).sh = s.sh := rfl
@[simp] theorem synchronise_elapsed (b : Bool) (s : State) : (synchronise b s).elapsed = s.elapsed := rfl
@[simp] theorem synchronise_timedOut (b : Bool) (s : State) : (synchronise b s).timedOut = s.timedOut := rfl
@[simp] theorem synchronise_result (b : Bool) (s : State) : (synchronise b s).result = s.result := rfl
@[simp] theorem synchronise_lastOp (b : Bool) (s : State) : (synchronise b s).lastOp = s.lastOp := rfl
@[simp] theorem synchronise_dropped (b : Bool) (s : State) : (synchronise b s).dropped = s.dropped := rfl
@[simp] theorem synchronise_busyS1 (b : Bool) (s : State) : (synchronise b s).busyS1 = b := rfl
@[simp] theorem synchronise_busyMid (b : Bool) (s : State) : (synchronise b s).busyMid = (shiftStages s.busyS1 s.busyMid).1 := rfl
@[simp] theorem synchronise_busySync (b : Bool) (s : State) : (synchronise b s).busySync = (shiftStages s.busyS1 s.busyMid).2 := rfl
@[simp] theorem synchronise_timeoutMs (b : Bool) (s : State) : (synchronise b s).timeoutMs = s.timeoutMs := rfl
@[simp] theorem synchronise_frameBase (b : Bool) (s : State) : (synchronise b s).frameBase = s.frameBase := rfl
@[simp] theorem synchronise_frameLen (b : Bool) (s : State) : (synchronise b s).frameLen = s.frameLen := rfl
@[simp] theorem synchronise_pinRst (b : Bool) (s : State) : (synchronise b s).pinRst = s.pinRst := rfl
@[simp] theorem synchronise_pinDc (b : Bool) (s : State) : (synchronise b s).pinDc = s.pinDc := rfl
@[simp] theorem synchronise_pinCs (b : Bool) (s : State) : (synchronise b s).pinCs = s.pinCs := rfl
@[simp] theorem synchronise_pinSclk (b : Bool) (s : State) : (synchronise b s).pinSclk = s.pinSclk := rfl
@[simp] theorem synchronise_pinMosi (b : Bool) (s : State) : (synchronise b s).pinMosi = s.pinMosi := rfl
@[simp] theorem synchronise_mem (b : Bool) (s : State) : (synchronise b s).mem = s.mem := rfl
@[simp] theorem synchronise_contended (b : Bool) (s : State) : (synchronise b s).contended = s.contended := rfl
@[simp] theorem synchronise_inputs (b : Bool) (s : State) : (synchronise b s).inputs = s.inputs := rfl
@[simp] theorem synchronise_cycle (b : Bool) (s : State) : (synchronise b s).cycle = s.cycle := rfl

/-! ### surroundings -/

@[simp] theorem surroundings_cfg (i : Inputs) (run : Bool) (s : State) : (surroundings i run s).cfg = s.cfg := rfl
@[simp] theorem surroundings_state (i : Inputs) (run : Bool) (s : State) : (surroundings i run s).state = s.state := rfl
@[simp] theorem surroundings_active (i : Inputs) (run : Bool) (s : State) : (surroundings i run s).active = s.active := rfl
@[simp] theorem surroundings_op (i : Inputs) (run : Bool) (s : State) : (surroundings i run s).op = s.op := rfl
@[simp] theorem surroundings_opTimeout (i : Inputs) (run : Bool) (s : State) : (surroundings i run s).opTimeout = s.opTimeout := rfl
@[simp] theorem surroundings_opBase (i : Inputs) (run : Bool) (s : State) : (surroundings i run s).opBase = s.opBase := rfl
@[simp] theorem surroundings_upc (i : Inputs) (run : Bool) (s : State) : (surroundings i run s).upc = s.upc := rfl
@[simp] theorem surroundings_cnt (i : Inputs) (run : Bool) (s : State) : (surroundings i run s).cnt = s.cnt := rfl
@[simp] theorem surroundings_sh (i : Inputs) (run : Bool) (s : State) : (surroundings i run s).sh = s.sh := rfl
@[simp] theorem surroundings_elapsed (i : Inputs) (run : Bool) (s : State) : (surroundings i run s).elapsed = s.elapsed := rfl
@[simp] theorem surroundings_timedOut (i : Inputs) (run : Bool) (s : State) : (surroundings i run s).timedOut = s.timedOut := rfl
@[simp] theorem surroundings_result (i : Inputs) (run : Bool) (s : State) : (surroundings i run s).result = s.result := rfl
@[simp] theorem surroundings_lastOp (i : Inputs) (run : Bool) (s : State) : (surroundings i run s).lastOp = s.lastOp := rfl
@[simp] theorem surroundings_dropped (i : Inputs) (run : Bool) (s : State) : (surroundings i run s).dropped = s.dropped := rfl
@[simp] theorem surroundings_busyS1 (i : Inputs) (run : Bool) (s : State) : (surroundings i run s).busyS1 = s.busyS1 := rfl
@[simp] theorem surroundings_busyMid (i : Inputs) (run : Bool) (s : State) : (surroundings i run s).busyMid = s.busyMid := rfl
@[simp] theorem surroundings_busySync (i : Inputs) (run : Bool) (s : State) : (surroundings i run s).busySync = s.busySync := rfl
@[simp] theorem surroundings_timeoutMs (i : Inputs) (run : Bool) (s : State) : (surroundings i run s).timeoutMs = s.timeoutMs := rfl
@[simp] theorem surroundings_frameBase (i : Inputs) (run : Bool) (s : State) : (surroundings i run s).frameBase = s.frameBase := rfl
@[simp] theorem surroundings_frameLen (i : Inputs) (run : Bool) (s : State) : (surroundings i run s).frameLen = s.frameLen := rfl
@[simp] theorem surroundings_pinRst (i : Inputs) (run : Bool) (s : State) : (surroundings i run s).pinRst = s.pinRst := rfl
@[simp] theorem surroundings_pinDc (i : Inputs) (run : Bool) (s : State) : (surroundings i run s).pinDc = s.pinDc := rfl
@[simp] theorem surroundings_pinCs (i : Inputs) (run : Bool) (s : State) : (surroundings i run s).pinCs = s.pinCs := rfl
@[simp] theorem surroundings_pinSclk (i : Inputs) (run : Bool) (s : State) : (surroundings i run s).pinSclk = s.pinSclk := rfl
@[simp] theorem surroundings_pinMosi (i : Inputs) (run : Bool) (s : State) : (surroundings i run s).pinMosi = s.pinMosi := rfl
@[simp] theorem surroundings_mem (i : Inputs) (run : Bool) (s : State) : (surroundings i run s).mem = Memory.writeAll s.mem i.memWrites := rfl
@[simp] theorem surroundings_contended (i : Inputs) (run : Bool) (s : State) : (surroundings i run s).contended = noteContended run i.memWrites s.contended := rfl
@[simp] theorem surroundings_inputs (i : Inputs) (run : Bool) (s : State) : (surroundings i run s).inputs = s.inputs.tail := rfl
@[simp] theorem surroundings_cycle (i : Inputs) (run : Bool) (s : State) : (surroundings i run s).cycle = s.cycle + 1 := rfl

/-! ### blockReset -/

@[simp] theorem blockReset_cfg (s : State) : (blockReset s).cfg = s.cfg := rfl
@[simp] theorem blockReset_state (s : State) : (blockReset s).state = .uninitialized := rfl
@[simp] theorem blockReset_active (s : State) : (blockReset s).active = false := rfl
@[simp] theorem blockReset_op (s : State) : (blockReset s).op = 0#4 := rfl
@[simp] theorem blockReset_opTimeout (s : State) : (blockReset s).opTimeout = 0#32 := rfl
@[simp] theorem blockReset_opBase (s : State) : (blockReset s).opBase = 0#32 := rfl
@[simp] theorem blockReset_upc (s : State) : (blockReset s).upc = 0 := rfl
@[simp] theorem blockReset_cnt (s : State) : (blockReset s).cnt = 0 := rfl
@[simp] theorem blockReset_sh (s : State) : (blockReset s).sh = 0#8 := rfl
@[simp] theorem blockReset_elapsed (s : State) : (blockReset s).elapsed = 0#33 := rfl
@[simp] theorem blockReset_timedOut (s : State) : (blockReset s).timedOut = false := rfl
@[simp] theorem blockReset_result (s : State) : (blockReset s).result = .none := rfl
@[simp] theorem blockReset_lastOp (s : State) : (blockReset s).lastOp = 0#4 := rfl
@[simp] theorem blockReset_dropped (s : State) : (blockReset s).dropped = false := rfl
@[simp] theorem blockReset_busyS1 (s : State) : (blockReset s).busyS1 = false := rfl
@[simp] theorem blockReset_busyMid (s : State) : (blockReset s).busyMid = List.replicate (s.cfg.syncStages - 2) false := rfl
@[simp] theorem blockReset_busySync (s : State) : (blockReset s).busySync = false := rfl
@[simp] theorem blockReset_timeoutMs (s : State) : (blockReset s).timeoutMs = s.cfg.defaultTimeoutMs := rfl
@[simp] theorem blockReset_frameBase (s : State) : (blockReset s).frameBase = 0#32 := rfl
@[simp] theorem blockReset_frameLen (s : State) : (blockReset s).frameLen = 0#32 := rfl
@[simp] theorem blockReset_pinRst (s : State) : (blockReset s).pinRst = true := rfl
@[simp] theorem blockReset_pinDc (s : State) : (blockReset s).pinDc = false := rfl
@[simp] theorem blockReset_pinCs (s : State) : (blockReset s).pinCs = true := rfl
@[simp] theorem blockReset_pinSclk (s : State) : (blockReset s).pinSclk = false := rfl
@[simp] theorem blockReset_pinMosi (s : State) : (blockReset s).pinMosi = false := rfl
@[simp] theorem blockReset_mem (s : State) : (blockReset s).mem = s.mem := rfl
@[simp] theorem blockReset_contended (s : State) : (blockReset s).contended = [] := rfl
@[simp] theorem blockReset_inputs (s : State) : (blockReset s).inputs = s.inputs := rfl
@[simp] theorem blockReset_cycle (s : State) : (blockReset s).cycle = s.cycle := rfl

/-! ### advance -/

@[simp] theorem advance_cfg (d : Nat) (s : State) : (advance d s).cfg = s.cfg := by
  unfold advance; split <;> rfl
@[simp] theorem advance_state (d : Nat) (s : State) : (advance d s).state = s.state := by
  unfold advance; split <;> rfl
@[simp] theorem advance_active (d : Nat) (s : State) : (advance d s).active = s.active := by
  unfold advance; split <;> rfl
@[simp] theorem advance_op (d : Nat) (s : State) : (advance d s).op = s.op := by
  unfold advance; split <;> rfl
@[simp] theorem advance_opTimeout (d : Nat) (s : State) : (advance d s).opTimeout = s.opTimeout := by
  unfold advance; split <;> rfl
@[simp] theorem advance_opBase (d : Nat) (s : State) : (advance d s).opBase = s.opBase := by
  unfold advance; split <;> rfl
@[simp] theorem advance_upc (d : Nat) (s : State) : (advance d s).upc = if s.cnt + 1 = d then s.upc + 1 else s.upc := by
  unfold advance; split <;> rfl
@[simp] theorem advance_cnt (d : Nat) (s : State) : (advance d s).cnt = if s.cnt + 1 = d then 0 else s.cnt + 1 := by
  unfold advance; split <;> rfl
@[simp] theorem advance_sh (d : Nat) (s : State) : (advance d s).sh = s.sh := by
  unfold advance; split <;> rfl
@[simp] theorem advance_elapsed (d : Nat) (s : State) : (advance d s).elapsed = s.elapsed := by
  unfold advance; split <;> rfl
@[simp] theorem advance_timedOut (d : Nat) (s : State) : (advance d s).timedOut = s.timedOut := by
  unfold advance; split <;> rfl
@[simp] theorem advance_result (d : Nat) (s : State) : (advance d s).result = s.result := by
  unfold advance; split <;> rfl
@[simp] theorem advance_lastOp (d : Nat) (s : State) : (advance d s).lastOp = s.lastOp := by
  unfold advance; split <;> rfl
@[simp] theorem advance_dropped (d : Nat) (s : State) : (advance d s).dropped = s.dropped := by
  unfold advance; split <;> rfl
@[simp] theorem advance_busyS1 (d : Nat) (s : State) : (advance d s).busyS1 = s.busyS1 := by
  unfold advance; split <;> rfl
@[simp] theorem advance_busyMid (d : Nat) (s : State) : (advance d s).busyMid = s.busyMid := by
  unfold advance; split <;> rfl
@[simp] theorem advance_busySync (d : Nat) (s : State) : (advance d s).busySync = s.busySync := by
  unfold advance; split <;> rfl
@[simp] theorem advance_timeoutMs (d : Nat) (s : State) : (advance d s).timeoutMs = s.timeoutMs := by
  unfold advance; split <;> rfl
@[simp] theorem advance_frameBase (d : Nat) (s : State) : (advance d s).frameBase = s.frameBase := by
  unfold advance; split <;> rfl
@[simp] theorem advance_frameLen (d : Nat) (s : State) : (advance d s).frameLen = s.frameLen := by
  unfold advance; split <;> rfl
@[simp] theorem advance_pinRst (d : Nat) (s : State) : (advance d s).pinRst = s.pinRst := by
  unfold advance; split <;> rfl
@[simp] theorem advance_pinDc (d : Nat) (s : State) : (advance d s).pinDc = s.pinDc := by
  unfold advance; split <;> rfl
@[simp] theorem advance_pinCs (d : Nat) (s : State) : (advance d s).pinCs = s.pinCs := by
  unfold advance; split <;> rfl
@[simp] theorem advance_pinSclk (d : Nat) (s : State) : (advance d s).pinSclk = s.pinSclk := by
  unfold advance; split <;> rfl
@[simp] theorem advance_pinMosi (d : Nat) (s : State) : (advance d s).pinMosi = s.pinMosi := by
  unfold advance; split <;> rfl
@[simp] theorem advance_mem (d : Nat) (s : State) : (advance d s).mem = s.mem := by
  unfold advance; split <;> rfl
@[simp] theorem advance_contended (d : Nat) (s : State) : (advance d s).contended = s.contended := by
  unfold advance; split <;> rfl
@[simp] theorem advance_inputs (d : Nat) (s : State) : (advance d s).inputs = s.inputs := by
  unfold advance; split <;> rfl
@[simp] theorem advance_cycle (d : Nat) (s : State) : (advance d s).cycle = s.cycle := by
  unfold advance; split <;> rfl

/-! ### writeReg: what it leaves -/

@[simp] theorem writeReg_cfg (r : HostReg) (w : Word) (s : State) : (writeReg r w s).cfg = s.cfg := by
  cases r <;> rfl
@[simp] theorem writeReg_state (r : HostReg) (w : Word) (s : State) : (writeReg r w s).state = s.state := by
  cases r <;> rfl
@[simp] theorem writeReg_active (r : HostReg) (w : Word) (s : State) : (writeReg r w s).active = s.active := by
  cases r <;> rfl
@[simp] theorem writeReg_op (r : HostReg) (w : Word) (s : State) : (writeReg r w s).op = s.op := by
  cases r <;> rfl
@[simp] theorem writeReg_opTimeout (r : HostReg) (w : Word) (s : State) : (writeReg r w s).opTimeout = s.opTimeout := by
  cases r <;> rfl
@[simp] theorem writeReg_opBase (r : HostReg) (w : Word) (s : State) : (writeReg r w s).opBase = s.opBase := by
  cases r <;> rfl
@[simp] theorem writeReg_upc (r : HostReg) (w : Word) (s : State) : (writeReg r w s).upc = s.upc := by
  cases r <;> rfl
@[simp] theorem writeReg_cnt (r : HostReg) (w : Word) (s : State) : (writeReg r w s).cnt = s.cnt := by
  cases r <;> rfl
@[simp] theorem writeReg_sh (r : HostReg) (w : Word) (s : State) : (writeReg r w s).sh = s.sh := by
  cases r <;> rfl
@[simp] theorem writeReg_elapsed (r : HostReg) (w : Word) (s : State) : (writeReg r w s).elapsed = s.elapsed := by
  cases r <;> rfl
@[simp] theorem writeReg_timedOut (r : HostReg) (w : Word) (s : State) : (writeReg r w s).timedOut = s.timedOut := by
  cases r <;> rfl
@[simp] theorem writeReg_result (r : HostReg) (w : Word) (s : State) : (writeReg r w s).result = s.result := by
  cases r <;> rfl
@[simp] theorem writeReg_lastOp (r : HostReg) (w : Word) (s : State) : (writeReg r w s).lastOp = s.lastOp := by
  cases r <;> rfl
@[simp] theorem writeReg_dropped (r : HostReg) (w : Word) (s : State) : (writeReg r w s).dropped = s.dropped := by
  cases r <;> rfl
@[simp] theorem writeReg_busyS1 (r : HostReg) (w : Word) (s : State) : (writeReg r w s).busyS1 = s.busyS1 := by
  cases r <;> rfl
@[simp] theorem writeReg_busyMid (r : HostReg) (w : Word) (s : State) : (writeReg r w s).busyMid = s.busyMid := by
  cases r <;> rfl
@[simp] theorem writeReg_busySync (r : HostReg) (w : Word) (s : State) : (writeReg r w s).busySync = s.busySync := by
  cases r <;> rfl
@[simp] theorem writeReg_pinRst (r : HostReg) (w : Word) (s : State) : (writeReg r w s).pinRst = s.pinRst := by
  cases r <;> rfl
@[simp] theorem writeReg_pinDc (r : HostReg) (w : Word) (s : State) : (writeReg r w s).pinDc = s.pinDc := by
  cases r <;> rfl
@[simp] theorem writeReg_pinCs (r : HostReg) (w : Word) (s : State) : (writeReg r w s).pinCs = s.pinCs := by
  cases r <;> rfl
@[simp] theorem writeReg_pinSclk (r : HostReg) (w : Word) (s : State) : (writeReg r w s).pinSclk = s.pinSclk := by
  cases r <;> rfl
@[simp] theorem writeReg_pinMosi (r : HostReg) (w : Word) (s : State) : (writeReg r w s).pinMosi = s.pinMosi := by
  cases r <;> rfl
@[simp] theorem writeReg_mem (r : HostReg) (w : Word) (s : State) : (writeReg r w s).mem = s.mem := by
  cases r <;> rfl
@[simp] theorem writeReg_contended (r : HostReg) (w : Word) (s : State) : (writeReg r w s).contended = s.contended := by
  cases r <;> rfl
@[simp] theorem writeReg_inputs (r : HostReg) (w : Word) (s : State) : (writeReg r w s).inputs = s.inputs := by
  cases r <;> rfl
@[simp] theorem writeReg_cycle (r : HostReg) (w : Word) (s : State) : (writeReg r w s).cycle = s.cycle := by
  cases r <;> rfl

/-! ### illegalCommand: what it leaves -/

@[simp] theorem illegalCommand_cfg (op : BitVec 4) (s : State) : (illegalCommand op s).cfg = s.cfg := by
  unfold illegalCommand; repeat' split
  all_goals rfl
@[simp] theorem illegalCommand_state (op : BitVec 4) (s : State) : (illegalCommand op s).state = s.state := by
  unfold illegalCommand; repeat' split
  all_goals rfl
@[simp] theorem illegalCommand_active (op : BitVec 4) (s : State) : (illegalCommand op s).active = s.active := by
  unfold illegalCommand; repeat' split
  all_goals rfl
@[simp] theorem illegalCommand_op (op : BitVec 4) (s : State) : (illegalCommand op s).op = s.op := by
  unfold illegalCommand; repeat' split
  all_goals rfl
@[simp] theorem illegalCommand_opTimeout (op : BitVec 4) (s : State) : (illegalCommand op s).opTimeout = s.opTimeout := by
  unfold illegalCommand; repeat' split
  all_goals rfl
@[simp] theorem illegalCommand_opBase (op : BitVec 4) (s : State) : (illegalCommand op s).opBase = s.opBase := by
  unfold illegalCommand; repeat' split
  all_goals rfl
@[simp] theorem illegalCommand_upc (op : BitVec 4) (s : State) : (illegalCommand op s).upc = s.upc := by
  unfold illegalCommand; repeat' split
  all_goals rfl
@[simp] theorem illegalCommand_cnt (op : BitVec 4) (s : State) : (illegalCommand op s).cnt = s.cnt := by
  unfold illegalCommand; repeat' split
  all_goals rfl
@[simp] theorem illegalCommand_sh (op : BitVec 4) (s : State) : (illegalCommand op s).sh = s.sh := by
  unfold illegalCommand; repeat' split
  all_goals rfl
@[simp] theorem illegalCommand_elapsed (op : BitVec 4) (s : State) : (illegalCommand op s).elapsed = s.elapsed := by
  unfold illegalCommand; repeat' split
  all_goals rfl
@[simp] theorem illegalCommand_timedOut (op : BitVec 4) (s : State) : (illegalCommand op s).timedOut = s.timedOut := by
  unfold illegalCommand; repeat' split
  all_goals rfl
@[simp] theorem illegalCommand_busyS1 (op : BitVec 4) (s : State) : (illegalCommand op s).busyS1 = s.busyS1 := by
  unfold illegalCommand; repeat' split
  all_goals rfl
@[simp] theorem illegalCommand_busyMid (op : BitVec 4) (s : State) : (illegalCommand op s).busyMid = s.busyMid := by
  unfold illegalCommand; repeat' split
  all_goals rfl
@[simp] theorem illegalCommand_busySync (op : BitVec 4) (s : State) : (illegalCommand op s).busySync = s.busySync := by
  unfold illegalCommand; repeat' split
  all_goals rfl
@[simp] theorem illegalCommand_timeoutMs (op : BitVec 4) (s : State) : (illegalCommand op s).timeoutMs = s.timeoutMs := by
  unfold illegalCommand; repeat' split
  all_goals rfl
@[simp] theorem illegalCommand_frameBase (op : BitVec 4) (s : State) : (illegalCommand op s).frameBase = s.frameBase := by
  unfold illegalCommand; repeat' split
  all_goals rfl
@[simp] theorem illegalCommand_frameLen (op : BitVec 4) (s : State) : (illegalCommand op s).frameLen = s.frameLen := by
  unfold illegalCommand; repeat' split
  all_goals rfl
@[simp] theorem illegalCommand_pinRst (op : BitVec 4) (s : State) : (illegalCommand op s).pinRst = s.pinRst := by
  unfold illegalCommand; repeat' split
  all_goals rfl
@[simp] theorem illegalCommand_pinDc (op : BitVec 4) (s : State) : (illegalCommand op s).pinDc = s.pinDc := by
  unfold illegalCommand; repeat' split
  all_goals rfl
@[simp] theorem illegalCommand_pinCs (op : BitVec 4) (s : State) : (illegalCommand op s).pinCs = s.pinCs := by
  unfold illegalCommand; repeat' split
  all_goals rfl
@[simp] theorem illegalCommand_pinSclk (op : BitVec 4) (s : State) : (illegalCommand op s).pinSclk = s.pinSclk := by
  unfold illegalCommand; repeat' split
  all_goals rfl
@[simp] theorem illegalCommand_pinMosi (op : BitVec 4) (s : State) : (illegalCommand op s).pinMosi = s.pinMosi := by
  unfold illegalCommand; repeat' split
  all_goals rfl
@[simp] theorem illegalCommand_mem (op : BitVec 4) (s : State) : (illegalCommand op s).mem = s.mem := by
  unfold illegalCommand; repeat' split
  all_goals rfl
@[simp] theorem illegalCommand_contended (op : BitVec 4) (s : State) : (illegalCommand op s).contended = s.contended := by
  unfold illegalCommand; repeat' split
  all_goals rfl
@[simp] theorem illegalCommand_inputs (op : BitVec 4) (s : State) : (illegalCommand op s).inputs = s.inputs := by
  unfold illegalCommand; repeat' split
  all_goals rfl
@[simp] theorem illegalCommand_cycle (op : BitVec 4) (s : State) : (illegalCommand op s).cycle = s.cycle := by
  unfold illegalCommand; repeat' split
  all_goals rfl

/-! ### hostCommand: what it leaves -/

@[simp] theorem hostCommand_cfg (op : BitVec 4) (s : State) : (hostCommand op s).cfg = s.cfg := by
  unfold hostCommand; repeat' split
  all_goals rfl
@[simp] theorem hostCommand_sh (op : BitVec 4) (s : State) : (hostCommand op s).sh = s.sh := by
  unfold hostCommand; repeat' split
  all_goals rfl
@[simp] theorem hostCommand_elapsed (op : BitVec 4) (s : State) : (hostCommand op s).elapsed = s.elapsed := by
  unfold hostCommand; repeat' split
  all_goals rfl
@[simp] theorem hostCommand_busyS1 (op : BitVec 4) (s : State) : (hostCommand op s).busyS1 = s.busyS1 := by
  unfold hostCommand; repeat' split
  all_goals rfl
@[simp] theorem hostCommand_busyMid (op : BitVec 4) (s : State) :
    (hostCommand op s).busyMid = s.busyMid := by
  unfold hostCommand; repeat' split
  all_goals rfl
@[simp] theorem hostCommand_busySync (op : BitVec 4) (s : State) :
    (hostCommand op s).busySync = s.busySync := by
  unfold hostCommand; repeat' split
  all_goals rfl
@[simp] theorem hostCommand_timeoutMs (op : BitVec 4) (s : State) :
    (hostCommand op s).timeoutMs = s.timeoutMs := by
  unfold hostCommand; repeat' split
  all_goals rfl
@[simp] theorem hostCommand_frameBase (op : BitVec 4) (s : State) :
    (hostCommand op s).frameBase = s.frameBase := by
  unfold hostCommand; repeat' split
  all_goals rfl
@[simp] theorem hostCommand_frameLen (op : BitVec 4) (s : State) :
    (hostCommand op s).frameLen = s.frameLen := by
  unfold hostCommand; repeat' split
  all_goals rfl
@[simp] theorem hostCommand_pinRst (op : BitVec 4) (s : State) : (hostCommand op s).pinRst = s.pinRst := by
  unfold hostCommand; repeat' split
  all_goals rfl
@[simp] theorem hostCommand_pinDc (op : BitVec 4) (s : State) : (hostCommand op s).pinDc = s.pinDc := by
  unfold hostCommand; repeat' split
  all_goals rfl
@[simp] theorem hostCommand_pinCs (op : BitVec 4) (s : State) : (hostCommand op s).pinCs = s.pinCs := by
  unfold hostCommand; repeat' split
  all_goals rfl
@[simp] theorem hostCommand_pinSclk (op : BitVec 4) (s : State) : (hostCommand op s).pinSclk = s.pinSclk := by
  unfold hostCommand; repeat' split
  all_goals rfl
@[simp] theorem hostCommand_pinMosi (op : BitVec 4) (s : State) : (hostCommand op s).pinMosi = s.pinMosi := by
  unfold hostCommand; repeat' split
  all_goals rfl
@[simp] theorem hostCommand_mem (op : BitVec 4) (s : State) : (hostCommand op s).mem = s.mem := by
  unfold hostCommand; repeat' split
  all_goals rfl
@[simp] theorem hostCommand_inputs (op : BitVec 4) (s : State) : (hostCommand op s).inputs = s.inputs := by
  unfold hostCommand; repeat' split
  all_goals rfl
@[simp] theorem hostCommand_cycle (op : BitVec 4) (s : State) : (hostCommand op s).cycle = s.cycle := by
  unfold hostCommand; repeat' split
  all_goals rfl

/-! ### byteSlot: what it leaves -/

@[simp] theorem byteSlot_cfg (dc : Bool) (n : Nat) (s : State) : (byteSlot dc n s).cfg = s.cfg := by
  unfold byteSlot; repeat' split
  all_goals rfl
@[simp] theorem byteSlot_state (dc : Bool) (n : Nat) (s : State) : (byteSlot dc n s).state = s.state := by
  unfold byteSlot; repeat' split
  all_goals rfl
@[simp] theorem byteSlot_active (dc : Bool) (n : Nat) (s : State) : (byteSlot dc n s).active = s.active := by
  unfold byteSlot; repeat' split
  all_goals rfl
@[simp] theorem byteSlot_op (dc : Bool) (n : Nat) (s : State) : (byteSlot dc n s).op = s.op := by
  unfold byteSlot; repeat' split
  all_goals rfl
@[simp] theorem byteSlot_opTimeout (dc : Bool) (n : Nat) (s : State) : (byteSlot dc n s).opTimeout = s.opTimeout := by
  unfold byteSlot; repeat' split
  all_goals rfl
@[simp] theorem byteSlot_opBase (dc : Bool) (n : Nat) (s : State) : (byteSlot dc n s).opBase = s.opBase := by
  unfold byteSlot; repeat' split
  all_goals rfl
@[simp] theorem byteSlot_upc (dc : Bool) (n : Nat) (s : State) : (byteSlot dc n s).upc = s.upc := by
  unfold byteSlot; repeat' split
  all_goals rfl
@[simp] theorem byteSlot_cnt (dc : Bool) (n : Nat) (s : State) : (byteSlot dc n s).cnt = s.cnt := by
  unfold byteSlot; repeat' split
  all_goals rfl
@[simp] theorem byteSlot_sh (dc : Bool) (n : Nat) (s : State) : (byteSlot dc n s).sh = s.sh := by
  unfold byteSlot; repeat' split
  all_goals rfl
@[simp] theorem byteSlot_elapsed (dc : Bool) (n : Nat) (s : State) : (byteSlot dc n s).elapsed = s.elapsed := by
  unfold byteSlot; repeat' split
  all_goals rfl
@[simp] theorem byteSlot_timedOut (dc : Bool) (n : Nat) (s : State) : (byteSlot dc n s).timedOut = s.timedOut := by
  unfold byteSlot; repeat' split
  all_goals rfl
@[simp] theorem byteSlot_result (dc : Bool) (n : Nat) (s : State) : (byteSlot dc n s).result = s.result := by
  unfold byteSlot; repeat' split
  all_goals rfl
@[simp] theorem byteSlot_lastOp (dc : Bool) (n : Nat) (s : State) : (byteSlot dc n s).lastOp = s.lastOp := by
  unfold byteSlot; repeat' split
  all_goals rfl
@[simp] theorem byteSlot_dropped (dc : Bool) (n : Nat) (s : State) : (byteSlot dc n s).dropped = s.dropped := by
  unfold byteSlot; repeat' split
  all_goals rfl
@[simp] theorem byteSlot_busyS1 (dc : Bool) (n : Nat) (s : State) : (byteSlot dc n s).busyS1 = s.busyS1 := by
  unfold byteSlot; repeat' split
  all_goals rfl
@[simp] theorem byteSlot_busyMid (dc : Bool) (n : Nat) (s : State) : (byteSlot dc n s).busyMid = s.busyMid := by
  unfold byteSlot; repeat' split
  all_goals rfl
@[simp] theorem byteSlot_busySync (dc : Bool) (n : Nat) (s : State) : (byteSlot dc n s).busySync = s.busySync := by
  unfold byteSlot; repeat' split
  all_goals rfl
@[simp] theorem byteSlot_timeoutMs (dc : Bool) (n : Nat) (s : State) : (byteSlot dc n s).timeoutMs = s.timeoutMs := by
  unfold byteSlot; repeat' split
  all_goals rfl
@[simp] theorem byteSlot_frameBase (dc : Bool) (n : Nat) (s : State) : (byteSlot dc n s).frameBase = s.frameBase := by
  unfold byteSlot; repeat' split
  all_goals rfl
@[simp] theorem byteSlot_frameLen (dc : Bool) (n : Nat) (s : State) : (byteSlot dc n s).frameLen = s.frameLen := by
  unfold byteSlot; repeat' split
  all_goals rfl
@[simp] theorem byteSlot_pinRst (dc : Bool) (n : Nat) (s : State) : (byteSlot dc n s).pinRst = s.pinRst := by
  unfold byteSlot; repeat' split
  all_goals rfl
@[simp] theorem byteSlot_mem (dc : Bool) (n : Nat) (s : State) : (byteSlot dc n s).mem = s.mem := by
  unfold byteSlot; repeat' split
  all_goals rfl
@[simp] theorem byteSlot_contended (dc : Bool) (n : Nat) (s : State) : (byteSlot dc n s).contended = s.contended := by
  unfold byteSlot; repeat' split
  all_goals rfl
@[simp] theorem byteSlot_inputs (dc : Bool) (n : Nat) (s : State) : (byteSlot dc n s).inputs = s.inputs := by
  unfold byteSlot; repeat' split
  all_goals rfl
@[simp] theorem byteSlot_cycle (dc : Bool) (n : Nat) (s : State) : (byteSlot dc n s).cycle = s.cycle := by
  unfold byteSlot; repeat' split
  all_goals rfl

/-! ### byteAction: what it leaves -/

@[simp] theorem byteAction_cfg (dc : Bool) (b : Byte) (s : State) : (byteAction dc b s).cfg = s.cfg := by
  unfold byteAction; repeat' split
  all_goals simp
@[simp] theorem byteAction_state (dc : Bool) (b : Byte) (s : State) : (byteAction dc b s).state = s.state := by
  unfold byteAction; repeat' split
  all_goals simp
@[simp] theorem byteAction_active (dc : Bool) (b : Byte) (s : State) : (byteAction dc b s).active = s.active := by
  unfold byteAction; repeat' split
  all_goals simp
@[simp] theorem byteAction_op (dc : Bool) (b : Byte) (s : State) : (byteAction dc b s).op = s.op := by
  unfold byteAction; repeat' split
  all_goals simp
@[simp] theorem byteAction_opTimeout (dc : Bool) (b : Byte) (s : State) : (byteAction dc b s).opTimeout = s.opTimeout := by
  unfold byteAction; repeat' split
  all_goals simp
@[simp] theorem byteAction_opBase (dc : Bool) (b : Byte) (s : State) : (byteAction dc b s).opBase = s.opBase := by
  unfold byteAction; repeat' split
  all_goals simp
@[simp] theorem byteAction_upc (dc : Bool) (b : Byte) (s : State) : (byteAction dc b s).upc = s.upc := by
  unfold byteAction; repeat' split
  all_goals simp
@[simp] theorem byteAction_cnt (dc : Bool) (b : Byte) (s : State) : (byteAction dc b s).cnt = s.cnt := by
  unfold byteAction; repeat' split
  all_goals simp
@[simp] theorem byteAction_elapsed (dc : Bool) (b : Byte) (s : State) : (byteAction dc b s).elapsed = s.elapsed := by
  unfold byteAction; repeat' split
  all_goals simp
@[simp] theorem byteAction_timedOut (dc : Bool) (b : Byte) (s : State) : (byteAction dc b s).timedOut = s.timedOut := by
  unfold byteAction; repeat' split
  all_goals simp
@[simp] theorem byteAction_result (dc : Bool) (b : Byte) (s : State) : (byteAction dc b s).result = s.result := by
  unfold byteAction; repeat' split
  all_goals simp
@[simp] theorem byteAction_lastOp (dc : Bool) (b : Byte) (s : State) : (byteAction dc b s).lastOp = s.lastOp := by
  unfold byteAction; repeat' split
  all_goals simp
@[simp] theorem byteAction_dropped (dc : Bool) (b : Byte) (s : State) : (byteAction dc b s).dropped = s.dropped := by
  unfold byteAction; repeat' split
  all_goals simp
@[simp] theorem byteAction_busyS1 (dc : Bool) (b : Byte) (s : State) : (byteAction dc b s).busyS1 = s.busyS1 := by
  unfold byteAction; repeat' split
  all_goals simp
@[simp] theorem byteAction_busyMid (dc : Bool) (b : Byte) (s : State) : (byteAction dc b s).busyMid = s.busyMid := by
  unfold byteAction; repeat' split
  all_goals simp
@[simp] theorem byteAction_busySync (dc : Bool) (b : Byte) (s : State) : (byteAction dc b s).busySync = s.busySync := by
  unfold byteAction; repeat' split
  all_goals simp
@[simp] theorem byteAction_timeoutMs (dc : Bool) (b : Byte) (s : State) : (byteAction dc b s).timeoutMs = s.timeoutMs := by
  unfold byteAction; repeat' split
  all_goals simp
@[simp] theorem byteAction_frameBase (dc : Bool) (b : Byte) (s : State) : (byteAction dc b s).frameBase = s.frameBase := by
  unfold byteAction; repeat' split
  all_goals simp
@[simp] theorem byteAction_frameLen (dc : Bool) (b : Byte) (s : State) : (byteAction dc b s).frameLen = s.frameLen := by
  unfold byteAction; repeat' split
  all_goals simp
@[simp] theorem byteAction_pinRst (dc : Bool) (b : Byte) (s : State) : (byteAction dc b s).pinRst = s.pinRst := by
  unfold byteAction; repeat' split
  all_goals simp
@[simp] theorem byteAction_mem (dc : Bool) (b : Byte) (s : State) : (byteAction dc b s).mem = s.mem := by
  unfold byteAction; repeat' split
  all_goals simp
@[simp] theorem byteAction_contended (dc : Bool) (b : Byte) (s : State) : (byteAction dc b s).contended = s.contended := by
  unfold byteAction; repeat' split
  all_goals simp
@[simp] theorem byteAction_inputs (dc : Bool) (b : Byte) (s : State) : (byteAction dc b s).inputs = s.inputs := by
  unfold byteAction; repeat' split
  all_goals simp
@[simp] theorem byteAction_cycle (dc : Bool) (b : Byte) (s : State) : (byteAction dc b s).cycle = s.cycle := by
  unfold byteAction; repeat' split
  all_goals simp

/-! ### byteEdge: what it leaves -/

@[simp] theorem byteEdge_cfg (dc : Bool) (b : Byte) (s : State) : (byteEdge dc b s).cfg = s.cfg := by
  simp [byteEdge]
@[simp] theorem byteEdge_state (dc : Bool) (b : Byte) (s : State) : (byteEdge dc b s).state = s.state := by
  simp [byteEdge]
@[simp] theorem byteEdge_active (dc : Bool) (b : Byte) (s : State) : (byteEdge dc b s).active = s.active := by
  simp [byteEdge]
@[simp] theorem byteEdge_op (dc : Bool) (b : Byte) (s : State) : (byteEdge dc b s).op = s.op := by
  simp [byteEdge]
@[simp] theorem byteEdge_opTimeout (dc : Bool) (b : Byte) (s : State) : (byteEdge dc b s).opTimeout = s.opTimeout := by
  simp [byteEdge]
@[simp] theorem byteEdge_opBase (dc : Bool) (b : Byte) (s : State) : (byteEdge dc b s).opBase = s.opBase := by
  simp [byteEdge]
@[simp] theorem byteEdge_elapsed (dc : Bool) (b : Byte) (s : State) : (byteEdge dc b s).elapsed = s.elapsed := by
  simp [byteEdge]
@[simp] theorem byteEdge_timedOut (dc : Bool) (b : Byte) (s : State) : (byteEdge dc b s).timedOut = s.timedOut := by
  simp [byteEdge]
@[simp] theorem byteEdge_result (dc : Bool) (b : Byte) (s : State) : (byteEdge dc b s).result = s.result := by
  simp [byteEdge]
@[simp] theorem byteEdge_lastOp (dc : Bool) (b : Byte) (s : State) : (byteEdge dc b s).lastOp = s.lastOp := by
  simp [byteEdge]
@[simp] theorem byteEdge_dropped (dc : Bool) (b : Byte) (s : State) : (byteEdge dc b s).dropped = s.dropped := by
  simp [byteEdge]
@[simp] theorem byteEdge_busyS1 (dc : Bool) (b : Byte) (s : State) : (byteEdge dc b s).busyS1 = s.busyS1 := by
  simp [byteEdge]
@[simp] theorem byteEdge_busyMid (dc : Bool) (b : Byte) (s : State) : (byteEdge dc b s).busyMid = s.busyMid := by
  simp [byteEdge]
@[simp] theorem byteEdge_busySync (dc : Bool) (b : Byte) (s : State) : (byteEdge dc b s).busySync = s.busySync := by
  simp [byteEdge]
@[simp] theorem byteEdge_timeoutMs (dc : Bool) (b : Byte) (s : State) : (byteEdge dc b s).timeoutMs = s.timeoutMs := by
  simp [byteEdge]
@[simp] theorem byteEdge_frameBase (dc : Bool) (b : Byte) (s : State) : (byteEdge dc b s).frameBase = s.frameBase := by
  simp [byteEdge]
@[simp] theorem byteEdge_frameLen (dc : Bool) (b : Byte) (s : State) : (byteEdge dc b s).frameLen = s.frameLen := by
  simp [byteEdge]
@[simp] theorem byteEdge_pinRst (dc : Bool) (b : Byte) (s : State) : (byteEdge dc b s).pinRst = s.pinRst := by
  simp [byteEdge]
@[simp] theorem byteEdge_mem (dc : Bool) (b : Byte) (s : State) : (byteEdge dc b s).mem = s.mem := by
  simp [byteEdge]
@[simp] theorem byteEdge_contended (dc : Bool) (b : Byte) (s : State) : (byteEdge dc b s).contended = s.contended := by
  simp [byteEdge]
@[simp] theorem byteEdge_inputs (dc : Bool) (b : Byte) (s : State) : (byteEdge dc b s).inputs = s.inputs := by
  simp [byteEdge]
@[simp] theorem byteEdge_cycle (dc : Bool) (b : Byte) (s : State) : (byteEdge dc b s).cycle = s.cycle := by
  simp [byteEdge]

/-! ### setRstEdge -/

@[simp] theorem setRstEdge_cfg (v : Bool) (s : State) : (setRstEdge v s).cfg = s.cfg := by
  simp [setRstEdge]
@[simp] theorem setRstEdge_state (v : Bool) (s : State) : (setRstEdge v s).state = s.state := by
  simp [setRstEdge]
@[simp] theorem setRstEdge_active (v : Bool) (s : State) : (setRstEdge v s).active = s.active := by
  simp [setRstEdge]
@[simp] theorem setRstEdge_op (v : Bool) (s : State) : (setRstEdge v s).op = s.op := by
  simp [setRstEdge]
@[simp] theorem setRstEdge_opTimeout (v : Bool) (s : State) : (setRstEdge v s).opTimeout = s.opTimeout := by
  simp [setRstEdge]
@[simp] theorem setRstEdge_opBase (v : Bool) (s : State) : (setRstEdge v s).opBase = s.opBase := by
  simp [setRstEdge]
@[simp] theorem setRstEdge_sh (v : Bool) (s : State) : (setRstEdge v s).sh = s.sh := by
  simp [setRstEdge]
@[simp] theorem setRstEdge_elapsed (v : Bool) (s : State) : (setRstEdge v s).elapsed = s.elapsed := by
  simp [setRstEdge]
@[simp] theorem setRstEdge_timedOut (v : Bool) (s : State) : (setRstEdge v s).timedOut = s.timedOut := by
  simp [setRstEdge]
@[simp] theorem setRstEdge_result (v : Bool) (s : State) : (setRstEdge v s).result = s.result := by
  simp [setRstEdge]
@[simp] theorem setRstEdge_lastOp (v : Bool) (s : State) : (setRstEdge v s).lastOp = s.lastOp := by
  simp [setRstEdge]
@[simp] theorem setRstEdge_dropped (v : Bool) (s : State) : (setRstEdge v s).dropped = s.dropped := by
  simp [setRstEdge]
@[simp] theorem setRstEdge_busyS1 (v : Bool) (s : State) : (setRstEdge v s).busyS1 = s.busyS1 := by
  simp [setRstEdge]
@[simp] theorem setRstEdge_busyMid (v : Bool) (s : State) : (setRstEdge v s).busyMid = s.busyMid := by
  simp [setRstEdge]
@[simp] theorem setRstEdge_busySync (v : Bool) (s : State) : (setRstEdge v s).busySync = s.busySync := by
  simp [setRstEdge]
@[simp] theorem setRstEdge_timeoutMs (v : Bool) (s : State) : (setRstEdge v s).timeoutMs = s.timeoutMs := by
  simp [setRstEdge]
@[simp] theorem setRstEdge_frameBase (v : Bool) (s : State) : (setRstEdge v s).frameBase = s.frameBase := by
  simp [setRstEdge]
@[simp] theorem setRstEdge_frameLen (v : Bool) (s : State) : (setRstEdge v s).frameLen = s.frameLen := by
  simp [setRstEdge]
@[simp] theorem setRstEdge_pinRst (v : Bool) (s : State) : (setRstEdge v s).pinRst = v := by
  simp [setRstEdge]
@[simp] theorem setRstEdge_pinDc (v : Bool) (s : State) : (setRstEdge v s).pinDc = s.pinDc := by
  simp [setRstEdge]
@[simp] theorem setRstEdge_pinCs (v : Bool) (s : State) : (setRstEdge v s).pinCs = s.pinCs := by
  simp [setRstEdge]
@[simp] theorem setRstEdge_pinSclk (v : Bool) (s : State) : (setRstEdge v s).pinSclk = s.pinSclk := by
  simp [setRstEdge]
@[simp] theorem setRstEdge_pinMosi (v : Bool) (s : State) : (setRstEdge v s).pinMosi = s.pinMosi := by
  simp [setRstEdge]
@[simp] theorem setRstEdge_mem (v : Bool) (s : State) : (setRstEdge v s).mem = s.mem := by
  simp [setRstEdge]
@[simp] theorem setRstEdge_contended (v : Bool) (s : State) : (setRstEdge v s).contended = s.contended := by
  simp [setRstEdge]
@[simp] theorem setRstEdge_inputs (v : Bool) (s : State) : (setRstEdge v s).inputs = s.inputs := by
  simp [setRstEdge]
@[simp] theorem setRstEdge_cycle (v : Bool) (s : State) : (setRstEdge v s).cycle = s.cycle := by
  simp [setRstEdge]

/-! ### delayEdge: what it leaves -/

@[simp] theorem delayEdge_cfg (ms : Nat) (s : State) : (delayEdge ms s).cfg = s.cfg := by
  simp [delayEdge]
@[simp] theorem delayEdge_state (ms : Nat) (s : State) : (delayEdge ms s).state = s.state := by
  simp [delayEdge]
@[simp] theorem delayEdge_active (ms : Nat) (s : State) : (delayEdge ms s).active = s.active := by
  simp [delayEdge]
@[simp] theorem delayEdge_op (ms : Nat) (s : State) : (delayEdge ms s).op = s.op := by
  simp [delayEdge]
@[simp] theorem delayEdge_opTimeout (ms : Nat) (s : State) : (delayEdge ms s).opTimeout = s.opTimeout := by
  simp [delayEdge]
@[simp] theorem delayEdge_opBase (ms : Nat) (s : State) : (delayEdge ms s).opBase = s.opBase := by
  simp [delayEdge]
@[simp] theorem delayEdge_sh (ms : Nat) (s : State) : (delayEdge ms s).sh = s.sh := by
  simp [delayEdge]
@[simp] theorem delayEdge_elapsed (ms : Nat) (s : State) : (delayEdge ms s).elapsed = s.elapsed := by
  simp [delayEdge]
@[simp] theorem delayEdge_timedOut (ms : Nat) (s : State) : (delayEdge ms s).timedOut = s.timedOut := by
  simp [delayEdge]
@[simp] theorem delayEdge_result (ms : Nat) (s : State) : (delayEdge ms s).result = s.result := by
  simp [delayEdge]
@[simp] theorem delayEdge_lastOp (ms : Nat) (s : State) : (delayEdge ms s).lastOp = s.lastOp := by
  simp [delayEdge]
@[simp] theorem delayEdge_dropped (ms : Nat) (s : State) : (delayEdge ms s).dropped = s.dropped := by
  simp [delayEdge]
@[simp] theorem delayEdge_busyS1 (ms : Nat) (s : State) : (delayEdge ms s).busyS1 = s.busyS1 := by
  simp [delayEdge]
@[simp] theorem delayEdge_busyMid (ms : Nat) (s : State) : (delayEdge ms s).busyMid = s.busyMid := by
  simp [delayEdge]
@[simp] theorem delayEdge_busySync (ms : Nat) (s : State) : (delayEdge ms s).busySync = s.busySync := by
  simp [delayEdge]
@[simp] theorem delayEdge_timeoutMs (ms : Nat) (s : State) : (delayEdge ms s).timeoutMs = s.timeoutMs := by
  simp [delayEdge]
@[simp] theorem delayEdge_frameBase (ms : Nat) (s : State) : (delayEdge ms s).frameBase = s.frameBase := by
  simp [delayEdge]
@[simp] theorem delayEdge_frameLen (ms : Nat) (s : State) : (delayEdge ms s).frameLen = s.frameLen := by
  simp [delayEdge]
@[simp] theorem delayEdge_pinRst (ms : Nat) (s : State) : (delayEdge ms s).pinRst = s.pinRst := by
  simp [delayEdge]
@[simp] theorem delayEdge_pinDc (ms : Nat) (s : State) : (delayEdge ms s).pinDc = s.pinDc := by
  simp [delayEdge]
@[simp] theorem delayEdge_pinCs (ms : Nat) (s : State) : (delayEdge ms s).pinCs = s.pinCs := by
  simp [delayEdge]
@[simp] theorem delayEdge_pinSclk (ms : Nat) (s : State) : (delayEdge ms s).pinSclk = s.pinSclk := by
  simp [delayEdge]
@[simp] theorem delayEdge_pinMosi (ms : Nat) (s : State) : (delayEdge ms s).pinMosi = s.pinMosi := by
  simp [delayEdge]
@[simp] theorem delayEdge_mem (ms : Nat) (s : State) : (delayEdge ms s).mem = s.mem := by
  simp [delayEdge]
@[simp] theorem delayEdge_contended (ms : Nat) (s : State) : (delayEdge ms s).contended = s.contended := by
  simp [delayEdge]
@[simp] theorem delayEdge_inputs (ms : Nat) (s : State) : (delayEdge ms s).inputs = s.inputs := by
  simp [delayEdge]
@[simp] theorem delayEdge_cycle (ms : Nat) (s : State) : (delayEdge ms s).cycle = s.cycle := by
  simp [delayEdge]

/-! ### setStateEdge -/

@[simp] theorem setStateEdge_cfg (d : DriverState) (s : State) : (setStateEdge d s).cfg = s.cfg := by
  simp [setStateEdge]
@[simp] theorem setStateEdge_state (d : DriverState) (s : State) : (setStateEdge d s).state = d := by
  simp [setStateEdge]
@[simp] theorem setStateEdge_active (d : DriverState) (s : State) : (setStateEdge d s).active = s.active := by
  simp [setStateEdge]
@[simp] theorem setStateEdge_op (d : DriverState) (s : State) : (setStateEdge d s).op = s.op := by
  simp [setStateEdge]
@[simp] theorem setStateEdge_opTimeout (d : DriverState) (s : State) : (setStateEdge d s).opTimeout = s.opTimeout := by
  simp [setStateEdge]
@[simp] theorem setStateEdge_opBase (d : DriverState) (s : State) : (setStateEdge d s).opBase = s.opBase := by
  simp [setStateEdge]
@[simp] theorem setStateEdge_sh (d : DriverState) (s : State) : (setStateEdge d s).sh = s.sh := by
  simp [setStateEdge]
@[simp] theorem setStateEdge_elapsed (d : DriverState) (s : State) : (setStateEdge d s).elapsed = s.elapsed := by
  simp [setStateEdge]
@[simp] theorem setStateEdge_timedOut (d : DriverState) (s : State) : (setStateEdge d s).timedOut = s.timedOut := by
  simp [setStateEdge]
@[simp] theorem setStateEdge_result (d : DriverState) (s : State) : (setStateEdge d s).result = s.result := by
  simp [setStateEdge]
@[simp] theorem setStateEdge_lastOp (d : DriverState) (s : State) : (setStateEdge d s).lastOp = s.lastOp := by
  simp [setStateEdge]
@[simp] theorem setStateEdge_dropped (d : DriverState) (s : State) : (setStateEdge d s).dropped = s.dropped := by
  simp [setStateEdge]
@[simp] theorem setStateEdge_busyS1 (d : DriverState) (s : State) : (setStateEdge d s).busyS1 = s.busyS1 := by
  simp [setStateEdge]
@[simp] theorem setStateEdge_busyMid (d : DriverState) (s : State) : (setStateEdge d s).busyMid = s.busyMid := by
  simp [setStateEdge]
@[simp] theorem setStateEdge_busySync (d : DriverState) (s : State) : (setStateEdge d s).busySync = s.busySync := by
  simp [setStateEdge]
@[simp] theorem setStateEdge_timeoutMs (d : DriverState) (s : State) : (setStateEdge d s).timeoutMs = s.timeoutMs := by
  simp [setStateEdge]
@[simp] theorem setStateEdge_frameBase (d : DriverState) (s : State) : (setStateEdge d s).frameBase = s.frameBase := by
  simp [setStateEdge]
@[simp] theorem setStateEdge_frameLen (d : DriverState) (s : State) : (setStateEdge d s).frameLen = s.frameLen := by
  simp [setStateEdge]
@[simp] theorem setStateEdge_pinRst (d : DriverState) (s : State) : (setStateEdge d s).pinRst = s.pinRst := by
  simp [setStateEdge]
@[simp] theorem setStateEdge_pinDc (d : DriverState) (s : State) : (setStateEdge d s).pinDc = s.pinDc := by
  simp [setStateEdge]
@[simp] theorem setStateEdge_pinCs (d : DriverState) (s : State) : (setStateEdge d s).pinCs = s.pinCs := by
  simp [setStateEdge]
@[simp] theorem setStateEdge_pinSclk (d : DriverState) (s : State) : (setStateEdge d s).pinSclk = s.pinSclk := by
  simp [setStateEdge]
@[simp] theorem setStateEdge_pinMosi (d : DriverState) (s : State) : (setStateEdge d s).pinMosi = s.pinMosi := by
  simp [setStateEdge]
@[simp] theorem setStateEdge_mem (d : DriverState) (s : State) : (setStateEdge d s).mem = s.mem := by
  simp [setStateEdge]
@[simp] theorem setStateEdge_contended (d : DriverState) (s : State) : (setStateEdge d s).contended = s.contended := by
  simp [setStateEdge]
@[simp] theorem setStateEdge_inputs (d : DriverState) (s : State) : (setStateEdge d s).inputs = s.inputs := by
  simp [setStateEdge]
@[simp] theorem setStateEdge_cycle (d : DriverState) (s : State) : (setStateEdge d s).cycle = s.cycle := by
  simp [setStateEdge]

/-! ### waitEdge: what it leaves -/

@[simp] theorem waitEdge_cfg (s : State) : (waitEdge s).cfg = s.cfg := by
  unfold waitEdge waitSample waitSuccess waitTimeout; repeat' split
  all_goals rfl
@[simp] theorem waitEdge_state (s : State) : (waitEdge s).state = s.state := by
  unfold waitEdge waitSample waitSuccess waitTimeout; repeat' split
  all_goals rfl
@[simp] theorem waitEdge_active (s : State) : (waitEdge s).active = s.active := by
  unfold waitEdge waitSample waitSuccess waitTimeout; repeat' split
  all_goals rfl
@[simp] theorem waitEdge_op (s : State) : (waitEdge s).op = s.op := by
  unfold waitEdge waitSample waitSuccess waitTimeout; repeat' split
  all_goals rfl
@[simp] theorem waitEdge_opTimeout (s : State) : (waitEdge s).opTimeout = s.opTimeout := by
  unfold waitEdge waitSample waitSuccess waitTimeout; repeat' split
  all_goals rfl
@[simp] theorem waitEdge_opBase (s : State) : (waitEdge s).opBase = s.opBase := by
  unfold waitEdge waitSample waitSuccess waitTimeout; repeat' split
  all_goals rfl
@[simp] theorem waitEdge_sh (s : State) : (waitEdge s).sh = s.sh := by
  unfold waitEdge waitSample waitSuccess waitTimeout; repeat' split
  all_goals rfl
@[simp] theorem waitEdge_result (s : State) : (waitEdge s).result = s.result := by
  unfold waitEdge waitSample waitSuccess waitTimeout; repeat' split
  all_goals rfl
@[simp] theorem waitEdge_lastOp (s : State) : (waitEdge s).lastOp = s.lastOp := by
  unfold waitEdge waitSample waitSuccess waitTimeout; repeat' split
  all_goals rfl
@[simp] theorem waitEdge_dropped (s : State) : (waitEdge s).dropped = s.dropped := by
  unfold waitEdge waitSample waitSuccess waitTimeout; repeat' split
  all_goals rfl
@[simp] theorem waitEdge_busyS1 (s : State) : (waitEdge s).busyS1 = s.busyS1 := by
  unfold waitEdge waitSample waitSuccess waitTimeout; repeat' split
  all_goals rfl
@[simp] theorem waitEdge_busyMid (s : State) : (waitEdge s).busyMid = s.busyMid := by
  unfold waitEdge waitSample waitSuccess waitTimeout; repeat' split
  all_goals rfl
@[simp] theorem waitEdge_busySync (s : State) : (waitEdge s).busySync = s.busySync := by
  unfold waitEdge waitSample waitSuccess waitTimeout; repeat' split
  all_goals rfl
@[simp] theorem waitEdge_timeoutMs (s : State) : (waitEdge s).timeoutMs = s.timeoutMs := by
  unfold waitEdge waitSample waitSuccess waitTimeout; repeat' split
  all_goals rfl
@[simp] theorem waitEdge_frameBase (s : State) : (waitEdge s).frameBase = s.frameBase := by
  unfold waitEdge waitSample waitSuccess waitTimeout; repeat' split
  all_goals rfl
@[simp] theorem waitEdge_frameLen (s : State) : (waitEdge s).frameLen = s.frameLen := by
  unfold waitEdge waitSample waitSuccess waitTimeout; repeat' split
  all_goals rfl
@[simp] theorem waitEdge_pinRst (s : State) : (waitEdge s).pinRst = s.pinRst := by
  unfold waitEdge waitSample waitSuccess waitTimeout; repeat' split
  all_goals rfl
@[simp] theorem waitEdge_pinDc (s : State) : (waitEdge s).pinDc = s.pinDc := by
  unfold waitEdge waitSample waitSuccess waitTimeout; repeat' split
  all_goals rfl
@[simp] theorem waitEdge_pinCs (s : State) : (waitEdge s).pinCs = s.pinCs := by
  unfold waitEdge waitSample waitSuccess waitTimeout; repeat' split
  all_goals rfl
@[simp] theorem waitEdge_pinSclk (s : State) : (waitEdge s).pinSclk = s.pinSclk := by
  unfold waitEdge waitSample waitSuccess waitTimeout; repeat' split
  all_goals rfl
@[simp] theorem waitEdge_pinMosi (s : State) : (waitEdge s).pinMosi = s.pinMosi := by
  unfold waitEdge waitSample waitSuccess waitTimeout; repeat' split
  all_goals rfl
@[simp] theorem waitEdge_mem (s : State) : (waitEdge s).mem = s.mem := by
  unfold waitEdge waitSample waitSuccess waitTimeout; repeat' split
  all_goals rfl
@[simp] theorem waitEdge_contended (s : State) : (waitEdge s).contended = s.contended := by
  unfold waitEdge waitSample waitSuccess waitTimeout; repeat' split
  all_goals rfl
@[simp] theorem waitEdge_inputs (s : State) : (waitEdge s).inputs = s.inputs := by
  unfold waitEdge waitSample waitSuccess waitTimeout; repeat' split
  all_goals rfl
@[simp] theorem waitEdge_cycle (s : State) : (waitEdge s).cycle = s.cycle := by
  unfold waitEdge waitSample waitSuccess waitTimeout; repeat' split
  all_goals rfl

/-! ### finishEdge -/

@[simp] theorem finishEdge_cfg (a : DriverState) (b : DriverState) (s : State) : (finishEdge a b s).cfg = s.cfg := by
  unfold finishEdge; split <;> simp_all
@[simp] theorem finishEdge_state (a : DriverState) (b : DriverState) (s : State) : (finishEdge a b s).state = if s.timedOut then b else a := by
  unfold finishEdge; split <;> simp_all
@[simp] theorem finishEdge_active (a : DriverState) (b : DriverState) (s : State) : (finishEdge a b s).active = false := by
  unfold finishEdge; split <;> simp_all
@[simp] theorem finishEdge_op (a : DriverState) (b : DriverState) (s : State) : (finishEdge a b s).op = s.op := by
  unfold finishEdge; split <;> simp_all
@[simp] theorem finishEdge_opTimeout (a : DriverState) (b : DriverState) (s : State) : (finishEdge a b s).opTimeout = s.opTimeout := by
  unfold finishEdge; split <;> simp_all
@[simp] theorem finishEdge_opBase (a : DriverState) (b : DriverState) (s : State) : (finishEdge a b s).opBase = s.opBase := by
  unfold finishEdge; split <;> simp_all
@[simp] theorem finishEdge_upc (a : DriverState) (b : DriverState) (s : State) : (finishEdge a b s).upc = 0 := by
  unfold finishEdge; split <;> simp_all
@[simp] theorem finishEdge_cnt (a : DriverState) (b : DriverState) (s : State) : (finishEdge a b s).cnt = 0 := by
  unfold finishEdge; split <;> simp_all
@[simp] theorem finishEdge_sh (a : DriverState) (b : DriverState) (s : State) : (finishEdge a b s).sh = s.sh := by
  unfold finishEdge; split <;> simp_all
@[simp] theorem finishEdge_elapsed (a : DriverState) (b : DriverState) (s : State) : (finishEdge a b s).elapsed = s.elapsed := by
  unfold finishEdge; split <;> simp_all
@[simp] theorem finishEdge_timedOut (a : DriverState) (b : DriverState) (s : State) : (finishEdge a b s).timedOut = s.timedOut := by
  unfold finishEdge; split <;> simp_all
@[simp] theorem finishEdge_result (a : DriverState) (b : DriverState) (s : State) : (finishEdge a b s).result = if s.timedOut then .busyTimeout else .ok := by
  unfold finishEdge; split <;> simp_all
@[simp] theorem finishEdge_lastOp (a : DriverState) (b : DriverState) (s : State) : (finishEdge a b s).lastOp = s.lastOp := by
  unfold finishEdge; split <;> simp_all
@[simp] theorem finishEdge_dropped (a : DriverState) (b : DriverState) (s : State) : (finishEdge a b s).dropped = s.dropped := by
  unfold finishEdge; split <;> simp_all
@[simp] theorem finishEdge_busyS1 (a : DriverState) (b : DriverState) (s : State) : (finishEdge a b s).busyS1 = s.busyS1 := by
  unfold finishEdge; split <;> simp_all
@[simp] theorem finishEdge_busyMid (a : DriverState) (b : DriverState) (s : State) : (finishEdge a b s).busyMid = s.busyMid := by
  unfold finishEdge; split <;> simp_all
@[simp] theorem finishEdge_busySync (a : DriverState) (b : DriverState) (s : State) : (finishEdge a b s).busySync = s.busySync := by
  unfold finishEdge; split <;> simp_all
@[simp] theorem finishEdge_timeoutMs (a : DriverState) (b : DriverState) (s : State) : (finishEdge a b s).timeoutMs = s.timeoutMs := by
  unfold finishEdge; split <;> simp_all
@[simp] theorem finishEdge_frameBase (a : DriverState) (b : DriverState) (s : State) : (finishEdge a b s).frameBase = s.frameBase := by
  unfold finishEdge; split <;> simp_all
@[simp] theorem finishEdge_frameLen (a : DriverState) (b : DriverState) (s : State) : (finishEdge a b s).frameLen = s.frameLen := by
  unfold finishEdge; split <;> simp_all
@[simp] theorem finishEdge_pinRst (a : DriverState) (b : DriverState) (s : State) : (finishEdge a b s).pinRst = s.pinRst := by
  unfold finishEdge; split <;> simp_all
@[simp] theorem finishEdge_pinDc (a : DriverState) (b : DriverState) (s : State) : (finishEdge a b s).pinDc = s.pinDc := by
  unfold finishEdge; split <;> simp_all
@[simp] theorem finishEdge_pinCs (a : DriverState) (b : DriverState) (s : State) : (finishEdge a b s).pinCs = s.pinCs := by
  unfold finishEdge; split <;> simp_all
@[simp] theorem finishEdge_pinSclk (a : DriverState) (b : DriverState) (s : State) : (finishEdge a b s).pinSclk = s.pinSclk := by
  unfold finishEdge; split <;> simp_all
@[simp] theorem finishEdge_pinMosi (a : DriverState) (b : DriverState) (s : State) : (finishEdge a b s).pinMosi = s.pinMosi := by
  unfold finishEdge; split <;> simp_all
@[simp] theorem finishEdge_mem (a : DriverState) (b : DriverState) (s : State) : (finishEdge a b s).mem = s.mem := by
  unfold finishEdge; split <;> simp_all
@[simp] theorem finishEdge_contended (a : DriverState) (b : DriverState) (s : State) : (finishEdge a b s).contended = s.contended := by
  unfold finishEdge; split <;> simp_all
@[simp] theorem finishEdge_inputs (a : DriverState) (b : DriverState) (s : State) : (finishEdge a b s).inputs = s.inputs := by
  unfold finishEdge; split <;> simp_all
@[simp] theorem finishEdge_cycle (a : DriverState) (b : DriverState) (s : State) : (finishEdge a b s).cycle = s.cycle := by
  unfold finishEdge; split <;> simp_all

end Machine
end Sys2Proof
end

