-- ==== Sys2Proof/Laws/Exec.lean ====
section
/-! SUPPORT. The meanings through the shared operations: a host command is `hostCommand` of its OP, a
frame is a `byteEdge` of its fields, and the decoder in front of them changes nothing. -/

namespace Sys2Proof
namespace Machine

/-- A host command's meaning is its OP's dispatch. -/
theorem exec_hostCmd {i : Instr} {w : Word} (h : encode i = .hostCmd w) (s : State) :
    exec i s = .next (hostCommand (hostOp w) s) := by
  cases i <;> cases h <;> rfl

/-- A frame's meaning is one BYTE edge with its DC bit and byte. -/
theorem exec_spiFrame {i : Instr} {f : FrameBits} (h : encode i = .spiFrame f) (s : State) :
    exec i s = .next (byteEdge (frameDc f) (frameB f) s) := by
  cases i with
  | dData b =>
    simp only [encode, Encoding.spiFrame.injEq] at h
    subst h
    simp [exec, execDData]
  | _ => cases h <;> rfl

/-- No instruction stops. -/
theorem exec_next (i : Instr) (s : State) : ∃ t, exec i s = .next t := by
  cases h : encode i with
  | hostCmd w => exact ⟨_, exec_hostCmd h s⟩
  | spiFrame f => exact ⟨_, exec_spiFrame h s⟩

/-- A BYTE's edge is the same whether or not a row of the table names its frame. -/
@[simp] theorem sendFrame_eq (dc : Bool) (b : Byte) (s : State) :
    sendFrame dc b s = .next (byteEdge dc b s) := by
  unfold sendFrame
  split
  · rename_i c hc
    have := exec_spiFrame (encode_of_decodeFrameIn hc) s
    simpa using this
  · rfl

/-- A CMD write: a legal word is its OP's dispatch, another is the illegal command. -/
theorem cmdWrite_eq (w : Word) (s : State) :
    cmdWrite w s = .next (if (decodeHost w).isOk then hostCommand (hostOp w) s
                          else illegalCommand (hostOp w) s) := by
  unfold cmdWrite
  split
  · rename_i c hc
    rw [exec_hostCmd (encode_of_decodeHost hc), hc]; rfl
  · rename_i e he
    rw [he]; rfl

@[simp] theorem hostCommand_of_active {op : BitVec 4} {s : State} (h : s.active = true) :
    hostCommand op s = dropCommand s := by simp [hostCommand, h]

@[simp] theorem illegalCommand_of_active {op : BitVec 4} {s : State} (h : s.active = true) :
    illegalCommand op s = dropCommand s := by simp [illegalCommand, h]

/-- A CMD write with ACTIVE = 1 is dropped, whatever the word. -/
theorem cmdWrite_active {s : State} (h : s.active = true) (w : Word) :
    cmdWrite w s = .next (dropCommand s) := by
  rw [cmdWrite_eq]; split <;> simp [h]

/-- Everything a host command can do with ACTIVE = 0: reject, refuse the length, or start. -/
theorem hostCommand_cases (op : BitVec 4) {s : State} (h : s.active = false) :
    hostCommand op s = raise .cmdRejected (recordCommand op s)
    ∨ hostCommand op s = raise .frameSizeMismatch (recordCommand op s)
    ∨ (hostCommand op s = accept op (recordCommand op s) ∧ allowed op s.state = true) := by
  unfold hostCommand
  simp only [h, Bool.false_eq_true, if_false]
  split
  · exact .inl rfl
  · split
    · exact .inr (.inl rfl)
    · rename_i ha _
      exact .inr (.inr ⟨rfl, by simpa using ha⟩)

end Machine
end Sys2Proof
end

