-- ==== Sys2Proof/Laws/Memory.lean ====
section
/-! SUPPORT. Frame memory: the canonical form is kept, and what a write leaves alone. -/

namespace Sys2Proof
namespace Machine

theorem Memory.rising_cons {c : Host.Cell} {m : Memory} :
    Memory.rising (c :: m) = true ↔ (∀ d ∈ m, c.1 < d.1) ∧ Memory.rising m = true := by
  simp [Memory.rising]

theorem Memory.mem_write {m : Memory} {a : Nat} {b : Byte} {d : Host.Cell}
    (h : d ∈ Memory.write m a b) : d = (a, b) ∨ d ∈ m := by
  induction m with
  | nil => simpa [Memory.write] using h
  | cons c m ih =>
    simp only [Memory.write] at h
    split at h
    · simpa using h
    · split at h
      · simp at h
        rcases h with h | h
        · exact .inl h
        · exact .inr (by simp [h])
      · simp at h
        rcases h with h | h
        · exact .inr (by simp [h])
        · rcases ih h with h | h
          · exact .inl h
          · exact .inr (by simp [h])

theorem Memory.rising_write {m : Memory} (a : Nat) (b : Byte) (h : Memory.rising m = true) :
    Memory.rising (Memory.write m a b) = true := by
  induction m with
  | nil => simp [Memory.write, Memory.rising]
  | cons c m ih =>
    obtain ⟨h1, h2⟩ := Memory.rising_cons.1 h
    simp only [Memory.write]
    split
    · rename_i hlt
      refine Memory.rising_cons.2 ⟨fun d hd => ?_, h⟩
      rcases List.mem_cons.1 hd with rfl | hd
      · exact hlt
      · exact lt_trans hlt (h1 d hd)
    · split
      · rename_i heq
        exact Memory.rising_cons.2 ⟨fun d hd => heq ▸ h1 d hd, h2⟩
      · refine Memory.rising_cons.2 ⟨fun d hd => ?_, ih h2⟩
        rcases Memory.mem_write hd with rfl | hd
        · show c.1 < a
          omega
        · exact h1 d hd

/-- A write of a byte inside the address space keeps the canonical form. -/
theorem Memory.wf_write {m : Memory} {a : Nat} (b : Byte) (ha : a < 4294967296)
    (h : Memory.wf m = true) : Memory.wf (Memory.write m a b) = true := by
  simp only [Memory.wf, Bool.and_eq_true, List.all_eq_true, decide_eq_true_eq] at h ⊢
  refine ⟨Memory.rising_write a b h.1, fun d hd => ?_⟩
  rcases Memory.mem_write hd with rfl | hd
  · exact ha
  · exact h.2 d hd

/-- The host's writes of a cycle keep the canonical form. -/
theorem Memory.wf_writeAll (ws : List (Word × Byte)) {m : Memory} (h : Memory.wf m = true) :
    Memory.wf (Memory.writeAll m ws) = true := by
  induction ws generalizing m with
  | nil => exact h
  | cons w ws ih => exact ih (Memory.wf_write w.2 w.1.isLt h)

theorem Memory.read_write_same (m : Memory) (a : Nat) (b : Byte) :
    Memory.read (Memory.write m a b) a = some b := by
  induction m with
  | nil => simp [Memory.write, Memory.read]
  | cons c m ih =>
    simp only [Memory.write]
    split
    · simp [Memory.read]
    · split
      · simp [Memory.read]
      · rename_i _ h
        simp only [Memory.read, Ne.symm h, if_false, ih]

theorem Memory.read_write_other (m : Memory) {a x : Nat} (b : Byte) (h : x ≠ a) :
    Memory.read (Memory.write m a b) x = Memory.read m x := by
  induction m with
  | nil => simp [Memory.write, Memory.read, Ne.symm h]
  | cons c m ih =>
    simp only [Memory.write]
    split
    · simp [Memory.read, Ne.symm h]
    · split
      · rename_i _ h2
        simp [Memory.read, ← h2, Ne.symm h]
      · simp only [Memory.read, ih]

/-- An address the host does not write in a cycle reads as before. -/
theorem Memory.read_writeAll_other (ws : List (Word × Byte)) (m : Memory) {x : Nat}
    (h : ∀ w ∈ ws, w.1.toNat ≠ x) : Memory.read (Memory.writeAll m ws) x = Memory.read m x := by
  induction ws generalizing m with
  | nil => rfl
  | cons w ws ih =>
    have := ih (Memory.write m w.1.toNat w.2) (fun v hv => h v (by simp [hv]))
    rw [show Memory.writeAll m (w :: ws) = Memory.writeAll (Memory.write m w.1.toNat w.2) ws from rfl,
      this, Memory.read_write_other _ _ (Ne.symm (h w (by simp)))]

end Machine
end Sys2Proof
end

