-- ==== Sys2Proof/Laws/PerInstr.lean ====
section
/-! SUPPORT. The family EncodingAgrees, one lemma per instruction: its word decodes to it in its format,
and a frame's word does so under the command that sends it (30_encoding.md R81, R88). -/

namespace Sys2Proof
namespace Laws
namespace EncodingAgrees

/-- The decoder gives the instruction back from its own encoding. -/
def Statement (i : Instr) : Prop :=
  i.wellFormed = true
    ∧ (∀ w, encode i = .hostCmd w → decodeHost w = .ok i)
    ∧ ∀ f, encode i = .spiFrame f → decodeFrameIn (Machine.runningOp i) f = .ok i

theorem reset : Statement .reset := by
  refine ⟨rfl, fun w h => ?_, fun f h => ?_⟩
  · cases h; rfl
  · cases h

theorem init : Statement .init := by
  refine ⟨rfl, fun w h => ?_, fun f h => ?_⟩
  · cases h; rfl
  · cases h

theorem clear : Statement .clear := by
  refine ⟨rfl, fun w h => ?_, fun f h => ?_⟩
  · cases h; rfl
  · cases h

theorem writeFrame : Statement .writeFrame := by
  refine ⟨rfl, fun w h => ?_, fun f h => ?_⟩
  · cases h; rfl
  · cases h

theorem waitIdle : Statement .waitIdle := by
  refine ⟨rfl, fun w h => ?_, fun f h => ?_⟩
  · cases h; rfl
  · cases h

theorem cSwreset : Statement .cSwreset := by
  refine ⟨rfl, fun w h => ?_, fun f h => ?_⟩
  · cases h
  · cases h; rfl

theorem cRefresh : Statement .cRefresh := by
  refine ⟨rfl, fun w h => ?_, fun f h => ?_⟩
  · cases h
  · cases h; rfl

theorem cDriverOutputControl : Statement .cDriverOutputControl := by
  refine ⟨rfl, fun w h => ?_, fun f h => ?_⟩
  · cases h
  · cases h; rfl

theorem cDataEntryMode : Statement .cDataEntryMode := by
  refine ⟨rfl, fun w h => ?_, fun f h => ?_⟩
  · cases h
  · cases h; rfl

theorem cRamXWindow : Statement .cRamXWindow := by
  refine ⟨rfl, fun w h => ?_, fun f h => ?_⟩
  · cases h
  · cases h; rfl

theorem cRamYWindow : Statement .cRamYWindow := by
  refine ⟨rfl, fun w h => ?_, fun f h => ?_⟩
  · cases h
  · cases h; rfl

theorem cBorderWaveform : Statement .cBorderWaveform := by
  refine ⟨rfl, fun w h => ?_, fun f h => ?_⟩
  · cases h
  · cases h; rfl

theorem cDisplayUpdateControl : Statement .cDisplayUpdateControl := by
  refine ⟨rfl, fun w h => ?_, fun f h => ?_⟩
  · cases h
  · cases h; rfl

theorem cRamXCounter : Statement .cRamXCounter := by
  refine ⟨rfl, fun w h => ?_, fun f h => ?_⟩
  · cases h
  · cases h; rfl

theorem cRamYCounter : Statement .cRamYCounter := by
  refine ⟨rfl, fun w h => ?_, fun f h => ?_⟩
  · cases h
  · cases h; rfl

theorem cWriteBwPlane : Statement .cWriteBwPlane := by
  refine ⟨rfl, fun w h => ?_, fun f h => ?_⟩
  · cases h
  · cases h; rfl

theorem cWriteRedPlane : Statement .cWriteRedPlane := by
  refine ⟨rfl, fun w h => ?_, fun f h => ?_⟩
  · cases h
  · cases h; rfl

theorem cWriteRam : Statement .cWriteRam := by
  refine ⟨rfl, fun w h => ?_, fun f h => ?_⟩
  · cases h
  · cases h; rfl

theorem cActivateUpdate : Statement .cActivateUpdate := by
  refine ⟨rfl, fun w h => ?_, fun f h => ?_⟩
  · cases h
  · cases h; rfl

theorem dData (b : Byte) : Statement (.dData b) := by
  refine ⟨rfl, fun w h => ?_, fun f h => ?_⟩
  · cases h
  · cases h
    exact decodeFrameIn_data _ b

end EncodingAgrees
end Laws
end Sys2Proof
end

