-- ==== Sys2Proof/Laws/Program.lean ====
section
/-! SUPPORT. The shape of the programs P(op): plain micro-ops around at most one SETSTATE and one WAIT,
and END last (42_sequencer.md R134). -/

namespace Sys2Proof
namespace Machine

/-- SETRST, DELAY and BYTE: a fixed duration, and no effect on the DriverState. -/
def plain : MicroOp → Bool
  | .setRst _ | .delay _ | .byte _ _ => true
  | .wait | .setState _ | .finish _ _ => false

/-- An OP with a program. -/
def legalOp (op : BitVec 4) : Prop := op = 1#4 ∨ op = 2#4 ∨ op = 3#4 ∨ op = 4#4 ∨ op = 5#4

theorem legalOp_of_toNat {op : BitVec 4} (h1 : 1 ≤ op.toNat) (h5 : op.toNat ≤ 5) : legalOp op := by
  revert op; unfold legalOp; decide

@[simp] theorem program_one (c : Config) : program c 1#4 = programReset := rfl
@[simp] theorem program_two (c : Config) : program c 2#4 = programInit c := rfl
@[simp] theorem program_three (c : Config) : program c 3#4 = programClear c := rfl
@[simp] theorem program_four (c : Config) : program c 4#4 = programWriteFrame c := rfl
@[simp] theorem program_five (c : Config) : program c 5#4 = programWaitIdle := rfl

theorem program_illegal (c : Config) {op : BitVec 4} (h : ¬ legalOp op) : program c op = [] := by
  unfold legalOp at h
  unfold program
  simp_all

theorem plain_expandEntry (e : InitEntry) : ∀ u ∈ expandEntry e, plain u = true := by
  simp [expandEntry, sendCommand, sendData, plain]

theorem plain_expandRest (l : List InitEntry) : ∀ u ∈ expandRest l, plain u = true := by
  induction l with
  | nil => simp [expandRest]
  | cons e es ih =>
    intro u hu
    simp only [expandRest, List.mem_cons, List.mem_append] at hu
    rcases hu with rfl | hu | hu
    · rfl
    · exact plain_expandEntry e u hu
    · exact ih u hu

theorem plain_expandTable (l : List InitEntry) : ∀ u ∈ expandTable l, plain u = true := by
  cases l with
  | nil => simp [expandTable]
  | cons e es =>
    intro u hu
    simp only [expandTable, List.mem_append] at hu
    exact hu.elim (plain_expandEntry e u) (plain_expandRest es u)

theorem plain_constPlane (c : Config) (b : Byte) : ∀ u ∈ constPlane c b, plain u = true := by
  intro u hu
  rw [List.eq_of_mem_replicate hu]; rfl

theorem plain_bufferPlane (c : Config) : ∀ u ∈ bufferPlane c, plain u = true := by
  intro u hu
  obtain ⟨i, _, rfl⟩ := List.mem_map.1 hu
  rfl

theorem plain_framePlanes (c : Config) {p : List MicroOp} (hp : ∀ u ∈ p, plain u = true) :
    ∀ u ∈ framePlanes c p, plain u = true := by
  intro u hu
  unfold framePlanes at hu
  cases hv : c.panelVariant <;> rw [hv] at hu <;> simp only [List.mem_append, List.mem_singleton] at hu
  · rcases hu with (((rfl | hu) | rfl) | hu) | rfl
    · rfl
    · exact hp u hu
    · rfl
    · exact plain_constPlane _ _ u hu
    · rfl
  · rcases hu with (rfl | hu) | rfl
    · rfl
    · exact hp u hu
    · rfl

theorem plain_rstPulse : ∀ u ∈ rstPulse, plain u = true := by decide

/-- The shape of every program, with its SETSTATE, WAIT and END by OP. -/
theorem program_shape (c : Config) {op : BitVec 4} (h : legalOp op) :
    ∃ (A S B W C : List MicroOp) (F : MicroOp),
      program c op = A ++ (S ++ (B ++ (W ++ (C ++ [F]))))
      ∧ (∀ u ∈ A, plain u = true) ∧ (∀ u ∈ B, plain u = true) ∧ (∀ u ∈ C, plain u = true)
      ∧ ((op = 1#4 ∧ S = [] ∧ B = [] ∧ W = [] ∧ F = .finish .resetting .resetting)
        ∨ (op = 2#4 ∧ S = [.setState .initializing] ∧ W = [.wait] ∧ F = .finish .idle .failed)
        ∨ ((op = 3#4 ∨ op = 4#4) ∧ S = [.setState .busy] ∧ W = [.wait] ∧ F = .finish .idle .busy)
        ∨ (op = 5#4 ∧ S = [] ∧ B = [] ∧ W = [.wait] ∧ F = .finish .idle .busy)) := by
  rcases h with rfl | rfl | rfl | rfl | rfl
  · exact ⟨rstPulse, [], [], [], [], _, by simp [programReset], plain_rstPulse, by simp, by simp,
      .inl ⟨rfl, rfl, rfl, rfl, rfl⟩⟩
  · exact ⟨rstPulse, [.setState .initializing], [sendCommand 0x12#8], [.wait], expandTable c.initTable, _,
      by simp [programInit], plain_rstPulse, by simp [sendCommand, plain], plain_expandTable _,
      .inr (.inl ⟨rfl, rfl, rfl, rfl⟩)⟩
  · exact ⟨framePlanes c (constPlane c 0xFF#8), [.setState .busy], [], [.wait], [], _,
      by simp [programClear, refreshWait], plain_framePlanes _ (plain_constPlane _ _), by simp, by simp,
      .inr (.inr (.inl ⟨.inl rfl, rfl, rfl, rfl⟩))⟩
  · exact ⟨framePlanes c (bufferPlane c), [.setState .busy], [], [.wait], [], _,
      by simp [programWriteFrame, refreshWait], plain_framePlanes _ (plain_bufferPlane _), by simp, by simp,
      .inr (.inr (.inl ⟨.inr rfl, rfl, rfl, rfl⟩))⟩
  · exact ⟨[], [], [], [.wait], [], _, by simp [programWaitIdle], by simp, by simp, by simp,
      .inr (.inr (.inr ⟨rfl, rfl, rfl, rfl, rfl⟩))⟩

theorem getElem?_append_cases {α : Type} {l m : List α} {n : Nat} {u : α} (h : (l ++ m)[n]? = some u) :
    (n < l.length ∧ u ∈ l) ∨ (l.length ≤ n ∧ m[n - l.length]? = some u) := by
  by_cases hn : n < l.length
  · rw [List.getElem?_append_left hn] at h
    exact .inl ⟨hn, List.mem_of_getElem? h⟩
  · rw [List.getElem?_append_right (by omega)] at h
    exact .inr ⟨by omega, h⟩

theorem legalOp_of_getElem? {c : Config} {op : BitVec 4} {n : Nat} {u : MicroOp}
    (h : (program c op)[n]? = some u) : legalOp op := by
  by_contra hl
  rw [program_illegal c hl] at h
  simp at h

@[simp] theorem stateAfter_plain {d : DriverState} {u : MicroOp} (h : plain u = true) : stateAfter d u = d := by
  cases u <;> simp_all [plain, stateAfter]

theorem foldl_plain {l : List MicroOp} (h : ∀ u ∈ l, plain u = true) (d : DriverState) :
    l.foldl stateAfter d = d := by
  induction l generalizing d with
  | nil => rfl
  | cons u l ih => simp [h u (by simp), ih (fun v hv => h v (by simp [hv]))]

/-- END is the program's last micro-op, and the only one. -/
theorem finish_at {c : Config} {op : BitVec 4} {n : Nat} {a b : DriverState}
    (h : (program c op)[n]? = some (.finish a b)) : n = endIndex c op := by
  obtain ⟨A, S, B, W, C, F, hp, hA, hB, hC, hcase⟩ := program_shape c (legalOp_of_getElem? h)
  have hS : ∀ u ∈ S, u ≠ .finish a b := by
    rcases hcase with ⟨_, rfl, _⟩ | ⟨_, rfl, _⟩ | ⟨_, rfl, _⟩ | ⟨_, rfl, _⟩ <;> simp
  have hW : ∀ u ∈ W, u ≠ .finish a b := by
    rcases hcase with ⟨_, _, _, rfl, _⟩ | ⟨_, _, rfl, _⟩ | ⟨_, _, rfl, _⟩ | ⟨_, _, _, rfl, _⟩ <;> simp
  unfold endIndex
  rw [hp] at h ⊢
  rcases getElem?_append_cases h with ⟨_, hu⟩ | ⟨h1, h⟩
  · exact absurd (hA _ hu) (by simp [plain])
  rcases getElem?_append_cases h with ⟨_, hu⟩ | ⟨h2, h⟩
  · exact absurd rfl (hS _ hu)
  rcases getElem?_append_cases h with ⟨_, hu⟩ | ⟨h3, h⟩
  · exact absurd (hB _ hu) (by simp [plain])
  rcases getElem?_append_cases h with ⟨_, hu⟩ | ⟨h4, h⟩
  · exact absurd rfl (hW _ hu)
  rcases getElem?_append_cases h with ⟨_, hu⟩ | ⟨h5, h⟩
  · exact absurd (hC _ hu) (by simp [plain])
  have h6 := (List.getElem?_eq_some_iff.1 h).1
  simp only [List.length_append, List.length_singleton] at h6 ⊢
  omega

/-- The last micro-op of a program is END, with the states of 42_sequencer.md R134. -/
theorem endIndex_finish (c : Config) {op : BitVec 4} (h : legalOp op) :
    (program c op)[endIndex c op]?
      = some (if op = 1#4 then .finish .resetting .resetting
              else if op = 2#4 then .finish .idle .failed else .finish .idle .busy) := by
  obtain ⟨A, S, B, W, C, F, hp, -, -, -, hcase⟩ := program_shape c h
  have hF : (program c op)[endIndex c op]? = some F := by
    rw [show endIndex c op = (program c op).length - 1 from rfl, hp, ← List.getLast?_eq_getElem?]
    simp [← List.append_assoc]
  rw [hF]
  rcases hcase with ⟨rfl, _, _, _, rfl⟩ | ⟨rfl, _, _, rfl⟩ | ⟨rfl | rfl, _, _, rfl⟩ | ⟨rfl, _, _, _, rfl⟩ <;> rfl

/-- After every micro-op but END there is another. -/
theorem next_exists {c : Config} {op : BitVec 4} {n : Nat} {u : MicroOp}
    (h : (program c op)[n]? = some u) (hu : ∀ a b, u ≠ .finish a b) :
    ∃ v, (program c op)[n + 1]? = some v := by
  have hl := legalOp_of_getElem? h
  have hn := (List.getElem?_eq_some_iff.1 h).1
  have hne : n ≠ endIndex c op := by
    intro he
    rw [he, endIndex_finish c hl] at h
    split at h
    · exact hu _ _ (Option.some.inj h).symm
    · split at h <;> exact hu _ _ (Option.some.inj h).symm
  unfold endIndex at hne
  exact ⟨_, List.getElem?_eq_getElem (by omega)⟩

/-- The DriverState moves along a program as its micro-ops say. -/
theorem stateAt_succ {c : Config} {op : BitVec 4} {n : Nat} {u : MicroOp}
    (h : (program c op)[n]? = some u) : stateAt c op (n + 1) = stateAfter (stateAt c op n) u := by
  unfold stateAt
  rw [List.take_add_one, h, List.foldl_append]
  rfl

@[simp] theorem stateAt_zero (c : Config) (op : BitVec 4) : stateAt c op 0 = entryState op := by
  simp [stateAt]

/-- A SETSTATE is INIT's after the pulse or a frame command's after the refresh trigger, and the state
before it is the entry state. -/
theorem setState_at {c : Config} {op : BitVec 4} {n : Nat} {d : DriverState}
    (h : (program c op)[n]? = some (.setState d)) :
    stateAt c op n = entryState op
      ∧ ((op = 2#4 ∧ d = .initializing) ∨ ((op = 3#4 ∨ op = 4#4) ∧ d = .busy)) := by
  obtain ⟨A, S, B, W, C, F, hp, hA, hB, hC, hcase⟩ := program_shape c (legalOp_of_getElem? h)
  have hF : F ≠ .setState d := by
    rcases hcase with ⟨_, _, _, _, rfl⟩ | ⟨_, _, _, rfl⟩ | ⟨_, _, _, rfl⟩ | ⟨_, _, _, _, rfl⟩ <;> simp
  have hW : ∀ u ∈ W, u ≠ .setState d := by
    rcases hcase with ⟨_, _, _, rfl, _⟩ | ⟨_, _, rfl, _⟩ | ⟨_, _, rfl, _⟩ | ⟨_, _, _, rfl, _⟩ <;> simp
  have h0 := h
  rw [hp] at h
  rcases getElem?_append_cases h with ⟨_, hu⟩ | ⟨h1, h⟩
  · exact absurd (hA _ hu) (by simp [plain])
  rcases getElem?_append_cases h with ⟨hlt, hu⟩ | ⟨h2, h⟩
  · have hlen : S.length ≤ 1 := by
      rcases hcase with ⟨_, rfl, _⟩ | ⟨_, rfl, _⟩ | ⟨_, rfl, _⟩ | ⟨_, rfl, _⟩ <;> simp
    obtain rfl : n = A.length := by omega
    refine ⟨?_, ?_⟩
    · unfold stateAt
      rw [hp, List.take_left]
      exact foldl_plain hA _
    · rcases hcase with ⟨_, rfl, _⟩ | ⟨ho, rfl, _⟩ | ⟨ho, rfl, _⟩ | ⟨_, rfl, _⟩
      · simp at hu
      · exact .inl ⟨ho, by simpa using hu⟩
      · exact .inr ⟨ho, by simpa using hu⟩
      · simp at hu
  rcases getElem?_append_cases h with ⟨_, hu⟩ | ⟨h3, h⟩
  · exact absurd (hB _ hu) (by simp [plain])
  rcases getElem?_append_cases h with ⟨_, hu⟩ | ⟨h4, h⟩
  · exact absurd rfl (hW _ hu)
  rcases getElem?_append_cases h with ⟨_, hu⟩ | ⟨h5, h⟩
  · exact absurd (hC _ hu) (by simp [plain])
  have := List.mem_of_getElem? h
  simp only [List.mem_singleton] at this
  exact absurd this.symm hF

/-- The state a program has reached at its END. -/
theorem stateAt_end (c : Config) {op : BitVec 4} (h : legalOp op) :
    stateAt c op (endIndex c op)
      = if op = 1#4 then .resetting else if op = 2#4 then .initializing else .busy := by
  obtain ⟨A, S, B, W, C, F, hp, hA, hB, hC, hcase⟩ := program_shape c h
  have ht : (program c op).take (endIndex c op) = A ++ (S ++ (B ++ (W ++ C))) := by
    rw [show endIndex c op = (program c op).length - 1 from rfl, ← List.dropLast_eq_take, hp]
    simp [← List.append_assoc]
  unfold stateAt
  rw [ht]
  simp only [List.foldl_append, foldl_plain hA, foldl_plain hB, foldl_plain hC]
  rcases hcase with ⟨rfl, rfl, _, rfl, _⟩ | ⟨rfl, rfl, rfl, _⟩ | ⟨rfl | rfl, rfl, rfl, _⟩ | ⟨rfl, rfl, _, rfl, _⟩ <;>
    simp [stateAfter, entryState]

/-- Nothing between a WAIT and END changes the state. -/
theorem stateAt_wait {c : Config} {op : BitVec 4} {n : Nat} (h : (program c op)[n]? = some .wait) :
    stateAt c op n = stateAt c op (endIndex c op) := by
  have hl := legalOp_of_getElem? h
  rw [stateAt_end c hl]
  obtain ⟨A, S, B, W, C, F, hp, hA, hB, hC, hcase⟩ := program_shape c hl
  have hF : F ≠ .wait := by
    rcases hcase with ⟨_, _, _, _, rfl⟩ | ⟨_, _, _, rfl⟩ | ⟨_, _, _, rfl⟩ | ⟨_, _, _, _, rfl⟩ <;> simp
  have hS : ∀ u ∈ S, u ≠ .wait := by
    rcases hcase with ⟨_, rfl, _⟩ | ⟨_, rfl, _⟩ | ⟨_, rfl, _⟩ | ⟨_, rfl, _⟩ <;> simp
  have hWl : W.length ≤ 1 := by
    rcases hcase with ⟨_, _, _, rfl, _⟩ | ⟨_, _, rfl, _⟩ | ⟨_, _, rfl, _⟩ | ⟨_, _, _, rfl, _⟩ <;> simp
  rw [hp] at h
  rcases getElem?_append_cases h with ⟨_, hu⟩ | ⟨h1, h⟩
  · exact absurd (hA _ hu) (by simp [plain])
  rcases getElem?_append_cases h with ⟨_, hu⟩ | ⟨h2, h⟩
  · exact absurd rfl (hS _ hu)
  rcases getElem?_append_cases h with ⟨_, hu⟩ | ⟨h3, h⟩
  · exact absurd (hB _ hu) (by simp [plain])
  rcases getElem?_append_cases h with ⟨h4, hu⟩ | ⟨h4, h⟩
  · have hn : n = (A ++ (S ++ B)).length := by simp only [List.length_append]; omega
    have ht : (program c op).take n = A ++ (S ++ B) := by
      rw [hp, hn, show A ++ (S ++ (B ++ (W ++ (C ++ [F])))) = (A ++ (S ++ B)) ++ (W ++ (C ++ [F])) by simp,
        List.take_left]
    unfold stateAt
    rw [ht]
    simp only [List.foldl_append, foldl_plain hA, foldl_plain hB]
    rcases hcase with ⟨rfl, rfl, _, rfl, _⟩ | ⟨rfl, rfl, rfl, _⟩ | ⟨rfl | rfl, rfl, rfl, _⟩ | ⟨rfl, rfl, _, rfl, _⟩ <;>
      first | (simp at hu; done) | simp [stateAfter, entryState]
  rcases getElem?_append_cases h with ⟨_, hu⟩ | ⟨h5, h⟩
  · exact absurd (hC _ hu) (by simp [plain])
  have := List.mem_of_getElem? h
  simp only [List.mem_singleton] at this
  exact absurd this.symm hF

/-- SETRST, DELAY, BYTE and SETSTATE: the micro-ops of a fixed duration but END. -/
def timed : MicroOp → Bool
  | .setRst _ | .delay _ | .byte _ _ | .setState _ => true
  | .wait | .finish _ _ => false

/-- END's states by OP, and where END stands (42_sequencer.md R134). -/
theorem finish_states {c : Config} {op : BitVec 4} {n a b} (h : (program c op)[n]? = some (.finish a b)) :
   n = endIndex c op ∧ ((op = 1#4 ∧ a = .resetting ∧ b = .resetting) ∨ (op = 2#4 ∧ a = .idle ∧ b = .failed) ∨ ((op = 3#4 ∨ op = 4#4 ∨ op = 5#4) ∧ a = .idle ∧ b = .busy)) := by
  have h1 := finish_at h
  refine ⟨h1, ?_⟩
  have hl := legalOp_of_getElem? h
  rw [h1, endIndex_finish c hl] at h
  rcases hl with rfl | rfl | rfl | rfl | rfl <;> simp at h <;> (obtain ⟨rfl, rfl⟩ := h; simp)

/-- A program has at most one WAIT. -/
theorem wait_unique {c : Config} {op : BitVec 4} {n m : Nat} (hn : (program c op)[n]? = some .wait)
    (hm : (program c op)[m]? = some .wait) : n = m := by
  have hl := legalOp_of_getElem? hn
  obtain ⟨A, S, B, W, C, F, hp, hA, hB, hC, hcase⟩ := program_shape c hl
  have hF : F ≠ .wait := by
    rcases hcase with ⟨_, _, _, _, rfl⟩ | ⟨_, _, _, rfl⟩ | ⟨_, _, _, rfl⟩ | ⟨_, _, _, _, rfl⟩ <;> simp
  have hS : ∀ u ∈ S, u ≠ .wait := by
    rcases hcase with ⟨_, rfl, _⟩ | ⟨_, rfl, _⟩ | ⟨_, rfl, _⟩ | ⟨_, rfl, _⟩ <;> simp
  have hWl : W.length ≤ 1 := by
    rcases hcase with ⟨_, _, _, rfl, _⟩ | ⟨_, _, rfl, _⟩ | ⟨_, _, rfl, _⟩ | ⟨_, _, _, rfl, _⟩ <;> simp
  have key : ∀ n, (program c op)[n]? = some .wait → n = (A ++ (S ++ B)).length := by
    intro n h
    rw [hp] at h
    rcases getElem?_append_cases h with ⟨_, hu⟩ | ⟨h1, h⟩
    · exact absurd (hA _ hu) (by simp [plain])
    rcases getElem?_append_cases h with ⟨_, hu⟩ | ⟨h2, h⟩
    · exact absurd rfl (hS _ hu)
    rcases getElem?_append_cases h with ⟨_, hu⟩ | ⟨h3, h⟩
    · exact absurd (hB _ hu) (by simp [plain])
    rcases getElem?_append_cases h with ⟨h4, hu⟩ | ⟨h4, h⟩
    · simp only [List.length_append]; omega
    rcases getElem?_append_cases h with ⟨_, hu⟩ | ⟨h5, h⟩
    · exact absurd (hC _ hu) (by simp [plain])
    have := List.mem_of_getElem? h
    simp only [List.mem_singleton] at this
    exact absurd this.symm hF
  rw [key n hn, key m hm]

theorem no_delay0_plane {p : List MicroOp} (c : Config) (hp : MicroOp.delay 0 ∉ p) :
    MicroOp.delay 0 ∉ framePlanes c p := by
  have : ∀ b, MicroOp.delay 0 ∉ constPlane c b := by
    intro b h; have := List.eq_of_mem_replicate h; simp [sendData] at this
  cases hv : c.panelVariant <;> simp [framePlanes, hv, sendCommand, hp, this]

/-- No program has a DELAY of 0 ms. -/
theorem no_delay0 (c : Config) (op) : MicroOp.delay 0 ∉ program c op := by
  by_cases hl : legalOp op
  · rcases hl with rfl | rfl | rfl | rfl | rfl
    · simp [programReset, rstPulse, Config.resetDwellMs]
    · have he : ∀ e, MicroOp.delay 0 ∉ expandEntry e := by intro e; simp [expandEntry, sendCommand, sendData]
      have hr : ∀ l, MicroOp.delay 0 ∉ expandRest l := by
        intro l; induction l with
        | nil => simp [expandRest]
        | cons e es ih => simp [expandRest, he, ih, Config.settleMs]
      have ht : ∀ l, MicroOp.delay 0 ∉ expandTable l := by
        intro l; cases l <;> simp [expandTable, he, hr]
      simp [programInit, ht, rstPulse, Config.resetDwellMs, sendCommand]
    · have : MicroOp.delay 0 ∉ constPlane c 0xFF#8 := by
        intro h; have := List.eq_of_mem_replicate h; simp [sendData] at this
      have := no_delay0_plane c this
      simp [programClear, this, refreshWait]
    · have : MicroOp.delay 0 ∉ bufferPlane c := by simp [bufferPlane]
      have := no_delay0_plane c this
      simp [programWriteFrame, this, refreshWait]
    · simp [programWaitIdle]
  · rw [program_illegal c hl]; simp

/-- Frame bytes are read by WRITE_FRAME alone, inside the plane (20_memory.md R67). -/
theorem frame_index {c : Config} {op : BitVec 4} {dc k} (h : .byte dc (.frame k) ∈ program c op) : op = 4#4
    ∧ k < planeBytes c := by
  by_cases hl : legalOp op
  · have hcp : ∀ b, MicroOp.byte dc (.frame k) ∉ constPlane c b := by
      intro b h; have := List.eq_of_mem_replicate h; simp [sendData] at this
    have hfp : ∀ p, MicroOp.byte dc (.frame k) ∈ framePlanes c p → MicroOp.byte dc (.frame k) ∈ p := by
      intro p h; cases hv : c.panelVariant <;> simpa [framePlanes, hv, sendCommand, hcp] using h
    rcases hl with rfl | rfl | rfl | rfl | rfl
    · simp [programReset, rstPulse] at h
    · have he : ∀ e, MicroOp.byte dc (.frame k) ∉ expandEntry e := by intro e; simp [expandEntry, sendCommand, sendData]
      have hr : ∀ l, MicroOp.byte dc (.frame k) ∉ expandRest l := by
        intro l; induction l with
        | nil => simp [expandRest]
        | cons e es ih => simp [expandRest, he, ih]
      have ht : ∀ l, MicroOp.byte dc (.frame k) ∉ expandTable l := by
        intro l; cases l <;> simp [expandTable, he, hr]
      simp [programInit, ht, rstPulse, sendCommand] at h
    · simp only [program_three, programClear, List.mem_append] at h
      rcases h with h | h
      · exact absurd (hfp _ h) (hcp _)
      · simp [refreshWait] at h
    · simp only [program_four, programWriteFrame, List.mem_append] at h
      rcases h with h | h
      · have := hfp _ h
        simp only [bufferPlane, List.mem_map, List.mem_range] at this
        obtain ⟨a, ha, e⟩ := this
        cases e; exact ⟨rfl, ha⟩
      · simp [refreshWait] at h
    · simp [programWaitIdle] at h
  · rw [program_illegal c hl] at h; simp at h

end Machine
end Sys2Proof
end

