-- ==== Sys2Proof/Laws/Sequencer.lean ====
section
/-! SUPPORT. The times of a legal build, and one equation per micro-op edge. -/

namespace Sys2Proof
namespace Machine

theorem planeBytes_eq {c : Config} (h : c.sourceValues = true) : planeBytes c = 4736 := by
  simp [Config.sourceValues] at h
  simp [planeBytes, h]

theorem halfPeriod_pos {c : Config} (h : c.wf = true) : 1 ≤ halfPeriod c := by
  simp [Config.wf, Config.clockOk] at h
  have hd := Nat.div_add_mod c.clkHz (2 * c.spiHzMax)
  unfold halfPeriod
  rcases Nat.eq_zero_or_pos (c.clkHz / (2 * c.spiHzMax)) with h0 | h0
  · rw [h0, Nat.mul_zero, Nat.zero_add] at hd
    rw [if_neg (by omega)]
    omega
  · omega

theorem cyclesPerMs_pos {c : Config} (h : c.wf = true) : 1 ≤ cyclesPerMs c := by
  simp [Config.wf, Config.clockOk] at h
  unfold cyclesPerMs; omega

theorem pollMs_pos {c : Config} (h : c.wf = true) : 1 ≤ c.pollMs ∧ c.pollMs < 4294967296 := by
  simp [Config.wf, Config.ratesOk] at h
  omega

theorem pollEdges_pos {c : Config} (h : c.wf = true) : 1 ≤ pollEdges c :=
  Nat.mul_pos (pollMs_pos h).1 (cyclesPerMs_pos h)

theorem lastSample_pos (c : Config) (t : Word) : 1 ≤ lastSample c t := by unfold lastSample; omega

/-- M is the first sample at which the timeout test holds (45_busy_wait.md R186). -/
theorem lastSample_le_iff {c : Config} (h : c.wf = true) {t : Word} {m : Nat} (hm : 1 ≤ m) :
    lastSample c t ≤ m ↔ t.toNat ≤ c.pollMs * m := by
  have hp := (pollMs_pos h).1
  unfold lastSample
  rw [Nat.max_le, Nat.div_le_iff_le_mul_add_pred hp, Nat.add_le_add_iff_right]
  exact and_iff_right hm

theorem lastSample_mono (c : Config) (t : Word) : lastSample c t ≤ lastSample c 0xFFFFFFFF#32 := by
  have ht : t.toNat ≤ (0xFFFFFFFF#32).toNat := by
    have := t.isLt
    show t.toNat ≤ 4294967295
    omega
  exact max_le_max (le_refl 1) (Nat.div_le_div_right (by omega))

/-- The largest elapsed time fits the 33 bits of st.elapsed (10_state.md R36). -/
theorem lastSample_fits {c : Config} (h : c.wf = true) (t : Word) : c.pollMs * lastSample c t < 8589934592 := by
  obtain ⟨h1, h2⟩ := pollMs_pos h
  have ht := t.isLt
  unfold lastSample
  rcases Nat.le_total ((t.toNat + (c.pollMs - 1)) / c.pollMs) 1 with hm | hm
  · rw [Nat.max_eq_left hm]; omega
  · rw [Nat.max_eq_right hm]
    have := Nat.mul_div_le (t.toNat + (c.pollMs - 1)) c.pollMs
    omega

/-- With a poll interval of 10 ms the largest elapsed time is 4 294 967 300 (log 19). -/
theorem lastSample_ten {c : Config} (h : c.pollMs = 10) : c.pollMs * lastSample c 0xFFFFFFFF#32 = 4294967300 := by
  unfold lastSample; rw [h]; decide

theorem addrW_le {c : Config} (h : c.wf = true) : c.addrW ≤ 32 := by
  simp [Config.wf, Config.widthsOk] at h
  omega

/-- The address of a frame byte, as a number (20_memory.md R67). -/
theorem frameAddr_toNat {s : State} (h : s.cfg.addrW ≤ 32) (k : Nat) :
    (frameAddr s k).toNat = (s.opBase.toNat + k) % 2 ^ s.cfg.addrW := by
  rw [frameAddr, BitVec.toNat_ofNat, Nat.mod_eq_of_lt]
  exact Nat.lt_of_lt_of_le (Nat.mod_lt _ (Nat.two_pow_pos _)) (Nat.pow_le_pow_right (by decide) h)

/-- Every micro-op of a legal build takes at least one edge, but for a DELAY of 0 ms, which no program has. -/
theorem microDur_pos {c : Config} (h : c.wf = true) (t : Word) {u : MicroOp} (hu : u ≠ .delay 0) :
    1 ≤ microDur c t u := by
  cases u with
  | delay ms =>
    have := cyclesPerMs_pos h
    have : 1 ≤ ms := by
      rcases Nat.eq_zero_or_pos ms with rfl | h
      · exact absurd rfl hu
      · exact h
    exact Nat.mul_pos this ‹1 ≤ cyclesPerMs c›
  | _ => simp [microDur, byteDur]

/-! What a slot drives (40_adapter.md R107), pin by pin. -/

@[simp] theorem byteSlot_pinDc (dc : Bool) (n : Nat) (s : State) :
    (byteSlot dc n s).pinDc = if n = 0 then dc else s.pinDc := by
  unfold byteSlot; repeat' split
  all_goals rfl

@[simp] theorem byteSlot_pinCs (dc : Bool) (n : Nat) (s : State) :
    (byteSlot dc n s).pinCs = if n = 1 then false else if n = 18 then true else s.pinCs := by
  unfold byteSlot
  by_cases h0 : n = 0
  · simp [h0]
  by_cases h1 : n = 1
  · simp [h1]
  by_cases h2 : n ≤ 17 ∧ n % 2 = 0
  · simp [h0, h1, h2, show n ≠ 18 by omega]
  by_cases h3 : n < 17
  · simp [h0, h1, h2, h3, show n ≠ 18 by omega]
  by_cases h4 : n = 17
  · simp [h4]
  by_cases h5 : n = 18 <;> simp [h0, h1, h2, h3, h4, h5]

@[simp] theorem byteSlot_pinSclk (dc : Bool) (n : Nat) (s : State) :
    (byteSlot dc n s).pinSclk
      = if 2 ≤ n ∧ n ≤ 16 ∧ n % 2 = 0 then true
        else if 3 ≤ n ∧ n ≤ 17 ∧ n % 2 = 1 then false else s.pinSclk := by
  unfold byteSlot
  by_cases h0 : n = 0
  · simp [h0]
  by_cases h1 : n = 1
  · simp [h1]
  by_cases h2 : n ≤ 17 ∧ n % 2 = 0
  · simp [h0, h1, h2, show 2 ≤ n ∧ n ≤ 16 by omega]
  by_cases h3 : n < 17
  · have h : ¬ (2 ≤ n ∧ n ≤ 16 ∧ n % 2 = 0) := by omega
    simp [h0, h1, h3, show 3 ≤ n ∧ n ≤ 17 ∧ n % 2 = 1 by omega]
  by_cases h4 : n = 17
  · simp [h4]
  have h : ¬ (2 ≤ n ∧ n ≤ 16 ∧ n % 2 = 0) := by omega
  have h' : ¬ (3 ≤ n ∧ n ≤ 17 ∧ n % 2 = 1) := by omega
  by_cases h5 : n = 18 <;> simp [h0, h1, h2, h3, h4, h5, h, h']

@[simp] theorem byteSlot_pinMosi (dc : Bool) (n : Nat) (s : State) :
    (byteSlot dc n s).pinMosi
      = if n = 0 then s.sh.getLsbD 7
        else if 3 ≤ n ∧ n ≤ 15 ∧ n % 2 = 1 then s.sh.getLsbD (6 - (n - 3) / 2) else s.pinMosi := by
  unfold byteSlot
  by_cases h0 : n = 0
  · simp [h0]
  by_cases h1 : n = 1
  · simp [h1]
  by_cases h2 : n ≤ 17 ∧ n % 2 = 0
  · simp [h0, h1, h2]
  by_cases h3 : n < 17
  · simp [h0, h1, h3, show 3 ≤ n ∧ n ≤ 15 ∧ n % 2 = 1 by omega]
  have h' : ¬ (3 ≤ n ∧ n ≤ 15 ∧ n % 2 = 1) := by omega
  by_cases h4 : n = 17
  · simp [h4]
  by_cases h5 : n = 18 <;> simp [h0, h1, h2, h3, h4, h5, h']

/-- The fetch edge (40_adapter.md R106). -/
theorem byteAction_fetch (dc : Bool) (b : Byte) {s : State} (h : s.cnt = 0) :
    byteAction dc b s = { s with sh := b } := if_pos h

/-- The first edge of slot `n` (40_adapter.md R105). -/
theorem byteAction_slot (dc : Bool) (b : Byte) {s : State} {n : Nat} (hc : s.cfg.wf = true)
    (h : s.cnt = 1 + n * halfPeriod s.cfg) : byteAction dc b s = byteSlot dc n s := by
  have hp := halfPeriod_pos hc
  have e1 : s.cnt - 1 = n * halfPeriod s.cfg := by omega
  unfold byteAction
  rw [if_neg (by omega), e1, if_pos (Nat.mul_mod_left _ _), Nat.mul_div_cancel _ hp]

/-- The other edges of a slot (40_adapter.md R105). -/
theorem byteAction_quiet (dc : Bool) (b : Byte) {s : State} (h0 : s.cnt ≠ 0)
    (h : (s.cnt - 1) % halfPeriod s.cfg ≠ 0) : byteAction dc b s = s := by
  unfold byteAction
  rw [if_neg h0, if_neg h]

/-- The last edge of a BYTE. -/
theorem byteDur_last (c : Config) (k : Nat) : k + 1 = byteDur c ↔ k = 20 * halfPeriod c := by
  unfold byteDur; omega

/-- A BYTE edge writes st.sh, the four bus pins and the counters (40_adapter.md R104). -/
theorem byteEdge_writes (dc : Bool) (b : Byte) (s : State) :
    byteEdge dc b s =
      { s with
        sh := (byteEdge dc b s).sh, pinDc := (byteEdge dc b s).pinDc, pinCs := (byteEdge dc b s).pinCs
        pinSclk := (byteEdge dc b s).pinSclk, pinMosi := (byteEdge dc b s).pinMosi
        upc := (byteEdge dc b s).upc, cnt := (byteEdge dc b s).cnt } := by
  have h_cfg := byteEdge_cfg dc b s
  have h_state := byteEdge_state dc b s
  have h_active := byteEdge_active dc b s
  have h_op := byteEdge_op dc b s
  have h_opTimeout := byteEdge_opTimeout dc b s
  have h_opBase := byteEdge_opBase dc b s
  have h_elapsed := byteEdge_elapsed dc b s
  have h_timedOut := byteEdge_timedOut dc b s
  have h_result := byteEdge_result dc b s
  have h_lastOp := byteEdge_lastOp dc b s
  have h_dropped := byteEdge_dropped dc b s
  have h_busyS1 := byteEdge_busyS1 dc b s
  have h_busyMid := byteEdge_busyMid dc b s
  have h_busySync := byteEdge_busySync dc b s
  have h_timeoutMs := byteEdge_timeoutMs dc b s
  have h_frameBase := byteEdge_frameBase dc b s
  have h_frameLen := byteEdge_frameLen dc b s
  have h_pinRst := byteEdge_pinRst dc b s
  have h_mem := byteEdge_mem dc b s
  have h_contended := byteEdge_contended dc b s
  have h_inputs := byteEdge_inputs dc b s
  have h_cycle := byteEdge_cycle dc b s
  generalize byteEdge dc b s = t at *
  apply State.ext <;> first | rfl | assumption

theorem dur_pos_at {c : Config} (h : c.wf = true) {op : BitVec 4} {n : Nat} {u : MicroOp} (t : Word)
    (hu : (program c op)[n]? = some u) : 1 ≤ microDur c t u :=
  microDur_pos h t (fun e => no_delay0 c op (e ▸ List.mem_of_getElem? hu))

/-- Everything one edge of a WAIT can do (45_busy_wait.md R186, R188). -/
theorem wait_cases (s : State) :
  (s.cnt = 0 ∧ waitEdge s = { s with elapsed := 0#33, cnt := 1 })
  ∨ (s.cnt ≠ 0 ∧ s.cnt % pollEdges s.cfg ≠ 0 ∧ waitEdge s = { s with cnt := s.cnt + 1 })
  ∨ (s.cnt ≠ 0 ∧ ∃ m, s.cnt = pollEdges s.cfg * m ∧ 1 ≤ m ∧ panelIdle s = true ∧ waitEdge s = { s with elapsed := BitVec.ofNat 33 (s.cfg.pollMs * m), upc := s.upc + 1, cnt := 0 })
  ∨ (s.cnt ≠ 0 ∧ ∃ m, s.cnt = pollEdges s.cfg * m ∧ 1 ≤ m ∧ panelIdle s = false ∧ s.opTimeout.toNat ≤ s.cfg.pollMs * m ∧ waitEdge s = { s with elapsed := BitVec.ofNat 33 (s.cfg.pollMs * m), timedOut := true, upc := endIndex s.cfg s.op, cnt := 0 })
  ∨ (s.cnt ≠ 0 ∧ ∃ m, s.cnt = pollEdges s.cfg * m ∧ 1 ≤ m ∧ panelIdle s = false ∧ s.cfg.pollMs * m < s.opTimeout.toNat ∧ waitEdge s = { s with elapsed := BitVec.ofNat 33 (s.cfg.pollMs * m), cnt := s.cnt + 1 }) := by
  by_cases h0 : s.cnt = 0
  · left; exact ⟨h0, by unfold waitEdge; rw [if_pos h0]⟩
  by_cases hm : s.cnt % pollEdges s.cfg = 0
  · right; right
    have e1 : pollEdges s.cfg * (s.cnt / pollEdges s.cfg) = s.cnt := Nat.mul_div_cancel' (Nat.dvd_of_mod_eq_zero hm)
    have hm1 : 1 ≤ s.cnt / pollEdges s.cfg := by
      rcases Nat.eq_zero_or_pos (s.cnt / pollEdges s.cfg) with h | h
      · rw [h] at e1; omega
      · exact h
    have hw : waitEdge s = waitSample (s.cnt / pollEdges s.cfg) s := by unfold waitEdge; rw [if_neg h0, if_pos hm]
    rw [hw]
    unfold waitSample
    cases hp : panelIdle s
    · right
      by_cases ht : s.opTimeout.toNat ≤ s.cfg.pollMs * (s.cnt / pollEdges s.cfg)
      · left; refine ⟨h0, _, e1.symm, hm1, rfl, ht, ?_⟩
        rw [if_neg (by simp), if_pos (by exact ht)]; rfl
      · right; refine ⟨h0, _, e1.symm, hm1, rfl, by omega, ?_⟩
        rw [if_neg (by simp), if_neg (by exact ht)]
    · left; exact ⟨h0, _, e1.symm, hm1, rfl, by rw [if_pos (by rfl)]; rfl⟩
  · right; left; exact ⟨h0, hm, by unfold waitEdge; rw [if_neg h0, if_neg hm]⟩

/-- The slot count of the waveform where slot `n` begins. -/
theorem begun_slot {h k n : Nat} (hp : 1 ≤ h) (hk : k = 1 + n * h) : slotsBegun h k = n
    ∧ slotsBegun h (k+1) = n + 1 := by
  unfold slotsBegun
  constructor
  · rcases Nat.eq_zero_or_pos n with rfl | hn
    · rw [if_pos (by omega)]
    · have : 1 ≤ n * h := Nat.mul_pos hn hp
      rw [if_neg (by omega)]
      obtain ⟨m, rfl⟩ : ∃ m, n = m + 1 := ⟨n-1, by omega⟩
      have : (k - 2) / h = m := by
        rw [Nat.div_eq_iff (by omega)]
        rw [Nat.add_mul] at hk
        constructor <;> omega
      omega
  · rw [if_neg (by omega)]
    have : (k + 1 - 2) / h = n := by
      have : k + 1 - 2 = n * h := by omega
      rw [this, Nat.mul_div_cancel _ (by omega)]
    omega

/-- The slot count stays inside a slot. -/
theorem begun_quiet {h k : Nat} (_hp : 1 ≤ h) (hk : 1 ≤ k)
    (hm : (k-1) % h ≠ 0) : slotsBegun h (k+1) = slotsBegun h k := by
  unfold slotsBegun
  have hk2 : 2 ≤ k := by
    rcases Nat.lt_or_ge k 2 with h' | h'
    · have : k = 1 := by omega
      rw [this] at hm; simp at hm
    · exact h'
  rw [if_neg (by omega), if_neg (by omega)]
  obtain ⟨j, rfl⟩ : ∃ j, k = j + 2 := ⟨k-2, by omega⟩
  have e1 : j + 2 + 1 - 2 = j + 1 := by omega
  have e2 : j + 2 - 2 = j := by omega
  have e3 : j + 2 - 1 = j + 1 := by omega
  rw [e3] at hm
  rw [e1, e2, Nat.succ_div, if_neg (fun hd => hm (Nat.mod_eq_zero_of_dvd hd))]

/-- All twenty slots have begun at the end of a BYTE. -/
theorem begun_end {h : Nat} (hp : 1 ≤ h) : slotsBegun h (1 + 20 * h) = 20 := by
  unfold slotsBegun; rw [if_neg (by omega)]
  have : (1 + 20 * h - 2) / h = 19 := by
    rw [Nat.div_eq_iff (by omega)]; constructor <;> omega
  omega

end Machine
end Sys2Proof
end

