-- ==== Sys2Proof/Laws/Step.lean ====
section
/-! SUPPORT. What one step can do, said once: block reset, an inactive edge, the abort, or one edge of
the current micro-op (42_sequencer.md R135, R136). -/

namespace Sys2Proof
namespace Machine

/-- The register bus at one edge, as a function. -/
def busNext (i : Inputs) (s : State) : State :=
  if i.regWe then
    match regAt i.regAddr with
    | .cmd => if (decodeHost i.regWdata).isOk then hostCommand (hostOp i.regWdata) s
              else illegalCommand (hostOp i.regWdata) s
    | r => writeReg r i.regWdata s
  else s

theorem busPhase_eq (i : Inputs) (s : State) : busPhase i s = .next (busNext i s) := by
  unfold busPhase busNext
  split
  · split <;> simp_all [cmdWrite_eq]
  · rfl

/-- One edge of a micro-op, as a function. -/
def microNext (i : Inputs) (s : State) : MicroOp → State
  | .setRst v => setRstEdge v s
  | .delay ms => delayEdge ms s
  | .byte dc src => byteEdge dc (sourceByte i s src) s
  | .wait => waitEdge s
  | .setState d => setStateEdge d s
  | .finish a b => finishEdge a b s

theorem microEdge_eq (i : Inputs) (s : State) (u : MicroOp) : microEdge i s u = .next (microNext i s u) := by
  cases u <;> simp [microEdge, microNext]

@[simp] theorem andThen_next (s : State) (f : State → Result) : andThen (.next s) f = f s := rfl

/-- With ACTIVE = 1 the bus reaches the three registers and DROPPED only (42_sequencer.md R132). -/
theorem busNext_active (i : Inputs) {s : State} (h : s.active = true) :
    ∃ d t b l, busNext i s = { s with dropped := d, timeoutMs := t, frameBase := b, frameLen := l } := by
  unfold busNext
  split
  · split
    · split <;> simp only [hostCommand_of_active h, illegalCommand_of_active h] <;>
        exact ⟨true, s.timeoutMs, s.frameBase, s.frameLen, rfl⟩
    · cases regAt i.regAddr <;> exact ⟨_, _, _, _, rfl⟩
  · exact ⟨s.dropped, s.timeoutMs, s.frameBase, s.frameLen, rfl⟩

theorem legalOp_hostOp {w : Word} (h : (decodeHost w).isOk = true) : legalOp (hostOp w) := by
  cases hd : decodeHost w with
  | error e => rw [hd] at h; cases h
  | ok i =>
    have := hostCmd_fields (encode_of_decodeHost hd)
    exact legalOp_of_toNat this.2.1 this.2.2

/-- With ACTIVE = 0 the bus stores a register, or does nothing, or refuses a command, or accepts one. -/
theorem busNext_inactive (i : Inputs) {s : State} (h : s.active = false) :
    (∃ t b l, busNext i s = { s with timeoutMs := t, frameBase := b, frameLen := l })
    ∨ (∃ r, (r = .illegalCmd ∨ r = .cmdRejected ∨ r = .frameSizeMismatch)
        ∧ busNext i s = raise r (recordCommand (hostOp i.regWdata) s))
    ∨ (legalOp (hostOp i.regWdata) ∧ allowed (hostOp i.regWdata) s.state = true
        ∧ busNext i s = accept (hostOp i.regWdata) (recordCommand (hostOp i.regWdata) s)) := by
  unfold busNext
  split
  · split
    · split
      · rename_i hd
        rcases hostCommand_cases (hostOp i.regWdata) h with e | e | ⟨e, ha⟩
        · exact .inr (.inl ⟨_, .inr (.inl rfl), e⟩)
        · exact .inr (.inl ⟨_, .inr (.inr rfl), e⟩)
        · exact .inr (.inr ⟨legalOp_hostOp hd, ha, e⟩)
      · exact .inr (.inl ⟨.illegalCmd, .inl rfl, by simp [illegalCommand, h]⟩)
    · cases regAt i.regAddr <;> exact .inl ⟨_, _, _, rfl⟩
  · exact .inl ⟨s.timeoutMs, s.frameBase, s.frameLen, rfl⟩

/-- ACTIVE rises only at a CMD write whose word decodes (42_sequencer.md R130, R131). -/
theorem busNext_accepted {i : Inputs} {s : State} (h : s.active = false) (ha : (busNext i s).active = true) :
    i.regWe = true ∧ regAt i.regAddr = .cmd ∧ ∃ c, decodeHost i.regWdata = .ok c := by
  unfold busNext at ha
  split at ha
  · rename_i hw
    split at ha
    · rename_i hr
      cases hd : decodeHost i.regWdata with
      | ok c => exact ⟨hw, hr, c, rfl⟩
      | error e => simp [hd, Except.isOk, Except.toBool, illegalCommand, h] at ha
    · simp [h] at ha
  · simp [h] at ha

/-- Block reset pre-empts everything. -/
theorem step_reset {s : State} (h : s.input.rstN = false) :
    step s = .next (surroundings s.input false (blockReset s)) := by
  simp [step, clockEdge, h]

/-- An edge with ACTIVE = 0. -/
theorem step_inactive {s : State} (hr : s.input.rstN = true) (ha : s.active = false) :
    step s = .next (surroundings s.input (writeFrameActive (busNext s.input s))
      (synchronise s.input.busy (busNext s.input s))) := by
  simp [step, clockEdge, hr, ha, busPhase_eq, writeFrameActive]

theorem enginePhase_fault {i : Inputs} (h : i.hwFault = true) (s : State) :
    enginePhase i s = .next (abort s) := by simp [enginePhase, h]

theorem enginePhase_micro {i : Inputs} {s : State} {u : MicroOp} (h : i.hwFault = false)
    (hu : microOp s = some u) : enginePhase i s = .next (microNext i s u) := by
  simp [enginePhase, h, hu, microEdge_eq]

theorem microOp_busNext (i : Inputs) {s : State} (h : s.active = true) :
    microOp (busNext i s) = microOp s := by
  obtain ⟨d, t, b, l, e⟩ := busNext_active i h
  rw [e]; rfl

/-- The abort. -/
theorem step_abort {s : State} (hr : s.input.rstN = true) (ha : s.active = true)
    (hf : s.input.hwFault = true) :
    step s = .next (surroundings s.input (writeFrameActive s)
      (synchronise s.input.busy (abort (busNext s.input s)))) := by
  simp [step, clockEdge, hr, ha, busPhase_eq, enginePhase_fault hf, writeFrameActive]

/-- One edge of the current micro-op. -/
theorem step_micro {s : State} {u : MicroOp} (hr : s.input.rstN = true) (ha : s.active = true)
    (hf : s.input.hwFault = false) (hu : microOp s = some u) :
    step s = .next (surroundings s.input
      (writeFrameActive s || writeFrameActive (microNext s.input (busNext s.input s) u))
      (synchronise s.input.busy (microNext s.input (busNext s.input s) u))) := by
  have hu' : microOp (busNext s.input s) = some u := by rw [microOp_busNext _ ha, hu]
  simp [step, clockEdge, hr, ha, busPhase_eq, enginePhase_micro hf hu']

/-- Outside its program the engine faults. -/
theorem step_outside {s : State} (hr : s.input.rstN = true) (ha : s.active = true)
    (hf : s.input.hwFault = false) (hu : microOp s = none) : step s = .fault .outsideProgram := by
  have hu' : microOp (busNext s.input s) = none := by rw [microOp_busNext _ ha, hu]
  simp [step, clockEdge, hr, ha, busPhase_eq, enginePhase, hf, hu', andThen]

/-- Everything a step can do. -/
theorem step_cases {s t : State} (h : step s = .next t) :
    (s.input.rstN = false ∧ t = surroundings s.input false (blockReset s))
    ∨ (s.input.rstN = true ∧ s.active = false
        ∧ t = surroundings s.input (writeFrameActive (busNext s.input s))
          (synchronise s.input.busy (busNext s.input s)))
    ∨ (s.input.rstN = true ∧ s.active = true ∧ s.input.hwFault = true
        ∧ t = surroundings s.input (writeFrameActive s)
          (synchronise s.input.busy (abort (busNext s.input s))))
    ∨ (s.input.rstN = true ∧ s.active = true ∧ s.input.hwFault = false
        ∧ ∃ u, microOp s = some u
          ∧ t = surroundings s.input
            (writeFrameActive s || writeFrameActive (microNext s.input (busNext s.input s) u))
            (synchronise s.input.busy (microNext s.input (busNext s.input s) u))) := by
  cases hr : s.input.rstN
  · rw [step_reset hr] at h
    exact .inl ⟨rfl, (Host.Outcome.next.inj h).symm⟩
  cases ha : s.active
  · rw [step_inactive hr ha] at h
    exact .inr (.inl ⟨rfl, rfl, (Host.Outcome.next.inj h).symm⟩)
  cases hf : s.input.hwFault
  · cases hu : microOp s with
    | none => rw [step_outside hr ha hf hu] at h; cases h
    | some u =>
      rw [step_micro hr ha hf hu] at h
      exact .inr (.inr (.inr ⟨rfl, rfl, rfl, u, rfl, (Host.Outcome.next.inj h).symm⟩))
  · rw [step_abort hr ha hf] at h
    exact .inr (.inr (.inl ⟨rfl, rfl, rfl, (Host.Outcome.next.inj h).symm⟩))

/-! What no micro-op touches: the build, the latched operands, the host's registers, the command
fields, the synchroniser and the surroundings. -/

@[simp] theorem microNext_cfg (i : Inputs) (s : State) (u : MicroOp) :
    (microNext i s u).cfg = s.cfg := by cases u <;> simp [microNext]
@[simp] theorem microNext_op (i : Inputs) (s : State) (u : MicroOp) :
    (microNext i s u).op = s.op := by cases u <;> simp [microNext]
@[simp] theorem microNext_opTimeout (i : Inputs) (s : State) (u : MicroOp) :
    (microNext i s u).opTimeout = s.opTimeout := by cases u <;> simp [microNext]
@[simp] theorem microNext_opBase (i : Inputs) (s : State) (u : MicroOp) :
    (microNext i s u).opBase = s.opBase := by cases u <;> simp [microNext]
@[simp] theorem microNext_timeoutMs (i : Inputs) (s : State) (u : MicroOp) :
    (microNext i s u).timeoutMs = s.timeoutMs := by cases u <;> simp [microNext]
@[simp] theorem microNext_frameBase (i : Inputs) (s : State) (u : MicroOp) :
    (microNext i s u).frameBase = s.frameBase := by cases u <;> simp [microNext]
@[simp] theorem microNext_frameLen (i : Inputs) (s : State) (u : MicroOp) :
    (microNext i s u).frameLen = s.frameLen := by cases u <;> simp [microNext]
@[simp] theorem microNext_lastOp (i : Inputs) (s : State) (u : MicroOp) :
    (microNext i s u).lastOp = s.lastOp := by cases u <;> simp [microNext]
@[simp] theorem microNext_dropped (i : Inputs) (s : State) (u : MicroOp) :
    (microNext i s u).dropped = s.dropped := by cases u <;> simp [microNext]
@[simp] theorem microNext_busyS1 (i : Inputs) (s : State) (u : MicroOp) :
    (microNext i s u).busyS1 = s.busyS1 := by cases u <;> simp [microNext]
@[simp] theorem microNext_busyMid (i : Inputs) (s : State) (u : MicroOp) :
    (microNext i s u).busyMid = s.busyMid := by cases u <;> simp [microNext]
@[simp] theorem microNext_busySync (i : Inputs) (s : State) (u : MicroOp) :
    (microNext i s u).busySync = s.busySync := by cases u <;> simp [microNext]
@[simp] theorem microNext_mem (i : Inputs) (s : State) (u : MicroOp) :
    (microNext i s u).mem = s.mem := by cases u <;> simp [microNext]
@[simp] theorem microNext_contended (i : Inputs) (s : State) (u : MicroOp) :
    (microNext i s u).contended = s.contended := by cases u <;> simp [microNext]
@[simp] theorem microNext_inputs (i : Inputs) (s : State) (u : MicroOp) :
    (microNext i s u).inputs = s.inputs := by cases u <;> simp [microNext]
@[simp] theorem microNext_cycle (i : Inputs) (s : State) (u : MicroOp) :
    (microNext i s u).cycle = s.cycle := by cases u <;> simp [microNext]

/-- Outside block reset every edge moves the synchroniser on by one stage (10_state.md R44). -/
theorem step_sync {s t : State} (hr : s.input.rstN = true) (h : step s = .next t) :
    t.busyS1 = s.input.busy ∧ t.busyMid = (shiftStages s.busyS1 s.busyMid).1
      ∧ t.busySync = (shiftStages s.busyS1 s.busyMid).2 := by
  rcases step_cases h with ⟨h0, _⟩ | ⟨_, ha, rfl⟩ | ⟨_, ha, _, rfl⟩ | ⟨_, ha, _, u, _, rfl⟩
  · simp [hr] at h0
  · rcases busNext_inactive s.input ha with ⟨a, b, c, e⟩ | ⟨r, _, e⟩ | ⟨_, _, e⟩ <;> rw [e] <;> simp
  · obtain ⟨a, b, c, d, e⟩ := busNext_active s.input ha
    rw [e]; simp
  · obtain ⟨a, b, c, d, e⟩ := busNext_active s.input ha
    simp only [surroundings_busyS1, surroundings_busyMid, surroundings_busySync, synchronise_busyS1,
      synchronise_busyMid, synchronise_busySync, microNext_busyS1, microNext_busyMid, e, and_self]

/-! What the register bus touches besides a command (20_memory.md R61). -/

theorem busNext_timeoutMs (i : Inputs) (s : State) :
    (busNext i s).timeoutMs
      = if i.regWe = true ∧ i.regAddr.extractLsb' 2 4 = 2#4 then i.regWdata else s.timeoutMs := by
  unfold busNext regAt
  generalize i.regAddr.extractLsb' 2 4 = n
  cases i.regWe
  · simp
  · obtain ⟨k, hk, rfl⟩ : ∃ k, k < 16 ∧ n = BitVec.ofNat 4 k := ⟨n.toNat, n.isLt, by simp⟩
    simp only [if_true, true_and]
    interval_cases k <;> simp [writeReg]; split <;> simp

theorem busNext_frameBase (i : Inputs) (s : State) :
    (busNext i s).frameBase
      = if i.regWe = true ∧ i.regAddr.extractLsb' 2 4 = 3#4 then i.regWdata else s.frameBase := by
  unfold busNext regAt
  generalize i.regAddr.extractLsb' 2 4 = n
  cases i.regWe
  · simp
  · obtain ⟨k, hk, rfl⟩ : ∃ k, k < 16 ∧ n = BitVec.ofNat 4 k := ⟨n.toNat, n.isLt, by simp⟩
    simp only [if_true, true_and]
    interval_cases k <;> simp [writeReg]; split <;> simp

theorem busNext_frameLen (i : Inputs) (s : State) :
    (busNext i s).frameLen
      = if i.regWe = true ∧ i.regAddr.extractLsb' 2 4 = 4#4 then i.regWdata else s.frameLen := by
  unfold busNext regAt
  generalize i.regAddr.extractLsb' 2 4 = n
  cases i.regWe
  · simp
  · obtain ⟨k, hk, rfl⟩ : ∃ k, k < 16 ∧ n = BitVec.ofNat 4 k := ⟨n.toNat, n.isLt, by simp⟩
    simp only [if_true, true_and]
    interval_cases k <;> simp [writeReg]; split <;> simp

/-- The bus matters to an edge only through what it does to the state. -/
theorem clockEdge_bus {i j : Inputs} {s : State} (h : busNext i s = busNext j s) (h1 : i.rstN = j.rstN)
    (h2 : i.hwFault = j.hwFault) (h3 : i.busy = j.busy) (h4 : i.memWrites = j.memWrites) :
    clockEdge i s = clockEdge j s := by
  have e1 : ∀ r t, surroundings i r t = surroundings j r t := by
    intro r t; simp [surroundings, h4]
  have e3 : ∀ t u, microEdge i t u = microEdge j t u := by
    intro t u
    cases u with
    | byte dc src => cases src <;> simp [microEdge, sourceByte, fbData, overlapped, h4]
    | _ => rfl
  have e2 : ∀ t, enginePhase i t = enginePhase j t := by
    intro t
    simp [enginePhase, h2, e3]
  simp only [clockEdge, busPhase_eq, h, h1, h3, e1, e2]

/-- Everything an edge of a timed micro-op does but its action: the counters (42_sequencer.md R135). -/
theorem microNext_timed {i s u} (h : timed u = true) :
   (microNext i s u).active = s.active ∧ (microNext i s u).timedOut = s.timedOut
   ∧ (microNext i s u).elapsed = s.elapsed ∧ (microNext i s u).result = s.result ∧
   ((s.cnt + 1 = microDur s.cfg s.opTimeout u → (microNext i s u).upc = s.upc + 1 ∧ (microNext i s u).cnt = 0)
   ∧ (s.cnt + 1 ≠ microDur s.cfg s.opTimeout u → (microNext i s u).upc = s.upc ∧ (microNext i s u).cnt = s.cnt + 1)) := by
  have key : ∀ d (x : State), x.active = s.active → x.timedOut = s.timedOut → x.elapsed = s.elapsed
  → x.result = s.result → x.upc = s.upc → x.cnt = s.cnt → (advance d x).active = s.active
  ∧ (advance d x).timedOut = s.timedOut ∧ (advance d x).elapsed = s.elapsed ∧ (advance d x).result = s.result ∧
   ((s.cnt + 1 = d → (advance d x).upc = s.upc + 1 ∧ (advance d x).cnt = 0)
   ∧ (s.cnt + 1 ≠ d → (advance d x).upc = s.upc ∧ (advance d x).cnt = s.cnt + 1)) := by
    intro d x h1 h2 h3 h4 h5 h6
    unfold advance
    rw [h6]
    split <;> simp_all
  cases u with
  | wait => cases h
  | finish => cases h
  | byte dc src =>
    simp only [microNext, byteEdge, microDur]
    exact key _ _ (byteAction_active ..) (byteAction_timedOut ..) (byteAction_elapsed ..) (byteAction_result ..)
      (byteAction_upc ..) (byteAction_cnt ..)
  | _ =>
    simp only [microNext, setRstEdge, delayEdge, setStateEdge, microDur]
    apply key <;> rfl

/-- A timed micro-op moves the DriverState as the program says. -/
theorem state_timed {i s u} (h : timed u = true) : (microNext i s u).state = stateAfter s.state u := by
  cases u with
  | wait => cases h
  | finish => cases h
  | byte dc src => simp [microNext, stateAfter]
  | setState d => simp only [microNext, setStateEdge, advance]; split <;> rfl
  | setRst d => simp only [microNext, setRstEdge, advance]; split <;> rfl
  | delay d => simp only [microNext, delayEdge, advance]; split <;> rfl

end Machine
end Sys2Proof
end

