-- ==== Sys2Proof/Laws/Run.lean ====
section
/-! SUPPORT. Runs of several steps: appending runs, calm schedules, and the edges of one timed micro-op. -/

namespace Sys2Proof
namespace Machine

theorem run_succ (k : Nat) {s t : State} (h : step s = .next t)
    : Sys2Proof.core.run (k+1) s = Sys2Proof.core.run k t := by
  have h' : Sys2Proof.core.step s = .next t := h
  simp only [Host.Core.run, h']

theorem run_add (j k : Nat) {s t : State} (h : Sys2Proof.core.run j s = .next t)
    : Sys2Proof.core.run (j + k) s = Sys2Proof.core.run k t := by
  induction j generalizing s with
  | zero => cases h; simp
  | succ j ih =>
    cases hs : step s with
    | next v =>
      rw [run_succ j hs] at h
      rw [show j + 1 + k = (j + k) + 1 by omega, run_succ _ hs]; exact ih h
    | fault r => have h' : Sys2Proof.core.step s = .fault r := hs
                 simp only [Host.Core.run, h'] at h; cases h
    | refused r => have h' : Sys2Proof.core.step s = .refused r := hs
                   simp only [Host.Core.run, h'] at h; cases h

theorem run_one {s t : State} (h : step s = .next t) : Sys2Proof.core.run 1 s = .next t := by
  rw [run_succ 0 h]; rfl

theorem run_step {j : Nat} {s t v : State} (h : Sys2Proof.core.run j s = .next t) (h2 : step t = .next v)
    : Sys2Proof.core.run (j+1) s = .next v := by
  rw [run_add j 1 h, run_one h2]

theorem observe_step {k : Nat} {s : State} {r} {t q v} (h : observe k s r = some (t, q))
    (h2 : step t = .next v) : observe (k+1) s r = some (v, receive (pins t) (pins v) q) := by
  induction k generalizing s r with
  | zero => simp only [observe] at h ⊢; cases h; rw [h2]
  | succ k ih =>
    unfold observe at h
    cases hs : step s with
    | next w => rw [hs] at h; have := ih h; rw [observe, hs]; exact this
    | fault _ => rw [hs] at h; cases h
    | refused _ => rw [hs] at h; cases h

theorem observe_add (j k : Nat) {s : State} {r t q}
    (h : observe j s r = some (t, q)) : observe (j + k) s r = observe k t q := by
  induction j generalizing s r with
  | zero => simp only [observe] at h; cases h; simp
  | succ j ih =>
    unfold observe at h
    cases hs : step s with
    | next w => rw [hs] at h; rw [show j + 1 + k = (j + k) + 1 by omega, observe, hs]; exact ih h
    | fault _ => rw [hs] at h; cases h
    | refused _ => rw [hs] at h; cases h

/-- Levels that do not move show the receiver nothing. -/
theorem receive_same (p q : PinLevels) (r) (h1 : p.cs = q.cs) (h2 : p.sclk = q.sclk) : receive p q r = r := by
  unfold receive; rw [h1, h2]; cases q.cs <;> cases q.sclk <;> simp

theorem calm_input {n} {s : State} (h : calmFor (n+1) s) : s.input.rstN = true ∧ s.input.hwFault = false := by
  obtain ⟨i, h1, h2, h3⟩ := h 0 (by omega)
  unfold State.input
  cases hs : s.inputs with
  | nil => rw [hs] at h1; simp at h1
  | cons a l => rw [hs] at h1; simp at h1; subst h1; exact ⟨h2, h3⟩

theorem calm_tail {n} {s t : State} (h : calmFor (n+1) s) (ht : t.inputs = s.inputs.tail) : calmFor n t := by
  intro k hk
  obtain ⟨i, h1, h2⟩ := h (k+1) (by omega)
  refine ⟨i, ?_, h2⟩
  rw [ht, List.getElem?_tail]; exact h1

theorem calm_mono {n m} {s : State} (h : calmFor n s) (hm : m ≤ n) : calmFor m s := fun k hk => h k (by omega)

/-- RST after a micro-op. -/
def rstAfter (r : Bool) : MicroOp → Bool
  | .setRst v => v
  | _ => r

/-- What a running operation keeps from edge to edge. -/
structure Kept (s t : State) : Prop where
  active : t.active = s.active
  cfg : t.cfg = s.cfg
  op : t.op = s.op
  opTimeout : t.opTimeout = s.opTimeout
  timedOut : t.timedOut = s.timedOut

theorem Kept.trans {a b c} (h : Kept a b) (g : Kept b c)
    : Kept a c := ⟨g.1.trans h.1, g.2.trans h.2, g.3.trans h.3, g.4.trans h.4, g.5.trans h.5⟩

theorem Kept.refl (a) : Kept a a := ⟨rfl,rfl,rfl,rfl,rfl⟩

/-- One undisturbed edge of a timed micro-op. -/
theorem calm_timed {n : Nat} {s : State} {u : MicroOp} (hcalm : calmFor (n+1) s) (ha : s.active = true)
    (hu : microOp s = some u) (ht : timed u = true) :
  ∃ t, step s = .next t ∧ calmFor n t ∧ Kept s t ∧ t.inputs = s.inputs.tail ∧ t.pinRst = rstAfter s.pinRst u
  ∧ t.state = stateAfter s.state u ∧
   (s.cnt + 1 = microDur s.cfg s.opTimeout u → t.upc = s.upc + 1 ∧ t.cnt = 0)
   ∧ (s.cnt + 1 ≠ microDur s.cfg s.opTimeout u → t.upc = s.upc ∧ t.cnt = s.cnt + 1) := by
  obtain ⟨hr, hf⟩ := calm_input hcalm
  rw [step_micro hr ha hf hu]
  obtain ⟨a, b, c, d, e⟩ := busNext_active s.input ha
  rw [e]
  set s' : State := { s with dropped := a, timeoutMs := b, frameBase := c, frameLen := d }
  obtain ⟨h1, h2, h3, h4, h5, h6⟩ := microNext_timed (i := s.input) (s := s') ht
  have hst := state_timed (i := s.input) (s := s') ht
  refine ⟨_, rfl, calm_tail hcalm (by simp [s']), ⟨?_, ?_, ?_, ?_, ?_⟩, by simp [s'], ?_, ?_, ?_⟩
  · simpa using h1
  · simp [s']
  · simp [s']
  · simp [s']
  · simpa using h2
  · cases u <;> simp [microNext, rstAfter, s']
  · simpa using hst
  · exact ⟨h5, h6⟩

end Machine
end Sys2Proof
end

