-- ==== Sys2Proof/Tests/Slice0.lean ====
section
/-! SUPPORT. The model's own tests: ill-formed terms, words written out from the encoding tables, the
vectors of 95_test_vectors.md one edge at a time, and a witness for the hypotheses of each statement. -/

namespace Sys2Proof
namespace Tests

open Sys2Proof.Machine

set_option Elab.async false

/-! ### Helpers -/

/-- A cycle in which the host writes `w` at offset `a`. -/
def wr (a : BitVec 6) (w : Word) : Inputs := { quietInputs with regWe := true, regAddr := a, regWdata := w }

/-- A cycle with BUSY at 1. -/
def busyCycle : Inputs := { quietInputs with busy := true }

/-- A cycle with HW_FAULT at 1. -/
def faultCycle : Inputs := { quietInputs with hwFault := true }

/-- C = 1, H = 1. -/
def slow : Config := { Config.default with clkHz := 1000 }

/-- C = 16000, H = 2. -/
def fast : Config := { Config.default with clkHz := 16000000 }

def mono : Config := { Config.default with panelVariant := .mono }

/-- A build whose parameters of 00_scope.md R7 all differ from the source's: C = 8000, H = 4, L = 5. -/
def other : Config :=
  { Config.default with
    width := 8, height := 5, spiHzMax := 1000000, pollMs := 25, syncStages := 4, addrW := 12 }

/-- Idle with the right length register. -/
def idle (ins : List Inputs) : State :=
  { State.reset with state := .idle, frameLen := 4736#32, inputs := ins }

/-- Another state with ACTIVE = 0. -/
def resting (d : DriverState) (ins : List Inputs) : State := { idle ins with state := d, result := .ok }

/-- The sequencer at `cnt` of P(op)[upc]. -/
def running (c : Config) (op : BitVec 4) (upc cnt : Nat) (ins : List Inputs) : State :=
  { State.resetOf c with
    active := true, op := op, lastOp := op, opTimeout := c.defaultTimeoutMs, upc := upc, cnt := cnt
    state := stateAt c op upc, inputs := ins }

/-- `running` with BUSY seen at 1 and timeout `t`. -/
def waiting (t : Word) (cnt : Nat) : State :=
  { running Config.default 5#4 0 cnt [busyCycle] with busyS1 := true, busySync := true, opTimeout := t }

def stateOf : Result → Option State
  | .next s => some s
  | .fault _ => none
  | .refused _ => none

def stepped (s : State) : Option State := stateOf (step s)

/-- What the host reads at offset `a` in the next cycle. -/
def shows (a : BitVec 6) (s : State) : Option Word := (stepped s).map (regRdata a)

/-- The pins in the next cycle: RST, DC, CS, SCLK, MOSI, as the tables of 95_test_vectors.md list them. -/
def pinsNext (s : State) : Option (List Nat) :=
  (stepped s).map (fun t => [t.pinRst.toNat, t.pinDc.toNat, t.pinCs.toNat, t.pinSclk.toNat, t.pinMosi.toNat])

/-- A result that passes a test on its next state has one. -/
theorem next_of {r : Result} (p : State → Bool) (h : (stateOf r).any p = true) :
    ∃ t, r = .next t ∧ p t = true := by
  cases r with
  | next t => exact ⟨t, rfl, by simpa [stateOf] using h⟩
  | fault r => simp [stateOf] at h
  | refused r => simp [stateOf] at h

/-- A result that is some next state. -/
theorem some_next {r : Result} (h : (stateOf r).isSome = true) : ∃ t, r = .next t := by
  cases r with
  | next t => exact ⟨t, rfl⟩
  | fault r => simp [stateOf] at h
  | refused r => simp [stateOf] at h

theorem seqInv_of {s : State} (h : (s.cfg.wf && Memory.wf s.mem && positionOk s && stagesOk s) = true) : SeqInv s := by
  simpa [SeqInv, and_assoc] using h

theorem calm_of {s : State} {n : Nat} {i : Inputs} (h : s.inputs = List.replicate n i)
    (hr : i.rstN = true) (hf : i.hwFault = false) : calmFor n s :=
  fun k hk => ⟨i, by simp [h, hk], hr, hf⟩

theorem remaining_running (c : Config) (op : BitVec 4) (upc cnt : Nat) (l : List Inputs) (m : Memory) :
    remaining { running c op upc cnt l with mem := m } = remaining (running c op upc cnt []) := rfl

theorem held_of {s : State} {n : Nat} {i : Inputs} {level : Bool} (h : s.inputs = List.replicate n i)
    (h1 : s.busyS1 = level) (h2 : s.busySync = level) (hm : s.busyMid = []) (hi : i.busy = level) :
    busyHeld level n s :=
  ⟨h1, h2, by simp [hm], fun k hk => ⟨i, by simp [h, hk], hi⟩⟩

/-! ### WellFormed: ill-formed terms are refused -/

theorem test_clock_too_slow : Config.wf { Config.default with clkHz := 500 } = false := by decide
theorem test_clock_no_multiple : Config.wf { Config.default with clkHz := 8000500 } = false := by decide
theorem test_clock_zero : Config.wf { Config.default with clkHz := 0 } = false := by decide
theorem test_geometry_refused : Config.wf { Config.default with width := 3, height := 1 } = false := by decide
theorem test_no_sclk_target : Config.wf { Config.default with spiHzMax := 0 } = false := by decide
theorem test_no_poll_interval : Config.wf { Config.default with pollMs := 0 } = false := by decide
theorem test_poll_interval_too_long : Config.wf { Config.default with pollMs := 4294967296 } = false := by decide
theorem test_one_stage : Config.wf { Config.default with syncStages := 1 } = false := by decide
theorem test_address_too_wide : Config.wf { Config.default with addrW := 33 } = false := by decide
theorem test_default_build : Config.wf Config.default = true ∧ Config.default.sourceValues = true := by decide
theorem test_other_build : other.wf = true ∧ other.sourceValues = false := by decide

/-- The default build emits none of these, a MONO build no 0x10, 0x13 and no refresh 0x12, and a build
with an empty INIT_TABLE none of its opcodes. -/
theorem test_build_refuses :
    ([Instr.cWriteRam, .cActivateUpdate, .cRamXCounter, .cRamYCounter].all
        (fun i => !i.inBuild Config.default)) = true
    ∧ ([Instr.cRefresh, .cWriteBwPlane, .cWriteRedPlane].all (fun i => !i.inBuild mono)) = true
    ∧ ([Instr.cDriverOutputControl, .cDataEntryMode, .cRamXWindow, .cRamYWindow, .cBorderWaveform,
        .cDisplayUpdateControl].all
        (fun i => !i.inBuild { Config.default with initTable := [] })) = true := by decide

theorem test_no_ill_formed_instruction :
    (Instr.dData 0xFF#8).wellFormed = true ∧ Instr.cRefresh.wellFormed = true := by decide

/-! ### Decode: words written out from 30_encoding.md R81 and R88 -/

theorem test_decode_host :
    decode (.hostCmd 0b00000000000000000000000000000001#32) = .ok .reset
    ∧ decode (.hostCmd 0b00000000000000000000000000000010#32) = .ok .init
    ∧ decode (.hostCmd 0b00000000000000000000000000000011#32) = .ok .clear
    ∧ decode (.hostCmd 0b00000000000000000000000000000100#32) = .ok .writeFrame
    ∧ decode (.hostCmd 0b00000000000000000000000000000101#32) = .ok .waitIdle := by decide

theorem test_decode_host_reserved :
    decode (.hostCmd 0b00000000000000000000000000000000#32) = .error (.reservedOp 0b0000#4)
    ∧ decode (.hostCmd 0b00000000000000000000000000000110#32) = .error (.reservedOp 0b0110#4)
    ∧ decode (.hostCmd 0b00000000000000000000000000001111#32) = .error (.reservedOp 0b1111#4)
    ∧ decode (.hostCmd 0b00000000000000000000000000010001#32) = .error (.reservedBits 0b0001#4)
    ∧ decode (.hostCmd 0b10000000000000000000000000000101#32) = .error (.reservedBits 0b0101#4) := by decide

theorem test_decode_command_frames :
    decode (.spiFrame 0b000010010#9) = .ok .cSwreset
    ∧ decode (.spiFrame 0b000000001#9) = .ok .cDriverOutputControl
    ∧ decode (.spiFrame 0b000010001#9) = .ok .cDataEntryMode
    ∧ decode (.spiFrame 0b001000100#9) = .ok .cRamXWindow
    ∧ decode (.spiFrame 0b001000101#9) = .ok .cRamYWindow
    ∧ decode (.spiFrame 0b000111100#9) = .ok .cBorderWaveform
    ∧ decode (.spiFrame 0b000100001#9) = .ok .cDisplayUpdateControl
    ∧ decode (.spiFrame 0b001001110#9) = .ok .cRamXCounter
    ∧ decode (.spiFrame 0b001001111#9) = .ok .cRamYCounter
    ∧ decode (.spiFrame 0b000010000#9) = .ok .cWriteBwPlane
    ∧ decode (.spiFrame 0b000010011#9) = .ok .cWriteRedPlane
    ∧ decode (.spiFrame 0b000100100#9) = .ok .cWriteRam
    ∧ decode (.spiFrame 0b000100000#9) = .ok .cActivateUpdate := by decide

/-- 0x12 is the refresh trigger under CLEAR and WRITE_FRAME, the software reset under INIT. -/
theorem test_decode_refresh :
    decodeFrameIn 0b0011#4 0b000010010#9 = .ok .cRefresh ∧ decodeFrameIn 0b0100#4 0b000010010#9 = .ok .cRefresh
    ∧ decodeFrameIn 0b0010#4 0b000010010#9 = .ok .cSwreset := by decide

theorem test_decode_data_frames :
    decode (.spiFrame 0b100010010#9) = .ok (.dData 0x12#8)
    ∧ decode (.spiFrame 0b100000000#9) = .ok (.dData 0x00#8)
    ∧ decode (.spiFrame 0b111111111#9) = .ok (.dData 0xFF#8) := by decide

theorem test_decode_unlisted :
    decode (.spiFrame 0b000000000#9) = .error (.unlistedOpcode 0x00#8)
    ∧ decode (.spiFrame 0b011111111#9) = .error (.unlistedOpcode 0xFF#8) := by decide

theorem test_table_words :
    [1, 2, 3, 4, 5].map (decodeTableWord 32)
        = [some .reset, some .init, some .clear, some .writeFrame, some .waitIdle]
    ∧ [0x012, 0x001, 0x110, 0x1FF].map (decodeTableWord 16)
        = [some .cSwreset, some .cDriverOutputControl, some (.dData 0x10#8), some (.dData 0xFF#8)]
    ∧ decodeTableWord 32 0 = none ∧ decodeTableWord 16 0x200 = none := by decide

/-! ### The table's words as the first step after reset -/

/-- From Uninitialized RESET and INIT are accepted, the others rejected (V2). -/
theorem test_first_host_command :
    [1, 2, 3, 4, 5].map (fun w => shows 0x04#6 (State.reset.withFetchWord 32 w))
      = [some 0x00010009#32, some 0x00020009#32, some 0x00030500#32, some 0x00040500#32,
         some 0x00050500#32] := by decide +kernel

/-- The first edge of a frame loads its byte. -/
theorem test_first_frame :
    [0x012, 0x001, 0x011, 0x044, 0x045, 0x03C, 0x021, 0x04E, 0x04F, 0x010, 0x013, 0x024, 0x020, 0x1A5].map
        (fun w => (stepped (State.reset.withFetchWord 16 w)).map (fun t => (t.sh, t.cnt)))
      = [some (0x12#8, 1), some (0x01#8, 1), some (0x11#8, 1), some (0x44#8, 1), some (0x45#8, 1),
         some (0x3C#8, 1), some (0x21#8, 1), some (0x4E#8, 1), some (0x4F#8, 1), some (0x10#8, 1),
         some (0x13#8, 1), some (0x24#8, 1), some (0x20#8, 1), some (0xA5#8, 1)] := by decide +kernel

/-! ### Vectors of 95_test_vectors.md -/

theorem test_V1_accepted :
    [1#32, 2#32, 3#32, 4#32, 5#32].map (fun w => shows 0x04#6 (idle [wr 0x00#6 w]))
      = [some 0x00010009#32, some 0x00020009#32, some 0x0003000D#32, some 0x0004000D#32,
         some 0x0005000C#32] := by decide +kernel

theorem test_V1_illegal :
    [0#32, 6#32, 0xF#32, 0x11#32, 0x80000001#32, 0x10#32].map (fun w => shows 0x04#6 (idle [wr 0x00#6 w]))
      = [some 0x00000603#32, some 0x00060603#32, some 0x000F0603#32, some 0x00010603#32,
         some 0x00010603#32, some 0x00000603#32] := by decide +kernel

theorem test_V3_check_order :
    shows 0x04#6 { State.reset with frameLen := 4735#32, inputs := [wr 0x00#6 4#32] } = some 0x00040500#32
    ∧ shows 0x04#6 { idle [wr 0x00#6 0x14#32] with frameLen := 4735#32 } = some 0x00040603#32 := by
  decide +kernel

theorem test_V4_dropped :
    shows 0x04#6 (running Config.default 5#4 0 0 [wr 0x00#6 1#32]) = some 0x0005002C#32 := by decide +kernel

theorem test_V5_reset_reads :
    [0x00#6, 0x04#6, 0x08#6, 0x0C#6, 0x10#6, 0x14#6, 0x18#6, 0x1C#6, 0x20#6, 0x3C#6].map
        (fun a => regRdata a State.reset)
      = [0#32, 0#32, 0x4E20#32, 0#32, 0#32, 0x00800128#32, 0x1280#32, 0#32, 0#32, 0#32]
    ∧ statusWord (State.resetOf { Config.default with busyActiveLevel := false }) = 0x40#32 := by decide

theorem test_V6_writes :
    shows 0x08#6 (idle [wr 0x08#6 0xFFFFFFFF#32]) = some 0xFFFFFFFF#32
    ∧ shows 0x08#6 (idle [wr 0x0B#6 7#32]) = some 7#32
    ∧ shows 0x14#6 (idle [wr 0x14#6 0#32]) = some 0x00800128#32
    ∧ shows 0x20#6 (idle [wr 0x20#6 0x1234#32]) = some 0#32
    ∧ shows 0x04#6 (idle [wr 0x04#6 0xFFFFFFFF#32]) = some 0x3#32 := by decide +kernel

/-- V20: C:12 drives DC and MOSI 0 in slot 0, and the first falling SCLK puts b6 = 0 on MOSI. -/
theorem test_V20_slots :
    pinsNext { running Config.default 3#4 9474 1 [quietInputs] with sh := 0x12#8, pinDc := true }
      = some [1, 0, 1, 0, 0]
    ∧ pinsNext { running Config.default 2#4 7 2 [quietInputs] with sh := 0x12#8 } = some [1, 0, 0, 0, 0] := by
  decide +kernel

/-- V21: D:A5, the edges e+1, e+3, e+6, e+18, e+19, at index 2 of an INIT_TABLE entry. -/
theorem test_V21_slots :
    [1, 3, 6, 18, 19].map (fun k => pinsNext
        { running { Config.default with initTable := [⟨0x01#8, [0xA5#8]⟩] } 2#4 10 k [quietInputs] with
          sh := 0xA5#8, pinDc := true, pinCs := decide (k = 1), pinSclk := decide (k = 18)
          pinMosi := decide (k ≠ 6) })
      = [some [1, 1, 1, 0, 1], some [1, 1, 0, 1, 1], some [1, 1, 0, 0, 1], some [1, 1, 0, 0, 1],
         some [1, 1, 1, 0, 1]] := by decide +kernel

/-- V22: at H = 2 the edge at cnt 2 is inside slot 0 and moves nothing. -/
theorem test_V22_inside_slot :
    (stepped { running fast 2#4 7 2 [quietInputs] with sh := 0xFF#8 }).map (fun t => (pins t, t.cnt))
      = some (pins State.reset, 3) := by decide +kernel

theorem test_V23_half_period :
    [8000000, 12000000, 16000000, 1000000].map (fun f => halfPeriod { Config.default with clkHz := f })
      = [1, 2, 2, 1] := by decide

/-- V30, V33, V50: lengths of RESET, INIT at m = 1 and 3, WAIT_IDLE. -/
theorem test_lengths :
    opBound Config.default 1#4 0#32 = 240004
    ∧ opBound Config.default 2#4 10#32 = 520426 ∧ opBound Config.default 2#4 30#32 = 680426
    ∧ opBound Config.default 5#4 0#32 = 80002 ∧ opBound Config.default 5#4 11#32 = 160002
    ∧ opBound Config.default 5#4 0xFFFFFFFF#32 = 2 + 80000 * 429496730 := by decide +kernel

/-- V32: the stream of INIT. -/
theorem test_V32_stream :
    streamOf (fun _ => 0#8) (program Config.default 2#4)
      = [0x012#9, 0x001#9, 0x127#9, 0x101#9, 0x100#9, 0x011#9, 0x103#9, 0x044#9, 0x100#9, 0x10F#9,
         0x045#9, 0x100#9, 0x100#9, 0x127#9, 0x101#9, 0x03C#9, 0x105#9, 0x021#9, 0x100#9, 0x180#9] := by
  decide +kernel

/-- V34: a timed-out INIT ends Failed. -/
theorem test_V34_init_timeout :
    shows 0x04#6 { running Config.default 2#4 (endIndex Config.default 2#4) 0 [busyCycle] with
      timedOut := true, busyS1 := true, busySync := true } = some 0x00020256#32 := by decide +kernel

/-- V35: idle at the last sample succeeds. -/
theorem test_V35_idle_before_timeout :
    (stepped { waiting 30#32 240000 with busySync := false }).map
        (fun t => (t.elapsed, t.timedOut, t.upc)) = some (30#33, false, 1) := by decide +kernel

/-- V41: the first byte of a frame at 0x2000. -/
theorem test_V41_first_byte :
    (stepped { running Config.default 4#4 1 0 [quietInputs] with
      opBase := 0x2000#32, mem := [(0x2000, 0xC3#8)] }).map (fun t => t.sh) = some 0xC3#8 := by decide +kernel

/-- V42: byte 4096 of a frame at 0xFFFFF000 comes from address 0. -/
theorem test_V42_wrap :
    fbAddr { running Config.default 4#4 4097 0 [] with opBase := 0xFFFFF000#32 } = 0#32
    ∧ (stepped { running Config.default 4#4 4097 0 [quietInputs] with
        opBase := 0xFFFFF000#32, mem := [(0, 0x5A#8)] }).map (fun t => t.sh) = some 0x5A#8 := by
  decide +kernel

theorem test_V43_frame_size :
    [0#32, 4735#32, 4737#32, 0xFFFFFFFF#32].map
        (fun l => shows 0x04#6 { idle [wr 0x00#6 4#32] with frameLen := l })
      = List.replicate 4 (some 0x00040303#32)
    ∧ shows 0x04#6 { idle [wr 0x00#6 3#32] with frameLen := 0#32 } = some 0x0003000D#32 := by decide +kernel

/-- V44: the first and the last frame of a MONO build. -/
theorem test_V44_mono :
    (program mono 3#4)[0]? = some (.byte false (.const 0x24#8))
    ∧ (program mono 3#4)[4737]? = some (.byte false (.const 0x20#8)) := by decide +kernel

/-- V50: BUSY at the last sample times out, and END reports it. -/
theorem test_V50_timeout :
    (stepped (waiting 10#32 80000)).map (fun t => (t.elapsed, t.timedOut, t.upc)) = some (10#33, true, 1)
    ∧ shows 0x04#6 { waiting 10#32 0 with upc := 1, timedOut := true } = some 0x00050254#32
    ∧ shows 0x1C#6 { waiting 10#32 0 with upc := 1, elapsed := 4294967300#33 } = some 0xFFFFFFFF#32 := by
  decide +kernel

/-- V60: the abort in C:10 of CLEAR, at the edge after the first rising SCLK. -/
theorem test_V60_abort :
    shows 0x04#6 { running Config.default 3#4 0 4 [faultCycle] with pinCs := false, pinSclk := true }
      = some 0x00030406#32
    ∧ pinsNext { running Config.default 3#4 0 4 [faultCycle] with pinCs := false, pinSclk := true }
      = some [1, 0, 1, 0, 0] := by decide +kernel

/-- V61 and V62: HW_FAULT at the accepting edge is ignored, one edge later it aborts. -/
theorem test_V61_fault_at_acceptance :
    shows 0x04#6 (idle [{ wr 0x00#6 5#32 with hwFault := true }]) = some 0x0005000C#32
    ∧ shows 0x04#6 (running Config.default 5#4 0 0 [faultCycle]) = some 0x00050406#32 := by decide +kernel

/-- V70: RST_N = 0 during CLEAR. -/
theorem test_V70_block_reset :
    let s := { running Config.default 3#4 4 13 [{ quietInputs with rstN := false }] with
      timeoutMs := 55#32, pinDc := true, pinCs := false, pinSclk := true, pinMosi := true }
    pinsNext s = some [1, 0, 1, 0, 0] ∧ shows 0x04#6 s = some 0#32 ∧ shows 0x08#6 s = some 0x4E20#32 := by
  decide +kernel

/-- P3, cycles 480 030 to 480 033: the refusals in Failed. -/
theorem test_P3_refusals :
    [3#32, 0x13#32].map (fun w => shows 0x04#6
        { resting .failed [{ wr 0x00#6 w with busy := true }] with busyS1 := true, busySync := true })
      = [some 0x00030556#32, some 0x00030656#32] := by decide +kernel

/-- Two cycles of a host program: the write lands before the read of the next cycle. -/
theorem test_host_program :
    (runHost [.wr .timeoutMs 7#32, .rd .timeoutMs 0] 2 (hostStart [.wr .timeoutMs 7#32, .rd .timeoutMs 0])
      (idle [quietInputs, quietInputs])).2.vars = [(0, 7#32)] := by decide +kernel

/-- IDLE 2 takes two cycles, and a taken BZ none: the read happens in the third cycle. -/
theorem test_host_idle_and_branch :
    let prog : List HostLine := [.idle 2, .bz 0 0 7, .wr .cmd 1#32, .label 7, .rd .geometry 1]
    (runHost prog 2 (hostStart prog) (idle [quietInputs, quietInputs, quietInputs])).2.vars = []
    ∧ (runHost prog 3 (hostStart prog) (idle [quietInputs, quietInputs, quietInputs])).2.vars
        = [(1, 0x00800128#32)] := by decide +kernel

/-! ### A build of other values (00_scope.md R7) -/

theorem test_other_times : cyclesPerMs other = 8000 ∧ halfPeriod other = 4 ∧ planeBytes other = 5
    ∧ opBound other 5#4 26#32 = 2 + 25 * 8000 * 2 := by decide +kernel

theorem test_other_reads :
    regRdata 0x14#6 (State.resetOf other) = 0x00050008#32 ∧ regRdata 0x18#6 (State.resetOf other) = 5#32 := by
  decide

theorem test_other_frame_length :
    [5#32, 4736#32].map (fun l => shows 0x04#6
        { State.resetOf other with state := .idle, frameLen := l, inputs := [wr 0x00#6 4#32] })
      = [some 0x0004000D#32, some 0x00040303#32] := by decide +kernel

/-- L = 2^32: FRAME_BYTES shows its low 32 bits, and no FRAME_LEN matches (log 24). -/
theorem test_huge_frame :
    let c : Config := { Config.default with width := 8 * 65536, height := 65536 }
    c.wf = true ∧ regRdata 0x18#6 (State.resetOf c) = 0#32
    ∧ shows 0x04#6 { State.resetOf c with state := .idle, inputs := [wr 0x00#6 4#32] } = some 0x00040303#32 := by
  decide +kernel

/-- A level stands for SYNC_STAGES edges before it reaches st.busy_sync. -/
theorem test_four_stages :
    (State.resetOf other).busyMid = [false, false]
    ∧ (stepped { State.resetOf other with busyS1 := true, busyMid := [false, true], inputs := [quietInputs] }).map
        (fun t => (t.busyS1, t.busyMid, t.busySync)) = some (false, [true, false], true) := by decide +kernel

/-- A 12-bit frame memory wraps at 0x1000. -/
theorem test_other_wrap : frameAddr { running other 4#4 2 0 [] with opBase := 0x12340FFF#32 } 1 = 0#32
    ∧ frameAddr { running other 4#4 2 0 [] with opBase := 0x12340FFE#32 } 1 = 0xFFF#32 := by decide +kernel

/-! ### Witnesses: encoding and host commands -/

theorem witness_DecodeOfEncode :
    (Instr.dData 0x00#8).wellFormed = true ∧ encode (.dData 0x00#8) = .spiFrame 0x100#9
    ∧ (Instr.dData 0xFF#8).wellFormed = true ∧ encode (.dData 0xFF#8) = .spiFrame 0x1FF#9
    ∧ Instr.cRefresh.wellFormed = true ∧ encode .cRefresh = .spiFrame 0x012#9
    ∧ Instr.waitIdle.wellFormed = true ∧ encode .waitIdle = .hostCmd 5#32 := by decide +kernel

theorem witness_EncodeOfDecode :
    decode (.hostCmd 1#32) = .ok .reset ∧ decode (.spiFrame 0x1FF#9) = .ok (.dData 0xFF#8)
    ∧ decodeFrameIn 3#4 0x012#9 = .ok .cRefresh ∧ decodeFrameIn 2#4 0x012#9 = .ok .cSwreset := by decide +kernel

theorem witness_HostWordLegal :
    (0x10#32).extractLsb' 4 28 ≠ 0#28 ∧ (0x80000005#32).extractLsb' 4 28 ≠ 0#28
    ∧ ((0#32).extractLsb' 4 28 = 0#28 ∧ ¬ (1 ≤ ((0#32).extractLsb' 0 4).toNat ∧ ((0#32).extractLsb' 0 4).toNat ≤ 5))
    ∧ ((6#32).extractLsb' 4 28 = 0#28 ∧ ¬ (1 ≤ ((6#32).extractLsb' 0 4).toNat ∧ ((6#32).extractLsb' 0 4).toNat ≤ 5)) := by
  decide +kernel

theorem witness_FrameDecodes :
    (0x100#9).getLsbD 8 = true ∧ (0x1FF#9).getLsbD 8 = true ∧ (0x000#9).getLsbD 8 = false
    ∧ ((0x000#9).extractLsb' 0 8).toNat ∉ [0x01, 0x10, 0x11, 0x12, 0x13, 0x20, 0x21, 0x24, 0x3C, 0x44, 0x45, 0x4E, 0x4F] := by
  decide +kernel

/-- Each of the five commands where it is accepted, in every state the table of R133 gives. -/
theorem witness_Accepted :
    (encode .reset = .hostCmd 1#32 ∧ State.reset.active = false)
    ∧ (encode .init = .hostCmd 2#32 ∧ (resting .failed []).active = false)
    ∧ (encode .clear = .hostCmd 3#32 ∧ (idle []).active = false ∧ (idle []).state = .idle)
    ∧ (encode .writeFrame = .hostCmd 4#32 ∧ (idle []).state = .idle
      ∧ (idle []).frameLen.toNat = (idle []).cfg.width * (idle []).cfg.height / 8)
    ∧ (encode .waitIdle = .hostCmd 5#32 ∧ (resting .busy []).active = false ∧ (resting .busy []).state = .busy)
    ∧ (idle []).state = .idle := by decide +kernel

theorem witness_Rejected :
    (encode .clear = .hostCmd 3#32 ∧ State.reset.active = false ∧ State.reset.state ≠ .idle)
    ∧ (encode .writeFrame = .hostCmd 4#32 ∧ (resting .busy []).active = false ∧ (resting .busy []).state ≠ .idle)
    ∧ (encode .waitIdle = .hostCmd 5#32 ∧ (resting .failed []).active = false
        ∧ (resting .failed []).state ≠ .idle ∧ (resting .failed []).state ≠ .busy) := by decide +kernel

theorem witness_WrongFrameLength :
    ∀ l ∈ [0, 4735, 4737, 4294967295],
      ({ idle [] with frameLen := BitVec.ofNat 32 l } : State).active = false
      ∧ ({ idle [] with frameLen := BitVec.ofNat 32 l } : State).state = .idle
      ∧ ({ idle [] with frameLen := BitVec.ofNat 32 l } : State).frameLen.toNat
          ≠ (idle []).cfg.width * (idle []).cfg.height / 8 := by decide +kernel

theorem witness_Dropped :
    (running slow 5#4 0 0 []).active = true ∧ encode .waitIdle = .hostCmd 5#32 := by decide +kernel

theorem witness_IllegalWord :
    (0x10#32).extractLsb' 4 28 ≠ 0#28 ∧ (0x80000001#32).extractLsb' 4 28 ≠ 0#28
    ∧ ((0#32).extractLsb' 0 4).toNat = 0 ∧ 5 < ((6#32).extractLsb' 0 4).toNat
    ∧ (running slow 5#4 0 0 []).active = true
    ∧ (idle [wr 0x03#6 6#32]).active = false ∧ (idle [wr 0x03#6 6#32]).input.rstN = true
    ∧ (idle [wr 0x03#6 6#32]).input.regWe = true ∧ (idle [wr 0x03#6 6#32]).input.regAddr.extractLsb' 2 4 = 0#4
    ∧ (idle [wr 0x03#6 6#32]).input.regWdata = 6#32 := by decide +kernel

theorem witness_HostCommandsKeep :
    encode .clear = .hostCmd 3#32
    ∧ (∃ t, exec .clear (idle []) = .next t ∧ (t.active && !(idle []).active) = true)
    ∧ ∃ t, exec .clear State.reset = .next t ∧ (t.active == State.reset.active) = true :=
  ⟨rfl, next_of (fun t => t.active && !(idle []).active) (by decide +kernel),
    next_of (fun t => t.active == State.reset.active) (by decide +kernel)⟩

theorem witness_Refused :
    ((idle []).active = false ∧ ∃ t, cmdWrite 0#32 (idle []) = .next t ∧ (!t.active) = true)
    ∧ (State.reset.active = false ∧ ∃ t, cmdWrite 3#32 State.reset = .next t ∧ (!t.active) = true)
    ∧ ∃ t, cmdWrite 4#32 { idle [] with frameLen := 0#32 } = .next t ∧ (!t.active) = true :=
  ⟨⟨rfl, next_of (fun t => !t.active) (by decide +kernel)⟩,
    ⟨rfl, next_of (fun t => !t.active) (by decide +kernel)⟩, next_of (fun t => !t.active) (by decide +kernel)⟩

/-! ### Witnesses: frames and micro-ops -/

theorem witness_FrameFetch :
    encode .cSwreset = .spiFrame 0x012#9 ∧ encode (.dData 0xFF#8) = .spiFrame 0x1FF#9
    ∧ (running slow 2#4 7 0 []).cfg.wf = true ∧ (running slow 2#4 7 0 []).cnt = 0 := by decide +kernel

/-- Slots 0 to 3, 15 to 19, at H = 1 and H = 2. -/
theorem witness_FrameSlots :
    ∀ n ∈ [0, 1, 2, 3, 15, 16, 17, 18, 19],
      (encode .cSwreset = .spiFrame 0x012#9 ∧ n < 20)
      ∧ ((running slow 2#4 7 (1 + n) []).cfg.wf = true
        ∧ (running slow 2#4 7 (1 + n) []).cnt = 1 + n * halfPeriod (running slow 2#4 7 (1 + n) []).cfg)
      ∧ ((running fast 2#4 7 (1 + n * 2) []).cfg.wf = true
        ∧ (running fast 2#4 7 (1 + n * 2) []).cnt = 1 + n * halfPeriod (running fast 2#4 7 (1 + n * 2) []).cfg) := by
  decide +kernel

theorem witness_FrameInsideSlot :
    ∀ k ∈ [2, 40],
      encode .cSwreset = .spiFrame 0x012#9 ∧ (running fast 2#4 7 k []).cfg.wf = true
      ∧ 1 ≤ (running fast 2#4 7 k []).cnt
      ∧ (running fast 2#4 7 k []).cnt ≤ 20 * halfPeriod (running fast 2#4 7 k []).cfg
      ∧ ((running fast 2#4 7 k []).cnt - 1) % halfPeriod (running fast 2#4 7 k []).cfg ≠ 0 := by decide +kernel

theorem witness_FramesWriteOnly :
    encode .cSwreset = .spiFrame 0x012#9 ∧ ∃ t, exec .cSwreset (running slow 2#4 7 0 []) = .next t :=
  ⟨rfl, some_next (by decide +kernel)⟩

/-- A constant byte and a frame byte. -/
theorem witness_OneByte :
    let s := running slow 2#4 7 0 (List.replicate (1 + 20 * halfPeriod slow) quietInputs)
    let u := running slow 4#4 1 0 (List.replicate (1 + 20 * halfPeriod slow) quietInputs)
    (SeqInv s ∧ pinsOk s = true ∧ s.active = true ∧ microOp s = some (.byte false (.const 0x12#8)) ∧ s.cnt = 0
      ∧ calmFor (1 + 20 * halfPeriod s.cfg) s)
    ∧ (SeqInv u ∧ pinsOk u = true ∧ u.active = true ∧ microOp u = some (.byte true (.frame 0)) ∧ u.cnt = 0
      ∧ calmFor (1 + 20 * halfPeriod u.cfg) u) :=
  ⟨⟨seqInv_of (by decide +kernel), by decide +kernel, rfl, by decide +kernel, rfl, calm_of rfl rfl rfl⟩,
   ⟨seqInv_of (by decide +kernel), by decide +kernel, rfl, by decide +kernel, rfl, calm_of rfl rfl rfl⟩⟩

theorem witness_SetRst :
    quietInputs.hwFault = false ∧ microOp (running slow 1#4 0 0 []) = some (.setRst true)
    ∧ microOp (running slow 1#4 2 0 []) = some (.setRst false)
    ∧ (running slow 1#4 2 0 []).cnt = 0 := by decide +kernel

/-- The first and the last edge of a DELAY(10) at C = 1. -/
theorem witness_Delay :
    ∀ k ∈ [0, 9], quietInputs.hwFault = false ∧ microOp (running slow 1#4 1 k []) = some (.delay 10)
      ∧ (running slow 1#4 1 k []).cnt < 10 * ((running slow 1#4 1 k []).cfg.clkHz / 1000) := by decide +kernel

theorem witness_SetStateAndEnd :
    (quietInputs.hwFault = false ∧ microOp (running slow 2#4 6 0 []) = some (.setState .initializing)
      ∧ (running slow 2#4 6 0 []).cnt = 0)
    ∧ (microOp (running slow 5#4 1 0 []) = some (.finish .idle .busy)) := by decide +kernel

/-- The start edge; sample 1 that sees idle, times out, goes on; an edge between samples (C = 1). -/
theorem witness_Wait :
    let p := fun s : State => s.cfg.pollMs * (s.cfg.clkHz / 1000)
    (quietInputs.hwFault = false ∧ microOp (running slow 5#4 0 0 []) = some .wait
      ∧ (running slow 5#4 0 0 []).cnt = 0)
    ∧ (microOp (running slow 5#4 0 10 []) = some .wait ∧ (running slow 5#4 0 10 []).cfg.wf = true
      ∧ (running slow 5#4 0 10 []).cnt = p (running slow 5#4 0 10 []) * 1
      ∧ (running slow 5#4 0 10 []).busySync ≠ (running slow 5#4 0 10 []).cfg.busyActiveLevel)
    ∧ (microOp (waiting 10#32 80000) = some .wait ∧ (waiting 10#32 80000).cfg.wf = true
      ∧ (waiting 10#32 80000).cnt = p (waiting 10#32 80000) * 1
      ∧ (waiting 10#32 80000).busySync = (waiting 10#32 80000).cfg.busyActiveLevel
      ∧ (waiting 10#32 80000).opTimeout.toNat ≤ (waiting 10#32 80000).cfg.pollMs * 1)
    ∧ (microOp (waiting 11#32 80000) = some .wait ∧ (waiting 11#32 80000).cfg.wf = true
      ∧ (waiting 11#32 80000).cnt = p (waiting 11#32 80000) * 1
      ∧ (waiting 11#32 80000).busySync = (waiting 11#32 80000).cfg.busyActiveLevel
      ∧ (waiting 11#32 80000).cfg.pollMs * 1 < (waiting 11#32 80000).opTimeout.toNat)
    ∧ (microOp (running slow 5#4 0 9 []) = some .wait ∧ 0 < (running slow 5#4 0 9 []).cnt
      ∧ (running slow 5#4 0 9 []).cnt % p (running slow 5#4 0 9 []) ≠ 0) := by decide +kernel

/-! ### Witnesses: one edge -/

theorem witness_StepRunsHostCommand :
    (∀ s ∈ [idle [wr 0x00#6 3#32], running slow 5#4 0 0 [wr 0x03#6 3#32]],
      s.input.rstN = true ∧ s.input.regWe = true ∧ s.input.regAddr.extractLsb' 2 4 = 0#4
      ∧ decodeHost s.input.regWdata = .ok .clear)
    ∧ (idle [wr 0x00#6 3#32]).active = false ∧ (running slow 5#4 0 0 [wr 0x03#6 3#32]).active = true := by
  decide +kernel

/-- A byte that a row names, and one that none names. -/
theorem witness_StepRunsFrame :
    let s := running slow 2#4 7 0 [quietInputs]
    let u := running { slow with initTable := [⟨0xFF#8, []⟩] } 2#4 9 0 [quietInputs]
    (s.input.rstN = true ∧ s.input.hwFault = false ∧ s.input.regWe = false ∧ s.active = true
      ∧ microOp s = some (.byte false (.const 0x12#8))
      ∧ decodeFrameIn s.op (mkFrame false (sourceByte s.input s (.const 0x12#8))) = .ok .cSwreset)
    ∧ (u.input.rstN = true ∧ u.input.hwFault = false ∧ u.input.regWe = false ∧ u.active = true
      ∧ microOp u = some (.byte false (.const 0xFF#8))
      ∧ decodeFrameIn u.op (mkFrame false (sourceByte u.input u (.const 0xFF#8)))
          = .error (.unlistedOpcode 0xFF#8)) := by decide +kernel

theorem witness_BlockReset : (running slow 3#4 4 13 [{ quietInputs with rstN := false }]).input.rstN = false := by
  decide +kernel

theorem witness_ResetState : (∃ c, State.reset = State.resetOf c) ∧ ∃ c, State.resetOf mono = State.resetOf c :=
  ⟨⟨_, rfl⟩, ⟨_, rfl⟩⟩

theorem witness_Abort :
    (running slow 3#4 0 4 [faultCycle]).input.rstN = true ∧ (running slow 3#4 0 4 [faultCycle]).active = true
    ∧ (running slow 3#4 0 4 [faultCycle]).input.hwFault = true := by decide +kernel

theorem witness_FaultIgnored : (idle []).active = false := by decide +kernel

/-- A stored word, and the offsets 0x00, 0x04, 0x14 and 0x3C of the two other clauses. -/
theorem witness_RegisterWrites :
    ((idle [wr 0x08#6 7#32]).input.rstN = true ∧ ∃ t, step (idle [wr 0x08#6 7#32]) = .next t)
    ∧ (wr 0x07#6 7#32).regAddr.extractLsb' 2 4 = 1#4 ∧ 5 ≤ ((wr 0x14#6 7#32).regAddr.extractLsb' 2 4).toNat
    ∧ 5 ≤ ((wr 0x3F#6 7#32).regAddr.extractLsb' 2 4).toNat
    ∧ (wr 0x03#6 7#32).regWe = true ∧ (wr 0x03#6 7#32).regAddr.extractLsb' 2 4 = 0#4 :=
  ⟨⟨rfl, some_next (by decide +kernel)⟩, by decide +kernel, by decide +kernel, by decide +kernel, by decide +kernel, by decide +kernel⟩

theorem witness_StatusFields : (wr 0x04#6 7#32).regAddr.extractLsb' 2 4 = 1#4 := by decide +kernel

theorem witness_ReadAfterWrite :
    ∀ a ∈ [0x08#6, 0x0C#6, 0x10#6, 0x00#6], (idle [wr a 7#32]).input.rstN = true
      ∧ (idle [wr a 7#32]).input.regWe = true ∧ (idle [wr a 7#32]).input.regAddr = a
      ∧ (idle [wr a 7#32]).active = false ∧ ∃ t, step (idle [wr a 7#32]) = .next t :=
  fun a ha => ⟨rfl, rfl, rfl, rfl, some_next (by revert a; decide +kernel)⟩

theorem witness_RegisterReads : State.reset.cfg.width = 296 ∧ State.reset.cfg.height = 128 := by decide

theorem witness_BusyStages :
    (idle [busyCycle]).input.rstN = true ∧ (∃ t, step (idle [busyCycle]) = .next t)
    ∧ SeqInv (idle [busyCycle]) ∧ (idle [busyCycle]).cfg.syncStages = 2 :=
  ⟨rfl, some_next (by decide +kernel), seqInv_of (by decide +kernel), rfl⟩

/-- The last byte of a frame, across the top of the address space. -/
def lastByte : State :=
  { running slow 4#4 4736 0 [quietInputs] with opBase := 0xFFFFFFFF#32, mem := [(4734, 0x5A#8)] }

theorem witness_FrameByte :
    lastByte.input.rstN = true ∧ lastByte.input.hwFault = false ∧ lastByte.active = true
    ∧ lastByte.cfg.wf = true ∧ lastByte.cnt = 0 ∧ microOp lastByte = some (.byte true (.frame 4735))
    ∧ (lastByte.opBase.toNat + 4735) % 2 ^ lastByte.cfg.addrW ∉ lastByte.contended
    ∧ lastByte.input.memWrites = []
    ∧ Memory.read lastByte.mem ((lastByte.opBase.toNat + 4735) % 2 ^ lastByte.cfg.addrW) = some 0x5A#8 := by
  decide +kernel

theorem witness_FramePort :
    (running slow 4#4 1 0 []).active = true ∧ (running slow 4#4 1 0 []).cnt = 0
    ∧ microOp (running slow 4#4 1 0 []) = some (.byte true (.frame 0))
    ∧ (running slow 4#4 1 0 []).cfg.addrW = 32 ∧ (running other 4#4 1 0 []).cfg.addrW ≤ 32
    ∧ fbRd (running slow 4#4 1 0 []) = true ∧ fbRd (running slow 4#4 1 1 []) = false := by decide +kernel

theorem witness_Inactive :
    (idle [busyCycle]).input.rstN = true ∧ (idle [busyCycle]).input.regWe = false
    ∧ (idle [busyCycle]).active = false := by decide +kernel

/-- A cycle in which the host writes address 7, which is not 8. -/
theorem witness_OnlyTheHost :
    let s := idle [{ quietInputs with memWrites := [(7#32, 1#8)] }]
    (∃ t, step s = .next t) ∧ s.input.memWrites = [(7#32, 1#8)] ∧ (7#32).toNat ≠ 8 :=
  ⟨some_next (by decide +kernel), rfl, by decide⟩

theorem witness_Latch :
    ((idle [wr 0x00#6 5#32]).input.rstN = true ∧ (idle [wr 0x00#6 5#32]).active = false
      ∧ ∃ t, step (idle [wr 0x00#6 5#32]) = .next t ∧ t.active = true)
    ∧ ((running slow 5#4 0 0 [quietInputs]).active = true ∧ ∃ t, step (running slow 5#4 0 0 [quietInputs]) = .next t)
    ∧ ∃ t, step (idle [quietInputs]) = .next t ∧ (!t.active) = true :=
  ⟨⟨rfl, rfl, next_of (fun t => t.active) (by decide +kernel)⟩, ⟨rfl, some_next (by decide +kernel)⟩,
    next_of (fun t => !t.active) (by decide +kernel)⟩

theorem witness_RunningIgnoresTheBus :
    quietInputs.rstN = true ∧ (running slow 5#4 0 0 []).active = true
    ∧ (∃ t, clockEdge quietInputs (running slow 5#4 0 0 []) = .next t)
    ∧ ∃ u, clockEdge { quietInputs with regWe := true, regAddr := 0x00#6, regWdata := 1#32 }
        (running slow 5#4 0 0 []) = .next u :=
  ⟨rfl, rfl, some_next (by decide +kernel), some_next (by decide +kernel)⟩

/-- No operation; the abort; a micro-op other than SETRST and BYTE. -/
theorem witness_PinsMove :
    ((idle [quietInputs]).input.rstN = true ∧ (idle [quietInputs]).active = false
      ∧ ∃ t, step (idle [quietInputs]) = .next t)
    ∧ ((running slow 3#4 0 4 [faultCycle]).input.hwFault = true
      ∧ ∃ t, step (running slow 3#4 0 4 [faultCycle]) = .next t)
    ∧ (running slow 5#4 0 0 [quietInputs]).input.hwFault = false
    ∧ microOp (running slow 5#4 0 0 [quietInputs]) = some .wait
    ∧ ∃ t, step (running slow 5#4 0 0 [quietInputs]) = .next t :=
  ⟨⟨rfl, rfl, some_next (by decide +kernel)⟩, ⟨rfl, some_next (by decide +kernel)⟩, rfl, rfl,
    some_next (by decide +kernel)⟩

/-! ### Witnesses: programs and builds -/

theorem witness_Variants :
    Config.default.panelVariant = .threeColor ∧ mono.panelVariant = .mono
    ∧ Config.default.wf = true ∧ mono.wf = true ∧ other.wf = true
    ∧ Config.default.initTable = Config.defaultInitTable ∧ Config.default.sourceValues = true := by decide +kernel

theorem witness_BuildsEmit :
    (0x012#9 ∈ streamOf (fun _ => 0#8) (program Config.default 2#4) ∧ decodeFrameIn 2#4 0x012#9 = .ok .cSwreset)
    ∧ 0x180#9 ∈ streamOf (fun _ => 0#8) (program Config.default 2#4) := by decide +kernel

theorem witness_OpRange : 1 ≤ (1#4).toNat ∧ (1#4).toNat ≤ 5 ∧ 1 ≤ (5#4).toNat
    ∧ (5#4).toNat ≤ 5 := by decide +kernel

/-- The slowest build, an SCLK below its target, one at it, and another target. -/
theorem witness_DerivedClock :
    (slow.wf = true ∧ slow.clkHz ≤ slow.spiHzMax * (2 * 1) ∧ slow.spiHzMax = 4000000)
    ∧ (Config.wf { Config.default with clkHz := 8001000 } = true ∧ 8001000 ≤ Config.default.spiHzMax * (2 * 2))
    ∧ (Config.default.wf = true ∧ Config.default.clkHz % (2 * Config.default.spiHzMax) = 0)
    ∧ (other.wf = true ∧ other.clkHz % (2 * other.spiHzMax) = 0) := by decide +kernel

theorem witness_LegalBuild : slow.wf = true ∧ fast.wf = true ∧ mono.wf = true ∧ other.wf = true := by decide +kernel

/-! ### Witnesses: invariants and runs -/

/-- The step invariants are met by a running byte, and its step answers. -/
theorem witness_StepInvariants :
    let s := running slow 2#4 7 0 [quietInputs]
    SeqInv s ∧ pinsOk s = true ∧ driverStateOk s = true ∧ resultOk s = true ∧ waitOk s = true
    ∧ s.cfg.pollMs = 10 ∧ s.active = true ∧ s.input.rstN = true ∧ s.input.hwFault = false
    ∧ ∃ t, step s = .next t :=
  ⟨seqInv_of (by decide +kernel), by decide +kernel, by decide +kernel, by decide +kernel, by decide +kernel,
    rfl, rfl, rfl, rfl, some_next (by decide +kernel)⟩

/-- The same inside a busy-wait that goes on (R135's exact count). -/
theorem witness_CountsDown :
    let s := running slow 5#4 0 0 [quietInputs]
    SeqInv s ∧ s.active = true ∧ s.input.rstN = true ∧ s.input.hwFault = false ∧ microOp s = some .wait
    ∧ ∃ t, step s = .next t ∧ (t.upc == s.upc) = true :=
  ⟨seqInv_of (by decide +kernel), rfl, rfl, rfl, rfl, next_of (fun t => t.upc == 0) (by decide +kernel)⟩

/-- DC moves in slot 0, CS in slot 1. -/
theorem witness_Framing :
    let s := { running slow 2#4 7 1 [quietInputs] with sh := 0x12#8, pinDc := true }
    let u := { running slow 2#4 7 2 [quietInputs] with sh := 0x12#8 }
    (SeqInv s ∧ pinsOk s = true ∧ s.input.rstN = true ∧ ∃ t, step s = .next t ∧ (t.pinDc != s.pinDc) = true)
    ∧ SeqInv u ∧ pinsOk u = true ∧ u.input.rstN = true ∧ u.input.hwFault = false
    ∧ ∃ t, step u = .next t ∧ (t.pinCs != u.pinCs) = true :=
  ⟨⟨seqInv_of (by decide +kernel), by decide +kernel, rfl, next_of (fun t => t.pinDc != true) (by decide +kernel)⟩,
    seqInv_of (by decide +kernel), by decide +kernel, rfl, rfl,
    next_of (fun t => t.pinCs != true) (by decide +kernel)⟩

/-- A transition of R139: CLEAR is accepted from Idle. -/
theorem witness_Transition :
    let s := idle [wr 0x00#6 3#32]
    SeqInv s ∧ driverStateOk s = true ∧ s.input.rstN = true
    ∧ ∃ t, step s = .next t ∧ (t.state != s.state) = true :=
  ⟨seqInv_of (by decide +kernel), by decide +kernel, rfl, next_of (fun t => t.state != .idle) (by decide +kernel)⟩

theorem witness_OperationEnds :
    SeqInv (running slow 3#4 0 0 []) ∧ (running slow 3#4 0 0 []).active = true
    ∧ (running slow 3#4 0 0 []).upc = 0 ∧ (running slow 3#4 0 0 []).cnt = 0 :=
  ⟨seqInv_of (by decide +kernel), rfl, rfl, rfl⟩

/-- `n` bytes from address `a` on. -/
def buffer (b : Byte) : Nat → Nat → Memory
  | _, 0 => []
  | a, n + 1 => (a, b) :: buffer b (a + 1) n

theorem buffer_addresses {b : Byte} {a n : Nat} : ∀ c ∈ buffer b a n, a ≤ c.1 ∧ c.1 < a + n := by
  induction n generalizing a with
  | zero => simp [buffer]
  | succ n ih =>
    intro c hc
    rcases List.mem_cons.1 hc with rfl | hc
    · exact ⟨le_refl a, by omega⟩
    · have := ih c hc
      omega

theorem buffer_wf {b : Byte} {a n : Nat} (h : a + n ≤ 4294967296) : Memory.wf (buffer b a n) = true := by
  have hr : ∀ a n, Memory.rising (buffer b a n) = true := by
    intro a n
    induction n generalizing a with
    | zero => rfl
    | succ n ih =>
      simp only [buffer, Memory.rising, Bool.and_eq_true, List.all_eq_true, decide_eq_true_eq]
      exact ⟨fun c hc => by have := buffer_addresses c hc; omega, ih _⟩
  simp only [Memory.wf, hr, Bool.true_and, List.all_eq_true, decide_eq_true_eq]
  exact fun c hc => by have := buffer_addresses c hc; omega

theorem buffer_read {b : Byte} {a n k : Nat} (h : k < n) : Memory.read (buffer b a n) (a + k) = some b := by
  induction n generalizing a k with
  | zero => omega
  | succ n ih =>
    cases k with
    | zero => simp [buffer, Memory.read]
    | succ k =>
      have := ih (a := a + 1) (k := k) (by omega)
      rw [show a + 1 + k = a + (k + 1) by omega] at this
      simp [buffer, Memory.read, this]

/-- An operation at its acceptance on frame memory `m`, with quiet cycles up to its end. -/
def undisturbed (op : BitVec 4) (m : Memory) : State :=
  { running slow op 0 0 (List.replicate (remaining (running slow op 0 0 [])) quietInputs) with mem := m }

theorem undisturbed_calm (op : BitVec 4) (m : Memory) :
    calmFor (remaining (undisturbed op m)) (undisturbed op m) := by
  rw [undisturbed, remaining_running]
  exact calm_of rfl rfl rfl

theorem undisturbed_contended (op : BitVec 4) (m : Memory) : (undisturbed op m).contended = [] := rfl
theorem undisturbed_mem (op : BitVec 4) (m : Memory) : (undisturbed op m).mem = m := rfl
theorem undisturbed_inputs (op : BitVec 4) (m : Memory) :
    (undisturbed op m).inputs = List.replicate (remaining (running slow op 0 0 [])) quietInputs := rfl
theorem undisturbed_addr {op : BitVec 4} {m : Memory} {k : Nat} (h : k < planeBytes slow) :
    (frameAddr (undisturbed op m) k).toNat = k := by
  have hb : (undisturbed op m).opBase = 0#32 := rfl
  have hw : (undisturbed op m).cfg.addrW = 32 := rfl
  have hk : k < 4736 := h
  rw [frameAddr, hb, hw, BitVec.toNat_ofNat, BitVec.toNat_ofNat]
  omega

/-- The hypotheses of the stream statement for an INIT. -/
theorem witness_StreamInit :
    let s := undisturbed 2#4 []
    SeqInv s ∧ pinsOk s = true ∧ s.active = true ∧ s.upc = 0 ∧ s.cnt = 0 ∧ s.timedOut = false
    ∧ calmFor (remaining s) s ∧ bufferKept (fun _ => 0#8) (remaining s) s :=
  ⟨⟨rfl, rfl, by decide +kernel, rfl⟩, by decide +kernel, rfl, rfl, rfl, rfl, undisturbed_calm _ _,
    fun h => absurd h (by decide +kernel)⟩

/-- The same for a WRITE_FRAME whose whole buffer the host wrote. -/
theorem witness_StreamWriteFrame :
    let s := undisturbed 4#4 (buffer 0xA5#8 0 4736)
    SeqInv s ∧ pinsOk s = true ∧ s.active = true ∧ s.upc = 0 ∧ s.cnt = 0 ∧ s.timedOut = false
    ∧ s.op = 4#4 ∧ calmFor (remaining s) s ∧ bufferKept (fun _ => 0xA5#8) (remaining s) s := by
  refine ⟨⟨rfl, buffer_wf (by decide +kernel), by decide +kernel, rfl⟩, by decide +kernel, rfl, rfl, rfl, rfl, rfl,
    undisturbed_calm _ _, fun _ k hk => ?_⟩
  rw [undisturbed_addr hk, undisturbed_contended, undisturbed_mem]
  have hb := buffer_read (b := 0xA5#8) (a := 0) (n := 4736) hk
  rw [Nat.zero_add] at hb
  refine ⟨List.not_mem_nil, hb, fun j i _ hi w hw => ?_⟩
  rw [undisturbed_inputs] at hi
  have hq : i = quietInputs := List.eq_of_mem_replicate (List.mem_of_getElem? hi)
  subst hq
  exact absurd hw List.not_mem_nil

theorem witness_ResetPulse :
    let s := running slow 1#4 0 0 (List.replicate (30 * (slow.clkHz / 1000) + 4) quietInputs)
    SeqInv s ∧ s.active = true ∧ s.op = 1#4 ∧ s.upc = 0 ∧ s.cnt = 0 ∧ s.timedOut = false
    ∧ calmFor (30 * (s.cfg.clkHz / 1000) + 4) s :=
  ⟨seqInv_of (by decide +kernel), rfl, rfl, rfl, rfl, rfl, calm_of rfl rfl rfl⟩

/-- BUSY held idle, and held active with T = 20, so M = 2. -/
theorem witness_WaitIdle :
    (∃ s : State, SeqInv s ∧ s.active = true ∧ s.op = 5#4 ∧ s.upc = 0 ∧ s.cnt = 0 ∧ s.timedOut = false
      ∧ false ≠ s.cfg.busyActiveLevel ∧ calmFor (2 + s.cfg.pollMs * (s.cfg.clkHz / 1000)) s
      ∧ busyHeld false (2 + s.cfg.pollMs * (s.cfg.clkHz / 1000)) s)
    ∧ ∃ s : State, SeqInv s ∧ s.active = true ∧ s.op = 5#4 ∧ s.upc = 0 ∧ s.cnt = 0 ∧ s.timedOut = false
      ∧ 2 = max 1 ((s.opTimeout.toNat + s.cfg.pollMs - 1) / s.cfg.pollMs)
      ∧ calmFor (2 + s.cfg.pollMs * (s.cfg.clkHz / 1000) * 2) s
      ∧ busyHeld s.cfg.busyActiveLevel (2 + s.cfg.pollMs * (s.cfg.clkHz / 1000) * 2) s :=
  ⟨⟨running slow 5#4 0 0 (List.replicate 12 quietInputs), seqInv_of (by decide +kernel), rfl, rfl, rfl, rfl, rfl,
    by decide +kernel, calm_of rfl rfl rfl, held_of rfl rfl rfl rfl rfl⟩,
   ⟨{ running slow 5#4 0 0 (List.replicate 22 busyCycle) with
        opTimeout := 20#32, busyS1 := true, busySync := true }, seqInv_of (by decide +kernel), rfl, rfl, rfl, rfl,
    rfl, by decide +kernel, calm_of rfl rfl rfl, held_of rfl rfl rfl rfl rfl⟩⟩

/-- Each kind of line, IDLE 1 among them, an idle cycle under way, and the build whose FRAME is stated. -/
theorem witness_HostLines :
    (hostStart [.wr .cmd 1#32]).idle = 0 ∧ (hostStart [.wr .cmd 1#32]).rest = [.wr .cmd 1#32]
    ∧ (hostStart [.rd .status 0]).rest = [.rd .status 0]
    ∧ ((hostStart [.idle 1]).idle = 0 ∧ (hostStart [.idle 1]).rest = .idle 1 :: [] ∧ 1 ≤ 1)
    ∧ 0 < ({ hostStart [] with idle := 1 } : HostCtl).idle
    ∧ (hostStart [.idle 0]).rest = [.idle 0] ∧ (hostStart [.label 4]).rest = [.label 4]
    ∧ (hostStart [.bnz 0 3 4]).rest = [.bnz 0 3 4] ∧ (hostStart [.bz 0 3 4]).rest = [.bz 0 3 4]
    ∧ (∀ u ∈ ([.idle 2, .label 3] : List HostLine), u ≠ .label 4) ∧ (1 : Nat) ≠ 0
    ∧ Config.default.sourceValues = true := by decide +kernel

end Tests
end Sys2Proof
end

section
/-! PROOFS, 00_scope.md R7 and R8: H is a ceiling division, so Mathlib's Galois connection for `⌈/⌉` says that
it is the least half-period which keeps SCLK at or below SPI_HZ_MAX. -/

namespace Sys2Proof
namespace Machine

theorem spiHzMax_pos {c : Config} (h : c.wf = true) : 0 < c.spiHzMax := by
  simp [Config.wf, Config.ratesOk] at h
  omega

/-- A legal CLK_HZ is a multiple of 1000 (R234), so C loses nothing to the division. -/
theorem cyclesPerMs_mul_1000 {c : Config} (h : c.wf = true) : cyclesPerMs c * 1000 = c.clkHz := by
  simp [Config.wf, Config.clockOk] at h
  unfold cyclesPerMs
  omega

/-- The model's quotient and carry, as the library's ceiling division. -/
theorem halfPeriod_eq_ceilDiv {c : Config} (h : 0 < c.spiHzMax) :
    halfPeriod c = c.clkHz ⌈/⌉ (2 * c.spiHzMax) := by
  have hd : 0 < 2 * c.spiHzMax := by omega
  have hlt : 2 * c.spiHzMax - 1 < 2 * c.spiHzMax := by omega
  rw [halfPeriod, Nat.ceilDiv_eq_add_pred_div, Nat.add_sub_assoc hd, Nat.add_div hd, Nat.div_eq_of_lt hlt,
    Nat.mod_eq_of_lt hlt, Nat.add_zero]
  -- the remainder carries exactly when it is not 0
  split_ifs <;> omega

/-- The half-periods from H on are those with SCLK = CLK_HZ / 2h at most SPI_HZ_MAX. -/
theorem halfPeriod_le_iff {c : Config} (h : 0 < c.spiHzMax) (n : Nat) :
    halfPeriod c ≤ n ↔ c.clkHz ≤ c.spiHzMax * (2 * n) := by
  rw [halfPeriod_eq_ceilDiv h, ceilDiv_le_iff_le_mul (Nat.mul_pos Nat.two_pos h), Nat.mul_left_comm, Nat.mul_assoc]

theorem sclk_exact_of_dvd {c : Config} (h : c.clkHz % (2 * c.spiHzMax) = 0) :
    c.clkHz = c.spiHzMax * (2 * halfPeriod c) := by
  have hH : halfPeriod c = c.clkHz / (2 * c.spiHzMax) := by rw [halfPeriod, if_pos h, Nat.add_zero]
  rw [hH, Nat.mul_left_comm, ← Nat.mul_assoc, Nat.mul_div_cancel' (Nat.dvd_of_mod_eq_zero h)]

/-- Settles O44: `halfPeriod_le_iff` at H itself is the bound on SCLK, and at any other h says that H is least. -/
theorem derivedClockTimes : Obligations.DerivedClockTimes := by
  intro c hc
  have hf := spiHzMax_pos hc
  refine ⟨cyclesPerMs_mul_1000 hc, cyclesPerMs_pos hc, halfPeriod_pos hc, (halfPeriod_le_iff hf _).1 le_rfl,
    fun n _ hn => (halfPeriod_le_iff hf n).2 hn, sclk_exact_of_dvd, fun hR7 => ?_⟩
  rw [halfPeriod_eq_ceilDiv hf, Nat.ceilDiv_eq_add_pred_div, hR7]
  omega

end Machine
end Sys2Proof
end

section
/-! PROOFS, 10_state.md R34, R42, R44: every step keeps the base invariant. The build is fixed and memory changes
only by the host's writes; a position moves inside P(op) by cases on what a step can do (`step_cases`). -/

namespace Sys2Proof
namespace Machine

/-! ### What the bus and a step leave -/

theorem busNext_keeps_build_and_memory (i : Inputs) (s : State) :
    (busNext i s).cfg = s.cfg ∧ (busNext i s).mem = s.mem := by
  cases ha : s.active with
  | true =>
    obtain ⟨_, _, _, _, e⟩ := busNext_active i ha
    simp [e]
  | false => rcases busNext_inactive i ha with ⟨_, _, _, e⟩ | ⟨_, _, e⟩ | ⟨_, _, e⟩ <;> simp [e]

@[simp] theorem busNext_cfg (i : Inputs) (s : State) : (busNext i s).cfg = s.cfg :=
  (busNext_keeps_build_and_memory i s).1

@[simp] theorem busNext_mem (i : Inputs) (s : State) : (busNext i s).mem = s.mem :=
  (busNext_keeps_build_and_memory i s).2

theorem busNext_active_of_active (i : Inputs) {s : State} (ha : s.active = true) : (busNext i s).active = true := by
  obtain ⟨_, _, _, _, e⟩ := busNext_active i ha
  rw [e]; exact ha

/-- Nothing changes the build (20_memory.md R79). -/
theorem step_cfg {s t : State} (h : step s = .next t) : t.cfg = s.cfg := by
  rcases step_cases h with ⟨_, rfl⟩ | ⟨_, _, rfl⟩ | ⟨_, _, _, rfl⟩ | ⟨_, _, _, _, _, rfl⟩ <;> simp

/-- Only the host writes frame memory (20_memory.md R71). -/
theorem step_mem {s t : State} (h : step s = .next t) : t.mem = Memory.writeAll s.mem s.input.memWrites := by
  rcases step_cases h with ⟨_, rfl⟩ | ⟨_, _, rfl⟩ | ⟨_, _, _, rfl⟩ | ⟨_, _, _, _, _, rfl⟩ <;> simp

/-! ### The sequencer's position -/

theorem positionOk_idle_iff {s : State} (ha : s.active = false) :
    positionOk s = true ↔ s.upc = 0 ∧ s.cnt = 0 := by
  simp [positionOk, ha]

theorem positionOk_running_iff {s : State} (ha : s.active = true) :
    positionOk s = true ↔ ∃ u, microOp s = some u ∧ s.cnt < microDur s.cfg s.opTimeout u := by
  cases hu : microOp s <;> simp [positionOk, ha, hu]

theorem positionOk_of_lt {s : State} {u : MicroOp} (ha : s.active = true) (hu : microOp s = some u)
    (h : s.cnt < microDur s.cfg s.opTimeout u) : positionOk s = true :=
  (positionOk_running_iff ha).2 ⟨u, hu, h⟩

/-- A micro-op may begin wherever the program has one: in a legal build it takes at least one edge. -/
theorem positionOk_of_begin {s : State} {u : MicroOp} (hc : s.cfg.wf = true) (ha : s.active = true)
    (hu : microOp s = some u) (h0 : s.cnt = 0) : positionOk s = true :=
  positionOk_of_lt ha hu (h0 ▸ dur_pos_at hc s.opTimeout hu)

theorem program_head (c : Config) {op : BitVec 4} (h : legalOp op) : ∃ u, (program c op)[0]? = some u := by
  have hend := (List.getElem?_eq_some_iff.1 (endIndex_finish c h)).1
  exact ⟨_, List.getElem?_eq_getElem (by omega)⟩

/-- The bus moves no counter of a running operation, and an accepted command stands at its program's head. -/
theorem positionOk_busNext (i : Inputs) {s : State} (hc : s.cfg.wf = true) (h : positionOk s = true) :
    positionOk (busNext i s) = true := by
  cases ha : s.active with
  | true =>
    obtain ⟨_, _, _, _, e⟩ := busNext_active i ha
    rw [e]; exact h
  | false =>
    rcases busNext_inactive i ha with ⟨_, _, _, e⟩ | ⟨_, _, e⟩ | ⟨hl, _, e⟩ <;> rw [e]
    · exact h
    · exact h
    · obtain ⟨u, hu⟩ := program_head s.cfg hl
      exact positionOk_of_begin hc rfl (u := u) hu rfl

/-- SETRST, DELAY, BYTE and SETSTATE count up to their duration, then leave to the next micro-op: they are not END. -/
theorem positionOk_timed (i : Inputs) {s : State} {u : MicroOp} (hc : s.cfg.wf = true) (ha : s.active = true)
    (hu : microOp s = some u) (h : s.cnt < microDur s.cfg s.opTimeout u) (ht : timed u = true) :
    positionOk (microNext i s u) = true := by
  obtain ⟨hact, _, _, _, hlast, hmore⟩ := microNext_timed (i := i) (s := s) ht
  rw [ha] at hact
  by_cases hl : s.cnt + 1 = microDur s.cfg s.opTimeout u
  · obtain ⟨hupc, hcnt⟩ := hlast hl
    obtain ⟨v, hv⟩ := next_exists hu (by rintro a b rfl; cases ht)
    exact positionOk_of_begin (by simpa using hc) hact (u := v) (by simpa [microOp, hupc] using hv) hcnt
  · obtain ⟨hupc, hcnt⟩ := hmore hl
    refine positionOk_of_lt hact (u := u) (by simpa [microOp, hupc] using hu) ?_
    simp only [microNext_cfg, microNext_opTimeout, hcnt]
    omega

/-- A sample at which neither the panel is idle nor the timeout reached is not the last one (45_busy_wait.md R186). -/
theorem sample_lt_lastSample {c : Config} {t : Word} {m : Nat} (hc : c.wf = true) (hm : 1 ≤ m)
    (h : c.pollMs * m < t.toNat) : m < lastSample c t := by
  by_contra hge
  exact absurd ((lastSample_le_iff hc hm).1 (Nat.le_of_not_lt hge)) (Nat.not_le.2 h)

/-- A WAIT counts on only before its last sample edge, POLL_MS·C·M, and leaves to a micro-op of its program. -/
theorem positionOk_waitEdge {s : State} (hc : s.cfg.wf = true) (ha : s.active = true)
    (hu : microOp s = some .wait) (h : s.cnt < microDur s.cfg s.opTimeout .wait) :
    positionOk (waitEdge s) = true := by
  have hp := pollEdges_pos hc
  have hend := endIndex_finish s.cfg (legalOp_of_getElem? hu)
  obtain ⟨v, hv⟩ := next_exists hu (by simp)
  have hcount : ∀ k, k < pollEdges s.cfg * lastSample s.cfg s.opTimeout →
      k + 1 < microDur s.cfg s.opTimeout .wait := fun k hk => by simp only [microDur]; omega
  rcases wait_cases s with
    ⟨_, e⟩ | ⟨_, hmid, e⟩ | ⟨_, _, _, _, _, e⟩ | ⟨_, _, _, _, _, _, e⟩ | ⟨_, m, hk, hm, _, ht, e⟩ <;> rw [e]
  · -- the start edge: at least one poll interval follows
    exact positionOk_of_lt ha hu (hcount 0 (Nat.mul_pos hp (lastSample_pos _ _)))
  · -- between samples: the last edge of a WAIT would be a sample edge
    have hne : s.cnt ≠ pollEdges s.cfg * lastSample s.cfg s.opTimeout := fun he => hmid (by simp [he])
    refine positionOk_of_lt ha hu (hcount s.cnt ?_)
    simp only [microDur] at h
    omega
  · exact positionOk_of_begin hc ha hv rfl
  · exact positionOk_of_begin hc ha hend rfl
  · -- a sample that ends nothing is before the last
    refine positionOk_of_lt ha hu (hcount s.cnt ?_)
    rw [hk]
    exact Nat.mul_lt_mul_of_pos_left (sample_lt_lastSample hc hm ht) hp

theorem positionOk_microNext (i : Inputs) {s : State} {u : MicroOp} (hc : s.cfg.wf = true)
    (ha : s.active = true) (hu : microOp s = some u) (h : s.cnt < microDur s.cfg s.opTimeout u) :
    positionOk (microNext i s u) = true := by
  cases u with
  | wait => exact positionOk_waitEdge hc ha hu h
  | finish a b => exact (positionOk_idle_iff (by simp [microNext])).2 (by simp [microNext])
  | setRst v => exact positionOk_timed i hc ha hu h rfl
  | delay ms => exact positionOk_timed i hc ha hu h rfl
  | byte dc src => exact positionOk_timed i hc ha hu h rfl
  | setState d => exact positionOk_timed i hc ha hu h rfl

theorem positionOk_step {s t : State} (hc : s.cfg.wf = true) (hp : positionOk s = true) (h : step s = .next t) :
    positionOk t = true := by
  have hb := positionOk_busNext s.input hc hp
  rcases step_cases h with ⟨_, rfl⟩ | ⟨_, _, rfl⟩ | ⟨_, _, _, rfl⟩ | ⟨_, ha, _, u, hu, rfl⟩
  · rfl
  · exact hb
  · rfl
  · have hba := busNext_active_of_active s.input ha
    rw [← microOp_busNext s.input ha] at hu
    obtain ⟨v, hv, hlt⟩ := (positionOk_running_iff hba).1 hb
    obtain rfl : v = u := Option.some.inj (hv.symm.trans hu)
    exact positionOk_microNext s.input (by simpa using hc) hba hv hlt

/-! ### The synchroniser's stages -/

theorem two_le_syncStages {c : Config} (h : c.wf = true) : 2 ≤ c.syncStages := by
  simp [Config.wf, Config.widthsOk] at h
  omega

theorem stagesOk_iff {s : State} : stagesOk s = true ↔ s.busyMid.length + 2 = s.cfg.syncStages := by
  simp [stagesOk]

theorem stagesOk_resetOf {c : Config} (h : c.wf = true) : stagesOk (State.resetOf c) = true := by
  have := two_le_syncStages h
  simp only [stagesOk_iff, State.resetOf, List.length_replicate]
  omega

theorem stagesOk_step {s t : State} (hc : s.cfg.wf = true) (hs : stagesOk s = true) (h : step s = .next t) :
    stagesOk t = true := by
  cases hr : s.input.rstN with
  | false =>
    obtain rfl := Host.Outcome.next.inj ((step_reset hr).symm.trans h)
    exact stagesOk_resetOf hc
  | true =>
    obtain ⟨_, hmid, _⟩ := step_sync hr h
    rw [stagesOk_iff, hmid, step_cfg h, shiftStages_length]
    exact stagesOk_iff.1 hs

/-! ### The base invariant -/

/-- Settles O48: each part of the base invariant is kept by a lemma of its own. -/
theorem everyStepStaysInItsProgram : Obligations.EveryStepStaysInItsProgram := by
  rintro s t ⟨hc, hm, hp, hs⟩ h
  exact ⟨step_cfg h ▸ hc, step_mem h ▸ Memory.wf_writeAll _ hm, positionOk_step hc hp h, stagesOk_step hc hs h⟩

/-- Settles O49: the one fault is raised outside the program, where `positionOk` does not stand. -/
theorem noStepStops : Obligations.NoStepStops := by
  rintro s ⟨_, _, hp, _⟩
  cases hr : s.input.rstN with
  | false => exact ⟨_, step_reset hr⟩
  | true =>
    cases ha : s.active with
    | false => exact ⟨_, step_inactive hr ha⟩
    | true =>
      cases hf : s.input.hwFault with
      | true => exact ⟨_, step_abort hr ha hf⟩
      | false =>
        obtain ⟨u, hu, _⟩ := (positionOk_running_iff ha).1 hp
        exact ⟨_, step_micro hr ha hf hu⟩

/-- Settles O47: with ACTIVE = 0 and nothing elapsed, only the number of stages depends on the build. -/
theorem resetMeetsTheInvariants : Obligations.ResetMeetsTheInvariants := by
  intro c hc
  have hwait : waitOk (State.resetOf c) = true := by simp [waitOk, State.resetOf]
  exact ⟨⟨hc, rfl, rfl, stagesOk_resetOf hc⟩, rfl, rfl, rfl, hwait⟩

/-- Settles O25: `State.reset` is the reset state of the default build, so both clauses are about `resetOf`. -/
theorem resetStateIsTheSpecs : Obligations.ResetStateIsTheSpecs := by
  refine ⟨fun r hr => ?_, rfl⟩
  obtain ⟨c, rfl⟩ : ∃ c, r = State.resetOf c := hr.elim (fun h => ⟨Config.default, h⟩) id
  have hmid : ∀ b ∈ (State.resetOf c).busyMid, b = false := fun _ hb => List.eq_of_mem_replicate hb
  exact ⟨rfl, rfl, rfl, rfl, rfl, rfl, rfl, rfl, rfl, rfl, rfl, rfl, rfl, rfl, hmid, rfl, rfl, rfl, rfl, rfl, rfl,
    rfl, rfl, rfl⟩

/-- Settles O32: with two stages the chain of `shiftStages_chain` has no middle. -/
theorem busyPassesTwoStages : Obligations.BusyPassesTwoStages := by
  intro s t hr h
  obtain ⟨hs1, hmid, hsync⟩ := step_sync hr h
  refine ⟨hs1, by rw [hmid, hsync, shiftStages_chain], ?_⟩
  rintro ⟨_, _, _, hs⟩ h2
  have hlen := stagesOk_iff.1 hs
  have hnil : s.busyMid = [] := List.length_eq_zero_iff.1 (by omega)
  rw [hsync, hnil, shiftStages_nil]

end Machine
end Sys2Proof
end

section
/-! PROOFS, 10_state.md R23, R33 and R41: STATUS, the latched operands and the frame-memory read port. -/

namespace Sys2Proof
namespace Machine

/-! ### STATUS -/

theorem statusWord_fields (s : State) :
    (statusWord s).extractLsb' 0 3 = stateCode s.state ∧ (statusWord s).extractLsb' 8 3 = resultCode s.result
    ∧ (statusWord s).extractLsb' 11 5 = 0#5 ∧ (statusWord s).extractLsb' 16 4 = s.lastOp
    ∧ (statusWord s).extractLsb' 20 12 = 0#12 := by
  refine ⟨?_, ?_, ?_, ?_, ?_⟩ <;>
    simp (disch := decide) only [statusWord, BitVec.extractLsb'_append_eq_of_le,
      BitVec.extractLsb'_append_eq_of_add_le, Nat.reduceSub, BitVec.extractLsb'_eq_self]

theorem statusWord_bits (s : State) :
    (statusWord s).getLsbD 3 = s.active ∧ (statusWord s).getLsbD 4 = s.busySync
    ∧ (statusWord s).getLsbD 5 = s.dropped ∧ (statusWord s).getLsbD 6 = panelBusy s
    ∧ (statusWord s).getLsbD 7 = false := by
  simp only [statusWord, BitVec.getLsbD_append]
  simp

theorem busNext_status {i : Inputs} (h : i.regAddr.extractLsb' 2 4 = 1#4) (s : State) : busNext i s = s := by
  have hr : regAt i.regAddr = .status := by simp [regAt, h]
  unfold busNext
  rw [hr]
  split <;> rfl

/-- Settles O30: the fields as STATUS is assembled, and a write to it through what the bus does to the state. -/
theorem statusFieldsReportTheState : Obligations.StatusFieldsReportTheState := by
  refine ⟨fun s => ?_, ⟨rfl, rfl, rfl, rfl, rfl, rfl, rfl⟩, ⟨rfl, rfl, rfl, rfl, rfl, rfl, rfl⟩,
    fun i s h => ?_⟩
  · obtain ⟨hstate, hresult, hrsv11, hlastOp, hrsv20⟩ := statusWord_fields s
    obtain ⟨hactive, hsync, hdropped, hbusy, hrsv7⟩ := statusWord_bits s
    exact ⟨hstate, hactive, hsync, hdropped, hbusy, hrsv7, hresult, hrsv11, hlastOp, hrsv20⟩
  · exact clockEdge_bus (busNext_status h s) rfl rfl rfl rfl

/-! ### The frame-memory read port -/

theorem fetchIndex_eq_some_iff {s : State} {k : Nat} :
    fetchIndex s = some k ↔ s.active = true ∧ s.cnt = 0 ∧ microOp s = some (.byte true (.frame k)) := by
  unfold fetchIndex
  split
  · rename_i hfetch
    simp only [hfetch, true_and]
    split
    · rename_i hu
      simp [hu]
    · rename_i hother
      exact ⟨nofun, fun hu => absurd hu (hother k)⟩
  · rename_i hno
    exact ⟨nofun, fun ⟨ha, h0, _⟩ => absurd ⟨ha, h0⟩ hno⟩

/-- Settles O34: both outputs follow from the fetch cycles of `fetchIndex`. -/
theorem framePortReadsOnlyInFetchCycles : Obligations.FramePortReadsOnlyInFetchCycles := by
  intro s
  refine ⟨?_, fun k ha h0 hu => ?_, fun h => ?_⟩
  · simp only [fbRd, Option.isSome_iff_exists, fetchIndex_eq_some_iff, exists_and_left]
  · have hk : fbAddr s = frameAddr s k := by simp [fbAddr, fetchIndex_eq_some_iff.2 ⟨ha, h0, hu⟩]
    refine ⟨fun hw => by rw [hk, frameAddr_toNat hw], fun hw => ?_⟩
    apply BitVec.eq_of_toNat_eq
    rw [hk, frameAddr_toNat hw.le, hw]
    simp
  · have hn : fetchIndex s = none := by simpa [fbRd] using h
    simp [fbAddr, hn]

/-! ### The latched operands -/

/-- Settles O37: of what an edge can do, acceptance alone writes the three. -/
theorem operandsAreLatchedAtAcceptance : Obligations.OperandsAreLatchedAtAcceptance := by
  intro s t hr h
  rcases step_cases h with ⟨h0, _⟩ | ⟨_, ha, rfl⟩ | ⟨_, ha, _, rfl⟩ | ⟨_, ha, _, _, _, rfl⟩
  · simp [hr] at h0
  · -- a stored register, a refused command, an accepted one
    rcases busNext_inactive s.input ha with ⟨_, _, _, e⟩ | ⟨_, _, e⟩ | ⟨_, _, e⟩ <;> simp [e, ha, hostOp]
  · obtain ⟨_, _, _, _, e⟩ := busNext_active s.input ha
    simp [e, ha]
  · obtain ⟨_, _, _, _, e⟩ := busNext_active s.input ha
    simp [e, ha]

end Machine
end Sys2Proof
end

section
/-! PROOFS, 10_state.md R25 and 42_sequencer.md R132: a running operation does not see the register bus. No edge of
the engine reads the four fields the bus then writes, so laying other values over them commutes with it. -/

namespace Sys2Proof
namespace Machine

/-- `s` with other values in the fields the register bus writes while ACTIVE = 1. -/
def withHostFields (d : Bool) (t b l : Word) (s : State) : State :=
  { s with dropped := d, timeoutMs := t, frameBase := b, frameLen := l }

section
variable (d : Bool) (t b l : Word) (s : State)

theorem advance_withHostFields (n : Nat) :
    advance n (withHostFields d t b l s) = withHostFields d t b l (advance n s) := by
  simp only [advance, apply_ite (withHostFields d t b l)]
  rfl

theorem byteSlot_withHostFields (dc : Bool) (n : Nat) :
    byteSlot dc n (withHostFields d t b l s) = withHostFields d t b l (byteSlot dc n s) := by
  simp only [byteSlot, apply_ite (withHostFields d t b l)]
  rfl

theorem byteAction_withHostFields (dc : Bool) (v : Byte) :
    byteAction dc v (withHostFields d t b l s) = withHostFields d t b l (byteAction dc v s) := by
  simp only [byteAction, byteSlot_withHostFields, apply_ite (withHostFields d t b l)]
  rfl

theorem waitEdge_withHostFields :
    waitEdge (withHostFields d t b l s) = withHostFields d t b l (waitEdge s) := by
  simp only [waitEdge, waitSample, apply_ite (withHostFields d t b l)]
  rfl

theorem finishEdge_withHostFields (x y : DriverState) :
    finishEdge x y (withHostFields d t b l s) = withHostFields d t b l (finishEdge x y s) := by
  simp only [finishEdge, apply_ite (withHostFields d t b l)]
  rfl

theorem microNext_withHostFields (i : Inputs) (u : MicroOp) :
    microNext i (withHostFields d t b l s) u = withHostFields d t b l (microNext i s u) := by
  cases u with
  | setRst v => exact advance_withHostFields d t b l { s with pinRst := v } 1
  | delay ms => exact advance_withHostFields d t b l s _
  | setState x => exact advance_withHostFields d t b l { s with state := x } 1
  | wait => exact waitEdge_withHostFields ..
  | finish x y => exact finishEdge_withHostFields ..
  | byte dc src =>
    simp only [microNext, byteEdge, byteAction_withHostFields, advance_withHostFields]
    rfl

theorem enginePhase_withHostFields (i : Inputs) :
    enginePhase i (withHostFields d t b l s)
      = andThen (enginePhase i s) fun x => .next (withHostFields d t b l x) := by
  cases hf : i.hwFault with
  | true => simp only [enginePhase_fault hf]; rfl
  | false =>
    have hm : microOp (withHostFields d t b l s) = microOp s := rfl
    cases hu : microOp s with
    | none => simp [enginePhase, hf, hm, hu, andThen]
    | some u => simp [enginePhase_micro hf hu, enginePhase_micro hf (hm.trans hu), microNext_withHostFields]

end

/-- An edge with ACTIVE = 1 is the engine's edge from the pre-edge state, with the host's fields laid over it. -/
theorem clockEdge_running {i : Inputs} {s : State} (hr : i.rstN = true) (ha : s.active = true) :
    ∃ d t b l, clockEdge i s = andThen (enginePhase i s) fun x =>
      .next (withHostFields d t b l
        (surroundings i (writeFrameActive s || writeFrameActive x) (synchronise i.busy x))) := by
  obtain ⟨d, t, b, l, e⟩ := busNext_active i ha
  refine ⟨d, t, b, l, ?_⟩
  have he := enginePhase_withHostFields d t b l s i
  rw [withHostFields, ← e] at he
  simp only [clockEdge, hr, ha, if_true, busPhase_eq, andThen_next, he]
  cases enginePhase i s <;> rfl

/-- Settles O38: the engine's edge is the same whatever the bus does, by `clockEdge_running` twice. -/
theorem runningOperationIgnoresTheBus : Obligations.RunningOperationIgnoresTheBus := by
  intro i we a w s t u hr ha ht hu
  have hengine : enginePhase { i with regWe := we, regAddr := a, regWdata := w } s = enginePhase i s := rfl
  obtain ⟨_, _, _, _, e⟩ := clockEdge_running hr ha
  obtain ⟨_, _, _, _, e'⟩ := clockEdge_running (i := { i with regWe := we, regAddr := a, regWdata := w }) hr ha
  rw [e] at ht
  rw [e', hengine] at hu
  cases hx : enginePhase i s with
  | next y =>
    rw [hx] at ht hu
    cases ht
    cases hu
    rfl
  | fault r => rw [hx] at ht; cases ht
  | refused r => rw [hx] at ht; cases ht

end Machine
end Sys2Proof
end

section
/-! PROOFS, 20_memory.md R60 to R71 and R79: the register window, frame memory, and the fetch of a frame byte.
Every claim about the window goes through `regAt_eq`, which says once which word is which register. -/

namespace Sys2Proof
namespace Machine

/-! ### Frame memory -/

/-- Settles O46: the two addresses of the split are the two lemmas about a write. -/
theorem frameMemoryReadAfterWrite : Obligations.FrameMemoryReadAfterWrite := by
  intro m a x b
  split_ifs with h
  · rw [h, Memory.read_write_same]
  · exact Memory.read_write_other m b h

/-- Settles O36: memory and the build by what every step does to them, programs and reads from those. -/
theorem onlyTheHostWritesFrameMemory : Obligations.OnlyTheHostWritesFrameMemory := by
  intro s t h
  have hmem := step_mem h
  have hcfg := step_cfg h
  exact ⟨hmem, hcfg, fun op => by rw [hcfg], fun a ha => by rw [hmem, Memory.read_writeAll_other _ _ ha]⟩

/-! ### The map of the register window (20_memory.md R61, R62) -/

theorem regAt_eq (a : BitVec 6) :
    regAt a = if a.extractLsb' 2 4 = 0#4 then .cmd else if a.extractLsb' 2 4 = 1#4 then .status
      else if a.extractLsb' 2 4 = 2#4 then .timeoutMs else if a.extractLsb' 2 4 = 3#4 then .frameBase
      else if a.extractLsb' 2 4 = 4#4 then .frameLen else if a.extractLsb' 2 4 = 5#4 then .geometry
      else if a.extractLsb' 2 4 = 6#4 then .frameBytes else if a.extractLsb' 2 4 = 7#4 then .waitElapsedMs
      else .reserved := by
  revert a; decide

theorem regAt_cmd {a : BitVec 6} (h : a.extractLsb' 2 4 = 0#4) : regAt a = .cmd := by
  rw [regAt_eq, if_pos h]

/-- The word offset alone picks the register: bits [1:0] are ignored. -/
theorem wordOffset_append (n : BitVec 4) (lo : BitVec 2) : (n ++ lo).extractLsb' 2 4 = n := by
  simp (disch := decide) only [BitVec.extractLsb'_append_eq_of_le, Nat.sub_self, BitVec.extractLsb'_eq_self]

/-- Settles O29: a read is `readReg` of the register at its word. -/
theorem registerReadsFollowTheMap : Obligations.RegisterReadsFollowTheMap := by
  intro n lo s
  refine ⟨?_, fun hw hh => ⟨?_, ?_⟩⟩
  · rw [regRdata, regAt_eq, wordOffset_append]
    simp only [apply_ite (readReg · s)]
    rfl
  · rintro rfl
    simp [regRdata, regAt_eq, wordOffset_append, readReg, geometryWord, hw, hh]
  · rintro rfl
    simp [regRdata, regAt_eq, wordOffset_append, readReg, frameBytesWord, planeBytes, hw, hh]

/-! ### Register writes (20_memory.md R61) -/

theorem regAt_readOnly {a : BitVec 6} (h : a.extractLsb' 2 4 = 1#4 ∨ 5 ≤ (a.extractLsb' 2 4).toNat) :
    regAt a = .status ∨ regAt a = .geometry ∨ regAt a = .frameBytes ∨ regAt a = .waitElapsedMs
      ∨ regAt a = .reserved := by
  revert a; decide

/-- A write at word 1 or 5 to 15 stores nothing. -/
theorem busNext_ignored {i : Inputs} (h : i.regAddr.extractLsb' 2 4 = 1#4 ∨ 5 ≤ (i.regAddr.extractLsb' 2 4).toNat)
    (s : State) : busNext i s = s := by
  rcases regAt_readOnly h with e | e | e | e | e <;> simp [busNext, e, writeReg]

theorem busPhase_cmd {i : Inputs} (hw : i.regWe = true) (h : i.regAddr.extractLsb' 2 4 = 0#4) (s : State) :
    busPhase i s = cmdWrite i.regWdata s := by
  simp [busPhase, hw, regAt_cmd h]

/-- Outside block reset the three registers are what the bus leaves: the engine writes none of them. -/
theorem step_registers {s t : State} (hr : s.input.rstN = true) (h : step s = .next t) :
    t.timeoutMs = (busNext s.input s).timeoutMs ∧ t.frameBase = (busNext s.input s).frameBase
      ∧ t.frameLen = (busNext s.input s).frameLen := by
  rcases step_cases h with ⟨h0, _⟩ | ⟨_, _, rfl⟩ | ⟨_, _, _, rfl⟩ | ⟨_, _, _, _, _, rfl⟩
  · simp [hr] at h0
  all_goals simp

/-- Settles O28: the stores by what the bus leaves in the three registers, the rest by what it does to the state. -/
theorem registerWritesStoreTheWholeWord : Obligations.RegisterWritesStoreTheWholeWord := by
  refine ⟨fun s t hr h => ?_, fun i s => ⟨fun hi => ?_, fun hw h => busPhase_cmd hw h s⟩⟩
  · obtain ⟨ht, hb, hl⟩ := step_registers hr h
    exact ⟨ht.trans (busNext_timeoutMs ..), hb.trans (busNext_frameBase ..), hl.trans (busNext_frameLen ..)⟩
  · exact clockEdge_bus (busNext_ignored hi s) rfl rfl rfl rfl

/-! ### CMD writes (20_memory.md R61, R63) -/

/-- Everything a CMD write can do with ACTIVE = 0: refuse the word, or start its operation. -/
theorem cmdWrite_cases (w : Word) {s : State} (h : s.active = false) :
    (∃ r, (r = .illegalCmd ∨ r = .cmdRejected ∨ r = .frameSizeMismatch)
        ∧ cmdWrite w s = .next (raise r (recordCommand (hostOp w) s)))
    ∨ cmdWrite w s = .next (accept (hostOp w) (recordCommand (hostOp w) s)) := by
  rw [cmdWrite_eq]
  split
  · rcases hostCommand_cases (hostOp w) h with e | e | ⟨e, _⟩ <;> rw [e]
    · exact .inl ⟨_, .inr (.inl rfl), rfl⟩
    · exact .inl ⟨_, .inr (.inr rfl), rfl⟩
    · exact .inr rfl
  · exact .inl ⟨.illegalCmd, .inl rfl, by simp [illegalCommand, h]⟩

/-- With ACTIVE = 0 a step with a CMD write is the write, then the synchroniser and the surroundings. -/
theorem step_cmdWrite {s : State} (hr : s.input.rstN = true) (hw : s.input.regWe = true)
    (ho : s.input.regAddr.extractLsb' 2 4 = 0#4) (ha : s.active = false) :
    step s = andThen (cmdWrite s.input.regWdata s) fun t =>
      .next (surroundings s.input (writeFrameActive t) (synchronise s.input.busy t)) := by
  simp [step, clockEdge, hr, busPhase_cmd hw ho, ha, writeFrameActive]

/-- Settles O22: the bus dispatches the decoded word, and the rest of the edge is `clockEdge`'s. -/
theorem stepRunsTheDecodedHostCommand : Obligations.StepRunsTheDecodedHostCommand := by
  intro s c hr hw ho hc
  have hexec : cmdWrite s.input.regWdata s = exec c s := by simp only [cmdWrite, hc]
  refine ⟨fun ha => ?_, fun ha => ?_⟩
  · rw [step_cmdWrite hr hw ho ha, hexec]
  · simp [step, clockEdge, hr, busPhase_cmd hw ho, ha, hexec]

/-- Settles O31: the registers by O28; STATUS by its fields and what a CMD write can do. -/
theorem readAfterWriteSeesTheWrite : Obligations.ReadAfterWriteSeesTheWrite := by
  intro s t hr hw h
  obtain ⟨htimeout, hbase, hlen⟩ := registerWritesStoreTheWholeWord.1 s t hr h
  refine ⟨fun ho => htimeout.trans (if_pos ⟨hw, ho⟩), fun ho => hbase.trans (if_pos ⟨hw, ho⟩),
    fun ho => hlen.trans (if_pos ⟨hw, ho⟩), fun ho ha => ?_⟩
  obtain ⟨hstate, hresult, _, hlastOp, _⟩ := statusWord_fields t
  obtain ⟨hactive, _⟩ := statusWord_bits t
  have hread : regRdata 0x04#6 t = statusWord t := rfl
  rw [hread, hstate, hresult, hlastOp, hactive]
  rw [step_cmdWrite hr hw ho ha] at h
  rcases cmdWrite_cases s.input.regWdata ha with ⟨r, hrefused, e⟩ | e <;> rw [e] at h ⊢ <;> cases h
  · exact ⟨_, rfl, rfl, rfl, rfl, rfl, by simp [ha], fun _ => hrefused⟩
  · exact ⟨_, rfl, rfl, rfl, rfl, rfl, fun _ => rfl, by simp⟩

/-! ### The fetch of a frame byte (20_memory.md R66, R67, 40_adapter.md R106) -/

/-- The read port gives the byte the host left at an address it does not overlap. -/
theorem fbData_of_kept {i : Inputs} {s : State} {a : Word} {b : Byte} (hs : a.toNat ∉ s.contended)
    (hi : ∀ w ∈ i.memWrites, w.1.toNat ≠ a.toNat) (hb : Memory.read s.mem a.toNat = some b) :
    fbData i s a = b := by
  have hno : overlapped i s a = false := by
    simp only [overlapped, Bool.or_eq_false_iff, decide_eq_false_iff_not, List.any_eq_false, beq_iff_eq]
    exact ⟨hs, fun w hw e => hi w hw (by rw [e])⟩
  simp [fbData, hno, hb]

/-- The fetch edge of a BYTE loads st.sh, counts, and does nothing else. -/
theorem byteEdge_fetch (dc : Bool) (b : Byte) {s : State} (hc : s.cfg.wf = true) (h : s.cnt = 0) :
    byteEdge dc b s = { s with sh := b, cnt := 1 } := by
  have hmore : ¬ 0 + 1 = byteDur s.cfg := by
    have := halfPeriod_pos hc
    unfold byteDur
    omega
  simp only [byteEdge, byteAction_fetch dc b h, advance, h, if_neg hmore]

/-- Settles O33: the byte comes through `fbData_of_kept`, and the bus does not reach what the edge reads. -/
theorem frameByteIsReadFromTheBuffer : Obligations.FrameByteIsReadFromTheBuffer := by
  intro s k b hr hf ha hc h0 hu hcont hmem hb
  have haddr := frameAddr_toNat (addrW_le hc) k
  have hport : fetchIndex s = some k := fetchIndex_eq_some_iff.2 ⟨ha, h0, hu⟩
  have hbyte : fbData s.input s (frameAddr s k) = b :=
    fbData_of_kept (haddr ▸ hcont) (haddr ▸ hmem) (haddr ▸ hb)
  have hedge : microNext s.input s (.byte true (.frame k)) = { s with sh := b, cnt := 1 } := by
    simp only [microNext, sourceByte, if_pos h0, hbyte, byteEdge_fetch true b hc h0]
  obtain ⟨d, x, y, l, hbus⟩ := busNext_active s.input ha
  refine ⟨by simp [fbRd, hport], by simp [fbAddr, hport, haddr], _, step_micro hr ha hf hu, ?_⟩
  rw [hbus, ← withHostFields, microNext_withHostFields, hedge]
  exact ⟨rfl, rfl, rfl, rfl⟩

end Machine
end Sys2Proof
end

section
/-! PROOFS, 30_encoding.md R80 to R89: decoding and encoding agree. What the decoder answers is said once per
format and case of its table's lookup; which keys a table has is a finite fact about that table. -/

namespace Sys2Proof

/-! ### Host words (30_encoding.md R81, R83) -/

theorem decodeHost_reservedBits {w : Word} (h : hostRsvd w ≠ 0#28) :
    decodeHost w = .error (.reservedBits (hostOp w)) := if_neg h

theorem decodeHost_of_lookup {w : Word} {i : Instr} (hr : hostRsvd w = 0#28)
    (h : hostTable.lookup (hostOp w) = some i) : decodeHost w = .ok i := by
  simp only [decodeHost, hr, if_true, h]

theorem decodeHost_reservedOp {w : Word} (hr : hostRsvd w = 0#28)
    (ho : ¬ (1 ≤ (hostOp w).toNat ∧ (hostOp w).toNat ≤ 5)) :
    decodeHost w = .error (.reservedOp (hostOp w)) := by
  have hnone : hostTable.lookup (hostOp w) = none := by
    rw [← Option.not_isSome_iff_eq_none, hostTable_lookup_isSome, decide_eq_true_iff]
    exact ho
  simp only [decodeHost, hr, if_true, hnone]

theorem decodeHost_isOk_iff (w : Word) :
    (∃ i, decodeHost w = .ok i) ↔ hostRsvd w = 0#28 ∧ 1 ≤ (hostOp w).toNat ∧ (hostOp w).toNat ≤ 5 := by
  constructor
  · rintro ⟨i, h⟩
    exact hostCmd_fields (encode_of_decodeHost h)
  · rintro ⟨hr, ho⟩
    have hsome : (hostTable.lookup (hostOp w)).isSome = true := by
      rw [hostTable_lookup_isSome, decide_eq_true_iff]
      exact ho
    obtain ⟨i, hi⟩ := Option.isSome_iff_exists.1 hsome
    exact ⟨i, decodeHost_of_lookup hr hi⟩

/-- The command of a host word, by its OP. -/
theorem hostCmd_op {i : Instr} {w : Word} (h : encode i = .hostCmd w) :
    (i = .reset ∧ hostOp w = 1#4) ∨ (i = .init ∧ hostOp w = 2#4) ∨ (i = .clear ∧ hostOp w = 3#4)
      ∨ (i = .writeFrame ∧ hostOp w = 4#4) ∨ (i = .waitIdle ∧ hostOp w = 5#4) := by
  cases i <;> cases h <;> decide

/-- Settles O4: the table of R81 holds the OP values 1 to 5, and what decodes has the word of its instruction. -/
theorem hostWordLegalIffReservedZeroAndKnownOp : Obligations.HostWordLegalIffReservedZeroAndKnownOp := fun w =>
  ⟨decodeHost_isOk_iff w, fun _ h => hostCmd_op (encode_of_decodeHost h), decodeHost_reservedBits,
    decodeHost_reservedOp⟩

/-! ### SPI frames (30_encoding.md R85, R88) -/

/-- The thirteen opcodes of R88. -/
theorem frameTable_lookup_isSome_iff (b : Byte) :
    (frameTable.lookup b).isSome = true ↔
      b.toNat ∈ [0x01, 0x10, 0x11, 0x12, 0x13, 0x20, 0x21, 0x24, 0x3C, 0x44, 0x45, 0x4E, 0x4F] := by
  revert b; decide

theorem decodeFrame_of_dc_one {f : FrameBits} (h : frameDc f = true) : decodeFrame f = .ok (.dData (frameB f)) :=
  if_pos h

theorem decodeFrame_of_lookup {f : FrameBits} {i : Instr} (hd : frameDc f = false)
    (h : frameTable.lookup (frameB f) = some i) : decodeFrame f = .ok i := by
  simp [decodeFrame, hd, h]

theorem decodeFrame_of_unlisted {f : FrameBits} (hd : frameDc f = false)
    (h : frameTable.lookup (frameB f) = none) : decodeFrame f = .error (.unlistedOpcode (frameB f)) := by
  simp [decodeFrame, hd, h]

/-- Settles O5: with DC = 0 the frame decodes iff the opcode map has its byte. -/
theorem frameDecodesIffDataOrListedOpcode : Obligations.FrameDecodesIffDataOrListedOpcode := by
  intro f
  refine ⟨decodeFrame_of_dc_one, fun hd => ?_⟩
  have hkey := frameTable_lookup_isSome_iff (frameB f)
  cases hl : frameTable.lookup (frameB f) with
  | some i =>
    have hmem := hkey.1 (by rw [hl]; rfl)
    exact ⟨iff_of_true ⟨i, decodeFrame_of_lookup hd hl⟩ hmem, fun hno => absurd hmem hno⟩
  | none =>
    have herr := decodeFrame_of_unlisted hd hl
    have hno := mt hkey.2 (by simp [hl])
    exact ⟨iff_of_false (by simp [herr]) hno, fun _ => herr⟩

/-! ### Both formats -/

/-- Settles O3: each format by its own lemma. -/
theorem encodeOfDecodeIsTheWord : Obligations.EncodeOfDecodeIsTheWord := by
  refine ⟨fun e i h => ?_, fun _ _ _ => encode_of_decodeFrameIn⟩
  cases e with
  | hostCmd w => exact encode_of_decodeHost h
  | spiFrame f => exact encode_of_decodeFrame h

/-- The family `EncodingAgrees`, put together. -/
theorem encodingAgrees (i : Instr) : Laws.EncodingAgrees.Statement i := by
  cases i with
  | reset => exact Laws.EncodingAgrees.reset
  | init => exact Laws.EncodingAgrees.init
  | clear => exact Laws.EncodingAgrees.clear
  | writeFrame => exact Laws.EncodingAgrees.writeFrame
  | waitIdle => exact Laws.EncodingAgrees.waitIdle
  | cSwreset => exact Laws.EncodingAgrees.cSwreset
  | cRefresh => exact Laws.EncodingAgrees.cRefresh
  | cDriverOutputControl => exact Laws.EncodingAgrees.cDriverOutputControl
  | cDataEntryMode => exact Laws.EncodingAgrees.cDataEntryMode
  | cRamXWindow => exact Laws.EncodingAgrees.cRamXWindow
  | cRamYWindow => exact Laws.EncodingAgrees.cRamYWindow
  | cBorderWaveform => exact Laws.EncodingAgrees.cBorderWaveform
  | cDisplayUpdateControl => exact Laws.EncodingAgrees.cDisplayUpdateControl
  | cRamXCounter => exact Laws.EncodingAgrees.cRamXCounter
  | cRamYCounter => exact Laws.EncodingAgrees.cRamYCounter
  | cWriteBwPlane => exact Laws.EncodingAgrees.cWriteBwPlane
  | cWriteRedPlane => exact Laws.EncodingAgrees.cWriteRedPlane
  | cWriteRam => exact Laws.EncodingAgrees.cWriteRam
  | cActivateUpdate => exact Laws.EncodingAgrees.cActivateUpdate
  | dData b => exact Laws.EncodingAgrees.dData b

/-- Only CLEAR and WRITE_FRAME read 0x12 as the refresh trigger: under another command the bits alone decide. -/
theorem decodeFrameIn_eq_decodeFrame {op : BitVec 4} (h : ¬ (op = 3#4 ∨ op = 4#4)) (f : FrameBits) :
    decodeFrameIn op f = decodeFrame f := if_neg fun h' => h h'.2

theorem runningOp_of_ne_cRefresh {i : Instr} (h : i ≠ .cRefresh) : Machine.runningOp i = 2#4 := if_neg h

/-- Settles O2: the family `EncodingAgrees` decodes each format; INIT's reading of a frame is that of the bits alone,
which leaves the refresh trigger of the other two commands. -/
theorem decodeOfEncodeIsTheInstruction : Obligations.DecodeOfEncodeIsTheInstruction := by
  intro i _
  obtain ⟨_, hhost, hframe⟩ := encodingAgrees i
  refine ⟨hhost, hframe, fun hne => ?_, fun he => he ▸ rfl⟩
  cases he : encode i with
  | hostCmd w => exact hhost w he
  | spiFrame f =>
    have hdec := hframe f he
    rw [runningOp_of_ne_cRefresh hne, decodeFrameIn_eq_decodeFrame (by decide)] at hdec
    exact hdec

/-- Settles O1: each word is evaluated. -/
theorem writtenOutWordsDecode : Obligations.WrittenOutWordsDecode := by
  unfold Obligations.WrittenOutWordsDecode
  decide

end Sys2Proof
end

section
/-! PROOFS, 30_encoding.md R84: an illegal CMD word reports and does nothing else. -/

namespace Sys2Proof
namespace Machine

theorem cmdWrite_illegal {w : Word} {s : State}
    (h : hostRsvd w ≠ 0#28 ∨ ¬ (1 ≤ (hostOp w).toNat ∧ (hostOp w).toNat ≤ 5)) :
    cmdWrite w s = .next (illegalCommand (hostOp w) s) := by
  by_cases hr : hostRsvd w = 0#28
  · simp only [cmdWrite, decodeHost_reservedOp hr (h.resolve_left fun hne => hne hr)]
  · simp only [cmdWrite, decodeHost_reservedBits hr]

theorem illegalCommand_of_inactive (op : BitVec 4) {s : State} (h : s.active = false) :
    illegalCommand op s = { s with lastOp := op, dropped := false, result := .illegalCmd } := by
  simp [illegalCommand, h, recordCommand, raise]

/-- Settles O10: the write is `illegalCommand`, which leaves ACTIVE at 0; the step adds what `step_cmdWrite` says. -/
theorem illegalWordOnlyReports : Obligations.IllegalWordOnlyReports := by
  intro w s h
  have hreport : s.active = false → cmdWrite w s =
      .next { s with lastOp := hostOp w, dropped := false, result := .illegalCmd } := fun ha => by
    rw [cmdWrite_illegal (h.imp_right (by simp only [hostOp]; omega)), illegalCommand_of_inactive _ ha]
  refine ⟨hreport, cmdWrite_active (w := w), fun ha hr hw ho hd => ?_⟩
  rw [step_cmdWrite hr hw ho ha, hd, hreport ha, andThen_next]
  simp [writeFrameActive, ha, hostOp]

end Machine
end Sys2Proof
end

section
/-! PROOFS, 30_encoding.md R88, R89: the frames a build emits. The command bytes of each program are listed once, as
`CommandByte`; the decoder's answer is then looked up byte by byte. -/

namespace Sys2Proof
namespace Machine

/-- The bytes the program of `op` sends with DC = 0: INIT its software reset and the opcodes of its table, a frame
command those of its variant (R88, R134). `commandByte_of_mem` ties it to the programs. -/
inductive CommandByte (c : Config) (op : BitVec 4) (b : Byte) : Prop where
  | swreset (hop : op = 2#4) (hb : b = 0x12#8)
  | tableEntry (hop : op = 2#4) (hb : c.listsOpcode b = true)
  | threeColor (hop : op = 3#4 ∨ op = 4#4) (hv : c.panelVariant = .threeColor)
      (hb : b = 0x10#8 ∨ b = 0x13#8 ∨ b = 0x12#8)
  | mono (hop : op = 3#4 ∨ op = 4#4) (hv : c.panelVariant = .mono) (hb : b = 0x24#8 ∨ b = 0x20#8)

/-! ### The command bytes of the programs -/

section
variable {src : ByteSrc} {c : Config}

theorem command_mem_expandEntry {e : InitEntry} :
    .byte false src ∈ expandEntry e ↔ src = .const e.opcode := by
  simp [expandEntry, sendCommand, sendData]

theorem command_mem_expandRest {l : List InitEntry} :
    .byte false src ∈ expandRest l ↔ ∃ e ∈ l, src = .const e.opcode := by
  induction l with
  | nil => simp [expandRest]
  | cons e l ih => simp [expandRest, command_mem_expandEntry, ih]

theorem command_mem_expandTable {l : List InitEntry} :
    .byte false src ∈ expandTable l ↔ ∃ e ∈ l, src = .const e.opcode := by
  cases l with
  | nil => simp [expandTable]
  | cons e l => simp [expandTable, command_mem_expandEntry, command_mem_expandRest]

theorem command_not_mem_constPlane (b : Byte) : .byte false src ∉ constPlane c b := by
  simp [constPlane, sendData]

theorem command_not_mem_bufferPlane : .byte false src ∉ bufferPlane c := by
  simp [bufferPlane]

/-- The planes of a frame command hold data bytes alone, so its opcodes are those of its variant. -/
theorem commandByte_of_mem_framePlanes {op : BitVec 4} {plane : List MicroOp} (hop : op = 3#4 ∨ op = 4#4)
    (hp : .byte false src ∉ plane) (h : .byte false src ∈ framePlanes c plane) :
    ∃ b, src = .const b ∧ CommandByte c op b := by
  cases hv : c.panelVariant with
  | threeColor =>
    simp only [framePlanes, hv, List.mem_append, List.mem_singleton, hp, command_not_mem_constPlane, or_false,
      sendCommand, MicroOp.byte.injEq, true_and] at h
    rcases h with (rfl | rfl) | rfl
    · exact ⟨_, rfl, .threeColor hop hv (.inl rfl)⟩
    · exact ⟨_, rfl, .threeColor hop hv (.inr (.inl rfl))⟩
    · exact ⟨_, rfl, .threeColor hop hv (.inr (.inr rfl))⟩
  | mono =>
    simp only [framePlanes, hv, List.mem_append, List.mem_singleton, hp, or_false,
      sendCommand, MicroOp.byte.injEq, true_and] at h
    rcases h with rfl | rfl
    · exact ⟨_, rfl, .mono hop hv (.inl rfl)⟩
    · exact ⟨_, rfl, .mono hop hv (.inr rfl)⟩

theorem command_mem_programInit :
    .byte false src ∈ programInit c ↔ src = .const 0x12#8 ∨ ∃ e ∈ c.initTable, src = .const e.opcode := by
  simp [programInit, rstPulse, sendCommand, command_mem_expandTable]

/-- What follows the planes sends nothing (R173). -/
theorem command_mem_append_refreshWait {p : List MicroOp} :
    .byte false src ∈ p ++ refreshWait ↔ .byte false src ∈ p := by
  simp [refreshWait]

theorem commandByte_of_mem {op : BitVec 4} (h : .byte false src ∈ program c op) :
    ∃ b, src = .const b ∧ CommandByte c op b := by
  by_cases hl : legalOp op
  · rcases hl with rfl | rfl | rfl | rfl | rfl
    · simp [programReset, rstPulse] at h
    · rcases command_mem_programInit.1 h with rfl | ⟨e, he, rfl⟩
      · exact ⟨_, rfl, .swreset rfl rfl⟩
      · exact ⟨_, rfl, .tableEntry rfl (List.any_eq_true.2 ⟨e, he, beq_self_eq_true _⟩)⟩
    · exact commandByte_of_mem_framePlanes (.inl rfl) (command_not_mem_constPlane _)
        (command_mem_append_refreshWait.1 h)
    · exact commandByte_of_mem_framePlanes (.inr rfl) command_not_mem_bufferPlane
        (command_mem_append_refreshWait.1 h)
    · simp [programWaitIdle] at h
  · rw [program_illegal c hl] at h
    cases h

end

/-- A frame of a program is a data frame or the command frame of one of its command bytes. -/
theorem frame_cases {c : Config} {op : BitVec 4} {buf : Nat → Byte} {f : FrameBits}
    (h : f ∈ streamOf buf (program c op)) :
    (∃ b, f = mkFrame true b) ∨ ∃ b, f = mkFrame false b ∧ CommandByte c op b := by
  obtain ⟨u, hu, hf⟩ := List.mem_filterMap.1 h
  cases u with
  | byte dc src =>
    cases dc with
    | true => cases src <;> exact .inl ⟨_, (Option.some.inj hf).symm⟩
    | false =>
      obtain ⟨b, rfl, hb⟩ := commandByte_of_mem hu
      exact .inr ⟨b, (Option.some.inj hf).symm, hb⟩
  | _ => cases hf

/-! ### What they decode to -/

theorem mem_frameTable_of_decodeFrame {b : Byte} {i : Instr} (h : decodeFrame (mkFrame false b) = .ok i) :
    (b, i) ∈ frameTable := by
  rw [decodeFrame_command] at h
  split at h
  · rename_i j hj
    cases h
    obtain ⟨l, m, e, _⟩ := List.lookup_eq_some_iff.1 hj
    simp [e]
  · cases h

/-- A row of the opcode map belongs to every build whose INIT_TABLE lists its opcode (R89). -/
theorem inBuild_of_listsOpcode {c : Config} {b : Byte} {i : Instr} (h : (b, i) ∈ frameTable)
    (hl : c.listsOpcode b = true) : i.inBuild c = true := by
  fin_cases h <;> simp [Instr.inBuild, hl]

/-- CLEAR and WRITE_FRAME name their frames alike. -/
theorem decodeFrameIn_of_frameCommand {op : BitVec 4} (hop : op = 3#4 ∨ op = 4#4) (f : FrameBits) :
    decodeFrameIn op f = decodeFrameIn 3#4 f := by
  simp [decodeFrameIn, hop]

theorem inBuild_of_commandByte {c : Config} {op : BitVec 4} {b : Byte} {i : Instr} (hb : CommandByte c op b)
    (h : decodeFrameIn op (mkFrame false b) = .ok i) : i.inBuild c = true := by
  cases hb with
  | swreset hop hb =>
    subst hop hb
    cases h
    rfl
  | tableEntry hop hl =>
    subst hop
    rw [decodeFrameIn_eq_decodeFrame (by decide)] at h
    exact inBuild_of_listsOpcode (mem_frameTable_of_decodeFrame h) hl
  | threeColor hop hv hb =>
    rw [decodeFrameIn_of_frameCommand hop] at h
    rcases hb with rfl | rfl | rfl <;> cases h <;> simp [Instr.inBuild, hv]
  | mono hop hv hb =>
    rw [decodeFrameIn_of_frameCommand hop] at h
    rcases hb with rfl | rfl <;> cases h <;> simp [Instr.inBuild, hv]

/-- The map has every command byte of a build whose INIT_TABLE keeps to it. -/
theorem lookup_isSome_of_commandByte {c : Config} {op : BitVec 4} {b : Byte}
    (htable : ∀ e ∈ c.initTable, (frameTable.lookup e.opcode).isSome = true) (hb : CommandByte c op b) :
    (frameTable.lookup b).isSome = true := by
  cases hb with
  | swreset _ hb => subst hb; rfl
  | tableEntry _ hl =>
    obtain ⟨e, he, heq⟩ := List.any_eq_true.1 hl
    exact beq_iff_eq.1 heq ▸ htable e he
  | threeColor _ _ hb => rcases hb with rfl | rfl | rfl <;> rfl
  | mono _ _ hb => rcases hb with rfl | rfl <;> rfl

theorem decodeFrameIn_of_listed (op : BitVec 4) {b : Byte} (h : (frameTable.lookup b).isSome = true) :
    ∃ i, decodeFrameIn op (mkFrame false b) = .ok i := by
  obtain ⟨i, hi⟩ := Option.isSome_iff_exists.1 h
  unfold decodeFrameIn
  split_ifs
  · exact ⟨_, rfl⟩
  · exact ⟨i, decodeFrame_of_lookup (frameDc_mkFrame ..) (by rwa [frameB_mkFrame])⟩

/-- Settles O42: a data frame is in every build and always named; a command frame has one of the `CommandByte`s. -/
theorem buildsEmitOnlyTheirFrames : Obligations.BuildsEmitOnlyTheirFrames := by
  refine ⟨fun c op buf f i hf hi => ?_, fun op buf f hf => ?_⟩
  · rcases frame_cases hf with ⟨b, rfl⟩ | ⟨b, rfl, hb⟩
    · rw [decodeFrameIn_data] at hi
      cases hi
      rfl
    · exact inBuild_of_commandByte hb hi
  · rcases frame_cases hf with ⟨b, rfl⟩ | ⟨b, rfl, hb⟩
    · exact ⟨_, decodeFrameIn_data op b⟩
    · exact decodeFrameIn_of_listed op (lookup_isSome_of_commandByte (by decide) hb)

end Machine
end Sys2Proof
end

section
/-! PROOFS, 30_encoding.md R90, R91: host programs, one lemma per kind of line. -/

namespace Sys2Proof
namespace Machine

/-! ### Lines that take a cycle -/

section
variable (i : Inputs) (s : State) {h : HostCtl} {rest : List HostLine}

theorem hostDrive_wr {r : HostReg} {v : Word} (h0 : h.idle = 0) (hr : h.rest = .wr r v :: rest) :
    hostDrive i s h = ({ i with regWe := true, regAddr := regOffset r, regWdata := v }, { h with rest := rest }) := by
  simp [hostDrive, h0, hr]

theorem hostDrive_rd {r : HostReg} {x : Nat} (h0 : h.idle = 0) (hr : h.rest = .rd r x :: rest) :
    hostDrive i s h = ({ i with regWe := false, regAddr := regOffset r },
      { h with rest := rest, vars := (x, regRdata (regOffset r) s) :: h.vars }) := by
  simp [hostDrive, h0, hr]

theorem hostDrive_idle {n : Nat} (h0 : h.idle = 0) (hr : h.rest = .idle n :: rest) :
    hostDrive i s h = ({ i with regWe := false }, { h with rest := rest, idle := n - 1 }) := by
  simp [hostDrive, h0, hr]

theorem hostDrive_idling (h0 : 0 < h.idle) :
    hostDrive i s h = ({ i with regWe := false }, { h with idle := h.idle - 1 }) := if_pos h0

end

/-- The offset of a register selects it (10_state.md R21, 20_memory.md R61). -/
theorem regAt_regOffset (r : HostReg) : regAt (regOffset r) = r := by
  cases r <;> rfl

theorem regRdata_regOffset (r : HostReg) (s : State) : regRdata (regOffset r) s = readReg r s := by
  rw [regRdata, regAt_regOffset]

theorem hostVar_cons_self (vars : List (Nat × Word)) (x : Nat) (v : Word) : hostVar ((x, v) :: vars) x = v := by
  simp [hostVar]

theorem hostVar_cons_of_ne (vars : List (Nat × Word)) {x y : Nat} (v : Word) (h : y ≠ x) :
    hostVar ((x, v) :: vars) y = hostVar vars y := by
  simp [hostVar, List.lookup_cons, beq_false_of_ne h]

/-! ### Lines that take none -/

section
variable (prog : List HostLine) (fuel : Nat) {h : HostCtl} {rest : List HostLine}

theorem hostResolve_idle_zero (hr : h.rest = .idle 0 :: rest) :
    hostResolve prog (fuel + 1) h = hostResolve prog fuel { h with rest := rest } := by
  simp only [hostResolve, hr]

theorem hostResolve_label {l : Nat} (hr : h.rest = .label l :: rest) :
    hostResolve prog (fuel + 1) h = hostResolve prog fuel { h with rest := rest } := by
  simp only [hostResolve, hr]

theorem hostResolve_bnz {x bit l : Nat} (hr : h.rest = .bnz x bit l :: rest) :
    hostResolve prog (fuel + 1) h = hostResolve prog fuel
      { h with rest := if (hostVar h.vars x).getLsbD bit = true then seekLabel l prog else rest } := by
  simp only [hostResolve, hr]

theorem hostResolve_bz {x bit l : Nat} (hr : h.rest = .bz x bit l :: rest) :
    hostResolve prog (fuel + 1) h = hostResolve prog fuel
      { h with rest := if (hostVar h.vars x).getLsbD bit = true then rest else seekLabel l prog } := by
  simp only [hostResolve, hr]

end

theorem seekLabel_cons_of_ne {l : Nat} {u : HostLine} (h : u ≠ .label l) (rest : List HostLine) :
    seekLabel l (u :: rest) = seekLabel l rest := by
  cases u with
  | label m => exact if_neg fun e : m = l => h (e ▸ rfl)
  | _ => rfl

/-- A branch goes on after the first line that holds its label. -/
theorem seekLabel_append {l : Nat} (pre rest : List HostLine) (h : ∀ u ∈ pre, u ≠ .label l) :
    seekLabel l (pre ++ .label l :: rest) = rest := by
  induction pre with
  | nil => exact if_pos rfl
  | cons u pre ih =>
    obtain ⟨hu, hpre⟩ := List.forall_mem_cons.1 h
    rw [List.cons_append, seekLabel_cons_of_ne hu, ih hpre]

/-! ### The pseudo-instructions -/

theorem frameLines_eq {c : Config} (h : c.sourceValues = true) (base : Word) :
    frameLines c base = [.wr .frameBase base, .wr .frameLen 4736#32] := by
  rw [frameLines, planeBytes_eq h]

/-- Settles O60: a lemma per kind of line; offsets, mnemonics and the other expansions are the definitions' own. -/
theorem hostLinesDriveTheBus : Obligations.HostLinesDriveTheBus := by
  refine ⟨fun i s _ _ _ _ => hostDrive_wr i s, fun i s h r x rest h0 hr => ?_, fun i s _ _ _ h0 hr _ =>
    hostDrive_idle i s h0 hr, fun i s _ => hostDrive_idling i s,
    fun prog fuel _ _ _ => ⟨hostResolve_idle_zero prog fuel, hostResolve_label prog fuel⟩,
    fun prog fuel _ _ _ _ _ => ⟨hostResolve_bnz prog fuel, hostResolve_bz prog fuel⟩,
    fun _ => seekLabel_append, ⟨rfl, rfl, rfl, rfl, rfl, rfl, rfl, rfl⟩, rfl, rfl, rfl, rfl, rfl,
    fun _ _ => rfl, fun _ _ _ => rfl, fun _ => rfl, fun _ base hc => frameLines_eq hc base⟩
  rw [hostDrive_rd i s h0 hr, regRdata_regOffset]
  exact ⟨rfl, rfl, h0, hostVar_cons_self .., fun _ => hostVar_cons_of_ne _ _⟩

end Machine
end Sys2Proof
end

section
/-! PROOFS, 40_adapter.md R102 to R108: the edges of SETRST, DELAY and the SPI frames. Each is an action and then
`advance`; a BYTE's action is the fetch, the slot that begins, or nothing. -/

namespace Sys2Proof
namespace Machine

/-! ### One equation per action -/

theorem advance_eq (d : Nat) (s : State) :
    advance d s =
      { s with
        upc := if s.cnt + 1 = d then s.upc + 1 else s.upc
        cnt := if s.cnt + 1 = d then 0 else s.cnt + 1 } := by
  unfold advance
  split <;> rfl

/-- The slot table of 40_adapter.md R107, all four pins at once. -/
theorem byteSlot_eq (dc : Bool) (n : Nat) (s : State) :
    byteSlot dc n s =
      { s with
        pinDc := if n = 0 then dc else s.pinDc
        pinMosi := if n = 0 then s.sh.getLsbD 7
                   else if 3 ≤ n ∧ n ≤ 15 ∧ n % 2 = 1 then s.sh.getLsbD (6 - (n - 3) / 2) else s.pinMosi
        pinCs := if n = 1 then false else if n = 18 then true else s.pinCs
        pinSclk := if 2 ≤ n ∧ n ≤ 16 ∧ n % 2 = 0 then true
                   else if 3 ≤ n ∧ n ≤ 17 ∧ n % 2 = 1 then false else s.pinSclk } := by
  apply State.ext <;> simp

/-- An edge that is neither the fetch nor the first of a slot only counts (40_adapter.md R105). -/
theorem byteEdge_quiet (dc : Bool) (b : Byte) {s : State} (h0 : s.cnt ≠ 0)
    (h : (s.cnt - 1) % halfPeriod s.cfg ≠ 0) : byteEdge dc b s = advance (byteDur s.cfg) s := by
  rw [byteEdge, byteAction_quiet dc b h0 h]

theorem byteEdge_slot (dc : Bool) (b : Byte) {s : State} {n : Nat} (hc : s.cfg.wf = true)
    (h : s.cnt = 1 + n * halfPeriod s.cfg) : byteEdge dc b s = advance (byteDur s.cfg) (byteSlot dc n s) := by
  rw [byteEdge, byteAction_slot dc b hc h]

/-! ### The SPI frames -/

/-- Settles O13: a frame is a BYTE edge of its byte (`exec_spiFrame`), here the fetch. -/
theorem frameFetchEdgeLoadsTheByte : Obligations.FrameFetchEdgeLoadsTheByte := by
  intro i f s hf hc h0
  rw [exec_spiFrame hf, byteEdge_fetch _ _ hc h0, frameB]

/-- Settles O14: the slot's action is `byteSlot_eq`, and the last edge of a BYTE is cnt = 20·H. -/
theorem frameSlotEdgesDriveThePins : Obligations.FrameSlotEdgesDriveThePins := by
  intro i f s n hf hc _ hn
  rw [exec_spiFrame hf, byteEdge_slot _ _ hc hn, advance_eq, byteSlot_eq]
  simp only [byteDur_last, frameDc]

/-- Settles O15: such an edge has no action. -/
theorem frameEdgesInsideASlotOnlyCount : Obligations.FrameEdgesInsideASlotOnlyCount := by
  intro i f s hf _ h1 _ hin
  rw [exec_spiFrame hf, byteEdge_quiet _ _ (by omega) hin, advance_eq]
  simp only [byteDur_last]

/-- Settles O16: what a BYTE edge writes is `byteEdge_writes`; memory is not among it. -/
theorem framesWriteOnlyShiftByteAndBusPins : Obligations.FramesWriteOnlyShiftByteAndBusPins := by
  intro i f s t hf ht
  rw [exec_spiFrame hf] at ht
  obtain rfl := Host.Outcome.next.inj ht
  exact ⟨byteEdge_writes _ _ s, fun a => by rw [byteEdge_mem]⟩

/-! ### SETRST and DELAY -/

/-- Settles O18: SETRST lasts one edge, so from cnt = 0 it always moves on. -/
theorem setRstDrivesRstInOneEdge : Obligations.SetRstDrivesRstInOneEdge := by
  intro i s v hf hu h0
  rw [enginePhase_micro hf hu, microNext, setRstEdge, advance_eq]
  simp [h0]

/-- Settles O19: DELAY's last edge is cnt = t·C - 1, written without subtraction in `advance_eq`. -/
theorem delayCountsItsEdges : Obligations.DelayCountsItsEdges := by
  intro i s ms hf hu hlt
  have hlast : s.cnt + 1 = ms * (s.cfg.clkHz / 1000) ↔ s.cnt = ms * (s.cfg.clkHz / 1000) - 1 := by omega
  rw [enginePhase_micro hf hu, microNext, delayEdge, advance_eq]
  simp only [cyclesPerMs, hlast]

end Machine
end Sys2Proof
end

section
/-! PROOFS, 40_adapter.md R107 and R109: the pins follow the waveform of the current BYTE. One BYTE edge takes the
waveform from edge k to edge k + 1 (`onWave_byteEdge`); outside a BYTE, and at its fetch edge, the pins rest. -/

namespace Sys2Proof
namespace Machine

/-! ### The waveform and a BYTE's edge -/

/-- The bus pins after `k` edges of a BYTE with level `dc` and half-period `h`. -/
structure OnWave (dc : Bool) (h k : Nat) (s : State) : Prop where
  cs : s.pinCs = waveCs h k
  sclk : s.pinSclk = waveSclk h k
  dc : 2 ≤ k → s.pinDc = dc
  mosi : 2 ≤ k → s.pinMosi = s.sh.getLsbD (waveBit h k)

theorem onWave_iff {dc : Bool} {h k : Nat} {s : State} :
    OnWave dc h k s ↔ s.pinCs = waveCs h k ∧ s.pinSclk = waveSclk h k
      ∧ (k ≤ 1 ∨ s.pinDc = dc ∧ s.pinMosi = s.sh.getLsbD (waveBit h k)) := by
  constructor
  · rintro ⟨hcs, hsclk, hdc, hmosi⟩
    exact ⟨hcs, hsclk, (Nat.lt_or_ge k 2).imp Nat.le_of_lt_succ fun h2 => ⟨hdc h2, hmosi h2⟩⟩
  · rintro ⟨hcs, hsclk, hlate⟩
    have hlate' := fun h2 : 2 ≤ k => hlate.resolve_left (by omega)
    exact ⟨hcs, hsclk, fun h2 => (hlate' h2).1, fun h2 => (hlate' h2).2⟩

/-- After a BYTE's last edge: CS = 1, SCLK = 0, its DC, and bit 0 on MOSI (40_adapter.md R109). -/
theorem OnWave.at_end {dc : Bool} {h : Nat} {s : State} (w : OnWave dc h (1 + 20 * h) s) (hp : 1 ≤ h) :
    s.pinCs = true ∧ s.pinSclk = false ∧ s.pinDc = dc ∧ s.pinMosi = s.sh.getLsbD 0 := by
  obtain ⟨hcs, hsclk, hdc, hmosi⟩ := w
  simp only [waveCs, waveSclk, waveBit, begun_end hp] at hcs hsclk hmosi
  exact ⟨hcs, hsclk, hdc (by omega), hmosi (by omega)⟩

/-- Everything the action of a BYTE can be (40_adapter.md R105). -/
theorem byteAction_cases (dc : Bool) (b : Byte) {s : State} (hc : s.cfg.wf = true) :
    (s.cnt = 0 ∧ byteAction dc b s = { s with sh := b })
    ∨ (∃ n, s.cnt = 1 + n * halfPeriod s.cfg ∧ byteAction dc b s = byteSlot dc n s)
    ∨ (s.cnt ≠ 0 ∧ (s.cnt - 1) % halfPeriod s.cfg ≠ 0 ∧ byteAction dc b s = s) := by
  by_cases h0 : s.cnt = 0
  · exact .inl ⟨h0, byteAction_fetch dc b h0⟩
  by_cases hm : (s.cnt - 1) % halfPeriod s.cfg = 0
  · have hn : s.cnt = 1 + (s.cnt - 1) / halfPeriod s.cfg * halfPeriod s.cfg := by
      have := Nat.div_mul_cancel (Nat.dvd_of_mod_eq_zero hm)
      omega
    exact .inr (.inl ⟨_, hn, byteAction_slot dc b hc hn⟩)
  · exact .inr (.inr ⟨h0, hm, byteAction_quiet dc b h0 hm⟩)

/-- The waveform moves on at the first edge of each slot as the slot table says. -/
theorem onWave_byteSlot {dc : Bool} {h k n : Nat} {s : State} (hp : 1 ≤ h) (hk : k = 1 + n * h)
    (w : OnWave dc h k s) : OnWave dc h (k + 1) (byteSlot dc n s) := by
  obtain ⟨hcs, hsclk, hdc, hmosi⟩ := w
  obtain ⟨hb, hb'⟩ := begun_slot hp hk
  simp only [waveCs, waveSclk, waveBit, hb] at hcs hsclk hmosi
  have hk2 : n ≠ 0 → 2 ≤ k := fun hn => by
    have := Nat.mul_pos (Nat.pos_of_ne_zero hn) hp
    omega
  refine ⟨?_, ?_, fun _ => ?_, fun _ => ?_⟩
  · rw [byteSlot_pinCs, waveCs, hb', hcs]
    grind
  · rw [byteSlot_pinSclk, waveSclk, hb', hsclk]
    grind
  · rw [byteSlot_pinDc]
    split
    next => rfl
    next h0 => exact hdc (hk2 h0)
  · rw [byteSlot_pinMosi, byteSlot_sh, waveBit, hb']
    split
    next h0 => rw [h0]; rfl
    next h0 =>
      -- the new bit in an odd slot, the same bit in any other
      rw [hmosi (hk2 h0)]
      split <;> congr 1 <;> omega

/-- While no slot begins and the pins do not move, neither does the waveform. -/
theorem OnWave.of_pins {dc : Bool} {h k k' : Nat} {s t : State} (w : OnWave dc h k s)
    (hb : slotsBegun h k' = slotsBegun h k) (hk : 2 ≤ k' → 2 ≤ k ∧ t.sh = s.sh) (hpins : pins t = pins s) :
    OnWave dc h k' t := by
  simp only [pins, PinLevels.mk.injEq] at hpins
  obtain ⟨-, hpdc, hpcs, hpsclk, hpmosi⟩ := hpins
  refine ⟨?_, ?_, fun h2 => ?_, fun h2 => ?_⟩
  · rw [hpcs, w.cs, waveCs, waveCs, hb]
  · rw [hpsclk, w.sclk, waveSclk, waveSclk, hb]
  · rw [hpdc, w.dc (hk h2).1]
  · rw [hpmosi, w.mosi (hk h2).1, (hk h2).2, waveBit, waveBit, hb]

/-- One edge of a BYTE takes its waveform one edge on. -/
theorem onWave_byteEdge {dc : Bool} {s : State} (b : Byte) (hc : s.cfg.wf = true)
    (w : OnWave dc (halfPeriod s.cfg) s.cnt s) :
    OnWave dc (halfPeriod s.cfg) (s.cnt + 1) (byteEdge dc b s) := by
  have hp := halfPeriod_pos hc
  have haction : OnWave dc (halfPeriod s.cfg) (s.cnt + 1) (byteAction dc b s) := by
    rcases byteAction_cases dc b hc with ⟨h0, e⟩ | ⟨n, hn, e⟩ | ⟨h0, hm, e⟩ <;> rw [e]
    · rw [h0] at w ⊢
      exact w.of_pins rfl (by omega) rfl
    · exact onWave_byteSlot hp hn w
    · have h1 : s.cnt ≠ 1 := fun h1 => hm (by simp [h1])
      exact w.of_pins (begun_quiet hp (by omega) hm) (fun _ => ⟨by omega, rfl⟩) rfl
  exact haction.of_pins rfl (fun h => ⟨h, advance_sh ..⟩) (by simp [pins, byteEdge])

theorem byteEdge_sh (dc : Bool) (b : Byte) {s : State} (hc : s.cfg.wf = true) :
    (byteEdge dc b s).sh = if s.cnt = 0 then b else s.sh := by
  rw [byteEdge, advance_sh]
  rcases byteAction_cases dc b hc with ⟨h0, e⟩ | ⟨n, hn, e⟩ | ⟨h0, _, e⟩ <;> rw [e]
  · rw [if_pos h0]
  · rw [byteSlot_sh, if_neg (by omega)]
  · rw [if_neg h0]

/-! ### Where the invariant stands -/

theorem currentByte_eq_some_iff {s : State} {dc : Bool} {src : ByteSrc} :
    currentByte s = some (dc, src) ↔ s.active = true ∧ microOp s = some (.byte dc src) := by
  unfold currentByte
  cases s.active with
  | false => simp
  | true => cases hu : microOp s with
    | none => simp
    | some u => cases u <;> simp

/-- At rest the pins are CS = 1, SCLK = 0. -/
theorem pinsOk_iff_rest {s : State} (h : currentByte s = none ∨ s.cnt = 0) :
    pinsOk s = true ↔ s.pinCs = true ∧ s.pinSclk = false := by
  unfold pinsOk
  cases hb : currentByte s with
  | none => simp
  | some p =>
    have h0 : s.cnt = 0 := h.resolve_left (by simp [hb])
    simp [h0, waveCs, waveSclk, slotsBegun]

theorem pinsOk_iff_wave {s : State} {dc : Bool} {src : ByteSrc} (hb : currentByte s = some (dc, src)) :
    pinsOk s = true ↔ OnWave dc (halfPeriod s.cfg) s.cnt s
      ∧ (s.cnt ≠ 0 → ∀ b, src = .const b → s.sh = b) := by
  cases src <;> simp [pinsOk, hb, onWave_iff, or_iff_not_imp_left, and_assoc]

/-- The synchroniser and the surroundings reach nothing that the waveform speaks of. -/
theorem pinsOk_outside (i : Inputs) (run b : Bool) (s : State) :
    pinsOk (surroundings i run (synchronise b s)) = pinsOk s := rfl

/-! ### Every step keeps it -/

/-- An edge of a micro-op that is no BYTE moves neither CS nor SCLK (40_adapter.md R109). -/
theorem microNext_rest (i : Inputs) (s : State) {u : MicroOp} (hu : ∀ dc src, u ≠ .byte dc src) :
    (microNext i s u).pinCs = s.pinCs ∧ (microNext i s u).pinSclk = s.pinSclk := by
  cases u with
  | byte dc src => exact absurd rfl (hu dc src)
  | _ => simp [microNext]

/-- The sequencer stays at its micro-op, or begins one (42_sequencer.md R135). -/
theorem microNext_stays_or_begins (i : Inputs) (s : State) (u : MicroOp) :
    (microNext i s u).upc = s.upc ∨ (microNext i s u).cnt = 0 := by
  by_cases ht : timed u = true
  · obtain ⟨-, -, -, -, hlast, hmore⟩ := microNext_timed (i := i) (s := s) ht
    by_cases hd : s.cnt + 1 = microDur s.cfg s.opTimeout u
    · exact .inr (hlast hd).2
    · exact .inl (hmore hd).1
  cases u with
  | wait =>
    rcases wait_cases s with ⟨_, e⟩ | ⟨_, _, e⟩ | ⟨_, _, _, _, _, e⟩ | ⟨_, _, _, _, _, _, e⟩ | ⟨_, _, _, _, _, _, e⟩ <;>
      simp only [microNext, e, true_or, or_true]
  | finish a b => simp [microNext]
  | _ => exact absurd rfl ht

theorem microOp_microNext (i : Inputs) {s : State} {u : MicroOp} (h : (microNext i s u).upc = s.upc) :
    microOp (microNext i s u) = microOp s := by
  simp [microOp, h]

/-- Between BYTEs the pins stay at rest, into the fetch edge of the next one. -/
theorem pinsOk_microNext_rest (i : Inputs) {s : State} {u : MicroOp} (hm : microOp s = some u)
    (hu : ∀ dc src, u ≠ .byte dc src) (h : pinsOk s = true) : pinsOk (microNext i s u) = true := by
  have hnone : ∀ t, microOp t = some u → currentByte t = none := fun t ht => by
    rw [Option.eq_none_iff_forall_ne_some]
    rintro ⟨dc, src⟩ hb
    exact hu dc src (Option.some.inj (ht.symm.trans (currentByte_eq_some_iff.1 hb).2))
  obtain ⟨hcs, hsclk⟩ := microNext_rest i s hu
  rw [pinsOk_iff_rest, hcs, hsclk]
  · exact (pinsOk_iff_rest (.inl (hnone s hm))).1 h
  · exact (microNext_stays_or_begins i s u).imp_left fun he => hnone _ ((microOp_microNext i he).trans hm)

/-- Inside a BYTE the waveform moves on, and its end leaves the pins at rest. -/
theorem pinsOk_microNext_byte (i : Inputs) {s : State} {dc : Bool} {src : ByteSrc} (hc : s.cfg.wf = true)
    (ha : s.active = true) (hm : microOp s = some (.byte dc src)) (h : pinsOk s = true) :
    pinsOk (microNext i s (.byte dc src)) = true := by
  obtain ⟨hwave, hconst⟩ := (pinsOk_iff_wave (currentByte_eq_some_iff.2 ⟨ha, hm⟩)).1 h
  have hwave' := onWave_byteEdge (sourceByte i s src) hc hwave
  obtain ⟨hact, -, -, -, hlast, hmore⟩ := microNext_timed (i := i) (s := s) (u := .byte dc src) rfl
  by_cases hd : s.cnt + 1 = byteDur s.cfg
  · have h20 : s.cnt + 1 = 1 + 20 * halfPeriod s.cfg := hd
    rw [h20] at hwave'
    obtain ⟨hcs, hsclk, -, -⟩ := hwave'.at_end (halfPeriod_pos hc)
    exact (pinsOk_iff_rest (.inr (hlast hd).2)).2 ⟨hcs, hsclk⟩
  · obtain ⟨hupc, hcnt⟩ := hmore hd
    have hb : currentByte (microNext i s (.byte dc src)) = some (dc, src) :=
      currentByte_eq_some_iff.2 ⟨hact.trans ha, (microOp_microNext i hupc).trans hm⟩
    rw [pinsOk_iff_wave hb, hcnt, microNext_cfg]
    refine ⟨hwave', fun _ b hsrc => ?_⟩
    rw [microNext, byteEdge_sh _ _ hc]
    split
    next => rw [hsrc]; rfl
    next h0 => exact hconst h0 b hsrc

/-- Neither a register write nor a refused command reaches the pins, and an accepted one begins a program at rest. -/
theorem pinsOk_busNext (i : Inputs) {s : State} (h : pinsOk s = true) : pinsOk (busNext i s) = true := by
  cases ha : s.active with
  | true =>
    obtain ⟨_, _, _, _, e⟩ := busNext_active i ha
    rw [e]; exact h
  | false =>
    have hidle : currentByte s = none := by simp [currentByte, ha]
    rcases busNext_inactive i ha with ⟨_, _, _, e⟩ | ⟨_, _, e⟩ | ⟨_, _, e⟩ <;> rw [e]
    · exact h
    · exact h
    · exact (pinsOk_iff_rest (.inr rfl)).2 ((pinsOk_iff_rest (.inl hidle)).1 h)

/-- Settles O50: reset and abort leave the pins at rest; the bus and each kind of micro-op have their own lemma. -/
theorem everyStepKeepsThePinWaveform : Obligations.EveryStepKeepsThePinWaveform := by
  rintro s t ⟨hc, -, -, -⟩ h hstep
  have hb := pinsOk_busNext s.input h
  rcases step_cases hstep with ⟨_, rfl⟩ | ⟨_, _, rfl⟩ | ⟨_, _, _, rfl⟩ | ⟨_, ha, _, u, hu, rfl⟩
  · rfl
  · rwa [pinsOk_outside]
  · rfl
  · rw [pinsOk_outside]
    rw [← microOp_busNext s.input ha] at hu
    have hba := busNext_active_of_active s.input ha
    by_cases hbyte : ∃ dc src, u = .byte dc src
    · obtain ⟨dc, src, rfl⟩ := hbyte
      exact pinsOk_microNext_byte s.input (by simpa using hc) hba hu hb
    · exact pinsOk_microNext_rest s.input hu (fun dc src e => hbyte ⟨dc, src, e⟩) hb

end Machine
end Sys2Proof
end

section
/-! PROOFS, 40_adapter.md R109 and 41_transport.md R120: one BYTE is one frame. What a receiver has collected depends
only on how many slots have begun; `receive_wave` moves it on by one edge of the waveform, and an induction over the
edges left (`observe_rest_of_byte`) runs it to the end of the BYTE. -/

namespace Sys2Proof
namespace Machine

/-! ### The bits of a byte on the bus -/

/-- The first `n` bits a byte shows on MOSI, bit 7 first (20_memory.md R65). -/
def bitsSent (b : Byte) (n : Nat) : List Bool := (List.range n).map fun j => b.getLsbD (7 - j)

theorem bitsSent_succ (b : Byte) (n : Nat) : bitsSent b (n + 1) = bitsSent b n ++ [b.getLsbD (7 - n)] := by
  simp [bitsSent, List.range_succ]

/-- A receiver that has the eight bits has the byte. -/
theorem byteOfBits_bitsSent (b : Byte) : byteOfBits (bitsSent b 8) = b := by
  revert b
  decide

/-! ### What the receiver has collected -/

/-- What a receiver that began a BYTE(dc, b) as `r` holds when `m` slots have begun: CS falls in slot 1 and rises in
slot 18, and a bit is sampled in each even slot from 2 to 16 (40_adapter.md R107). -/
def collected (dc : Bool) (b : Byte) (r : Receiver) (m : Nat) : Receiver :=
  if m ≤ 1 then r
  else if m ≤ 18 then { dc := dc, bits := bitsSent b ((m - 1) / 2), frames := r.frames }
  else { dc := dc, bits := [], frames := mkFrame dc b :: r.frames }

theorem collected_inside (dc : Bool) (b : Byte) (r : Receiver) {m : Nat} (h2 : 2 ≤ m) (h18 : m ≤ 18) :
    collected dc b r m = { dc := dc, bits := bitsSent b ((m - 1) / 2), frames := r.frames } := by
  rw [collected, if_neg (by omega), if_pos h18]

theorem collected_after (dc : Bool) (b : Byte) (r : Receiver) {m : Nat} (h19 : 19 ≤ m) :
    collected dc b r m = { dc := dc, bits := [], frames := mkFrame dc b :: r.frames } := by
  rw [collected, if_neg (by omega), if_neg (by omega)]

/-! ### One edge seen from the bus -/

/-- CS falls: a frame begins. -/
theorem receive_start {p q : PinLevels} (hp : p.cs = true) (hq : q.cs = false) (r : Receiver) :
    receive p q r = { r with dc := q.dc, bits := [] } := by
  simp [receive, hp, hq]

/-- SCLK rises inside a frame: a bit is sampled. -/
theorem receive_sample {p q : PinLevels} (hp : p.cs = false) (hq : q.cs = false) (hlow : p.sclk = false)
    (hhigh : q.sclk = true) (r : Receiver) : receive p q r = { r with bits := r.bits ++ [q.mosi] } := by
  simp [receive, hp, hq, hlow, hhigh]

/-- SCLK does not rise and CS does not move: nothing is seen. -/
theorem receive_nothing {p q : PinLevels} (hcs : p.cs = q.cs) (hsclk : q.sclk = false) (r : Receiver) :
    receive p q r = r := by
  cases hq : q.cs <;> simp [receive, hcs, hq, hsclk]

/-- CS rises after eight bits: the frame is complete. -/
theorem receive_complete {p q : PinLevels} (hp : p.cs = false) (hq : q.cs = true) {r : Receiver}
    (h8 : r.bits.length = 8) :
    receive p q r = { r with bits := [], frames := mkFrame r.dc (byteOfBits r.bits) :: r.frames } := by
  simp [receive, hp, hq, h8]

/-- The receiver at the first edge of slot `n`. -/
theorem receive_slot {dc : Bool} {h k n : Nat} {s t : State} (hp : 1 ≤ h) (hk : k = 1 + n * h)
    (w : OnWave dc h k s) (w' : OnWave dc h (k + 1) t) (r : Receiver) :
    receive (pins s) (pins t) (collected dc t.sh r n) = collected dc t.sh r (n + 1) := by
  obtain ⟨hb, hb'⟩ := begun_slot hp hk
  have hcs : (pins s).cs = !(decide (2 ≤ n) && decide (n ≤ 18)) := by rw [← hb]; exact w.cs
  have hcs' : (pins t).cs = !(decide (2 ≤ n + 1) && decide (n + 1 ≤ 18)) := by rw [← hb']; exact w'.cs
  have hsclk : (pins s).sclk = (decide (3 ≤ n) && decide (n ≤ 17) && n % 2 == 1) := by rw [← hb]; exact w.sclk
  have hsclk' : (pins t).sclk = (decide (3 ≤ n + 1) && decide (n + 1 ≤ 17) && (n + 1) % 2 == 1) := by
    rw [← hb']; exact w'.sclk
  have hdc : (pins t).dc = dc := w'.dc (by omega)
  have hmosi : (pins t).mosi = t.sh.getLsbD (7 - min 7 ((n + 1 - 2) / 2)) := by
    rw [← hb']; exact w'.mosi (by omega)
  rcases show n = 0 ∨ n = 1 ∨ (2 ≤ n ∧ n ≤ 16 ∧ n % 2 = 0) ∨ (3 ≤ n ∧ n ≤ 17 ∧ n % 2 = 1) ∨ n = 18 ∨ 19 ≤ n by omega
    with rfl | rfl | ⟨h2, h16, heven⟩ | ⟨h3, h17, hodd⟩ | rfl | h19
  · rw [receive_nothing (hcs.trans hcs'.symm) hsclk']
    rfl
  · rw [receive_start hcs hcs', hdc]
    rfl
  · have hbit : min 7 ((n + 1 - 2) / 2) = (n - 1) / 2 := by omega
    have hcount : (n + 1 - 1) / 2 = (n - 1) / 2 + 1 := by omega
    rw [receive_sample (by grind) (by grind) (by grind) (by grind), hmosi, hbit,
      collected_inside _ _ _ h2 (by omega), collected_inside _ _ _ (by omega) (by omega), hcount, bitsSent_succ]
  · have hcount : (n + 1 - 1) / 2 = (n - 1) / 2 := by omega
    rw [receive_nothing (by grind) (by grind), collected_inside _ _ _ (by omega) (by omega),
      collected_inside _ _ _ (by omega) (by omega), hcount]
  · rw [receive_complete hcs hcs' rfl, collected_inside _ _ _ (by omega) (by omega),
      collected_after _ _ _ (by omega), byteOfBits_bitsSent]
  · rw [receive_nothing (by grind) (by grind), collected_after _ _ _ h19, collected_after _ _ _ (by omega)]

/-- One edge of the waveform takes the receiver to what it holds at the next. -/
theorem receive_wave {dc : Bool} {h k : Nat} {s t : State} (hp : 1 ≤ h) (w : OnWave dc h k s)
    (w' : OnWave dc h (k + 1) t) (r : Receiver) :
    receive (pins s) (pins t) (collected dc t.sh r (slotsBegun h k)) = collected dc t.sh r (slotsBegun h (k + 1)) := by
  by_cases hslot : ∃ n, k = 1 + n * h
  · obtain ⟨n, hk⟩ := hslot
    obtain ⟨hb, hb'⟩ := begun_slot hp hk
    rw [hb, hb']
    exact receive_slot hp hk w w' r
  · have hsame : slotsBegun h (k + 1) = slotsBegun h k := by
      rcases Nat.eq_zero_or_pos k with rfl | hpos
      · rfl
      · refine begun_quiet hp hpos fun hm => hslot ⟨(k - 1) / h, ?_⟩
        have := Nat.div_mul_cancel (Nat.dvd_of_mod_eq_zero hm)
        omega
    have hcs : s.pinCs = t.pinCs := by rw [w.cs, w'.cs, waveCs, waveCs, hsame]
    have hsclk : s.pinSclk = t.pinSclk := by rw [w.sclk, w'.sclk, waveSclk, waveSclk, hsame]
    rw [receive_same _ _ _ hcs hsclk, hsame]

/-! ### The edges of an undisturbed BYTE -/

/-- The byte st.sh holds after this edge of a BYTE: the one fetched now, or the one fetched before. -/
def heldByte (s : State) (src : ByteSrc) : Byte := if s.cnt = 0 then sourceByte s.input s src else s.sh

/-- The sequencer stands in a BYTE(dc, src) that sends `b`, its pins on the waveform. -/
structure Sending (dc : Bool) (src : ByteSrc) (b : Byte) (s : State) : Prop where
  legal : s.cfg.wf = true
  active : s.active = true
  byte : microOp s = some (.byte dc src)
  wave : OnWave dc (halfPeriod s.cfg) s.cnt s
  held : heldByte s src = b

/-- One undisturbed edge of a BYTE: its counters, and the next edge of its waveform. -/
theorem calm_byte {n : Nat} {s : State} {dc : Bool} {src : ByteSrc} {b : Byte} (hcalm : calmFor (n + 1) s)
    (hs : Sending dc src b s) :
    ∃ t, step s = .next t ∧ calmFor n t ∧ Kept s t ∧ t.sh = b ∧ OnWave dc (halfPeriod s.cfg) (s.cnt + 1) t
      ∧ (s.cnt + 1 = byteDur s.cfg → t.upc = s.upc + 1 ∧ t.cnt = 0)
      ∧ (s.cnt + 1 ≠ byteDur s.cfg → t.upc = s.upc ∧ t.cnt = s.cnt + 1) := by
  obtain ⟨t, hstep, hcalm', hkept, -, -, -, hlast, hmore⟩ := calm_timed hcalm hs.active hs.byte rfl
  obtain ⟨hr, hf⟩ := calm_input hcalm
  obtain ⟨d, x, y, l, hbus⟩ := busNext_active s.input hs.active
  have hwave := onWave_byteEdge (sourceByte s.input s src) hs.legal hs.wave
  have hsh : (byteEdge dc (sourceByte s.input s src) s).sh = b := (byteEdge_sh dc _ hs.legal).trans hs.held
  have ht := hstep
  rw [step_micro hr hs.active hf hs.byte, hbus, ← withHostFields, microNext_withHostFields, microNext] at ht
  -- of the byte's edge only its waveform and st.sh count from here on
  generalize byteEdge dc (sourceByte s.input s src) s = e at ht hwave hsh
  obtain ⟨hpins, hsh'⟩ : pins t = pins e ∧ t.sh = e.sh := by cases ht; exact ⟨rfl, rfl⟩
  exact ⟨t, hstep, hcalm', hkept, hsh'.trans hsh, hwave.of_pins rfl (fun h => ⟨h, hsh'⟩) hpins, hlast, hmore⟩

/-- From anywhere in a BYTE the edges that are left bring the receiver its frame. -/
theorem observe_rest_of_byte {dc : Bool} {src : ByteSrc} {b : Byte} (r : Receiver) (n : Nat) {s : State}
    (hs : Sending dc src b s) (hleft : s.cnt + n = 20 * halfPeriod s.cfg) (hcalm : calmFor (n + 1) s) :
    ∃ t, observe (n + 1) s (collected dc b r (slotsBegun (halfPeriod s.cfg) s.cnt)) = some (t, collected dc b r 20)
      ∧ t.upc = s.upc + 1 ∧ t.cnt = 0 ∧ t.sh = b
      ∧ OnWave dc (halfPeriod s.cfg) (1 + 20 * halfPeriod s.cfg) t := by
  induction n generalizing s with
  | zero =>
    have hp := halfPeriod_pos hs.legal
    obtain ⟨t, hstep, -, -, rfl, hwave, hlast, -⟩ := calm_byte hcalm hs
    have hend : s.cnt + 1 = 1 + 20 * halfPeriod s.cfg := by omega
    obtain ⟨hupc, hcnt⟩ := hlast hend
    have hrec := receive_wave hp hs.wave hwave r
    rw [hend, begun_end hp] at hrec
    rw [hend] at hwave
    exact ⟨t, by rw [observe, hstep, ← hrec]; rfl, hupc, hcnt, rfl, hwave⟩
  | succ n ih =>
    have hp := halfPeriod_pos hs.legal
    obtain ⟨t, hstep, hcalm', hkept, rfl, hwave, -, hmore⟩ := calm_byte hcalm hs
    obtain ⟨hupc, hcnt⟩ := hmore (by unfold byteDur; omega)
    have hrec := receive_wave hp hs.wave hwave r
    have ht : Sending dc src t.sh t :=
      { legal := hkept.cfg ▸ hs.legal
        active := hkept.active.trans hs.active
        byte := by rw [microOp, hkept.cfg, hkept.op, hupc]; exact hs.byte
        wave := by rw [hkept.cfg, hcnt]; exact hwave
        held := if_neg (by omega) }
    obtain ⟨u, hobs, hu⟩ := ih ht (by rw [hkept.cfg]; omega) hcalm'
    rw [hkept.cfg, hcnt, ← hrec] at hobs
    rw [hkept.cfg, hupc] at hu
    exact ⟨u, by rw [observe, hstep]; exact hobs, hu⟩

/-- Settles O17: at the fetch edge the pins rest, so the waveform and `observe_rest_of_byte` begin there. -/
theorem oneByteIsOneCompleteFrame : Obligations.OneByteIsOneCompleteFrame := by
  rintro s r dc src ⟨hc, -, -, -⟩ hpins ha hu h0 hcalm
  have hs : Sending dc src (sourceByte s.input s src) s :=
    ⟨hc, ha, hu, ((pinsOk_iff_wave (currentByte_eq_some_iff.2 ⟨ha, hu⟩)).1 hpins).1, if_pos h0⟩
  rw [Nat.add_comm] at hcalm ⊢
  obtain ⟨t, hobs, hupc, hcnt, hsh, hwave⟩ := observe_rest_of_byte r _ hs (by omega) hcalm
  obtain ⟨hcs, hsclk, hdc, hmosi⟩ := hwave.at_end (halfPeriod_pos hc)
  rw [h0] at hobs
  exact ⟨t, _, hobs, rfl, hupc, hcnt, hcs, hsclk, hdc, hsh ▸ hmosi⟩

end Machine
end Sys2Proof
end

section
/-! PROOFS, 41_transport.md R123 and R124: which pins an edge moves, and when. Outside block reset only the engine
moves them (`step_pins_cases`); DC and CS move in slots 0, 1 and 18 of a BYTE, where the waveform holds the others. -/

namespace Sys2Proof
namespace Machine

/-! ### Which pins an edge moves -/

theorem pins_outside (i : Inputs) (run b : Bool) (s : State) :
    pins (surroundings i run (synchronise b s)) = pins s := rfl

/-- The register bus reaches no pin. -/
theorem pins_busNext (i : Inputs) (s : State) : pins (busNext i s) = pins s := by
  cases ha : s.active with
  | true =>
    obtain ⟨_, _, _, _, e⟩ := busNext_active i ha
    rw [e]; rfl
  | false =>
    rcases busNext_inactive i ha with ⟨_, _, _, e⟩ | ⟨_, _, e⟩ | ⟨_, _, e⟩ <;> rw [e] <;> rfl

/-- Nor does it reach what a micro-op does to the pins. -/
theorem pins_microNext_busNext (i : Inputs) {s : State} (u : MicroOp) (ha : s.active = true) :
    pins (microNext i (busNext i s) u) = pins (microNext i s u) := by
  obtain ⟨d, t, b, l, e⟩ := busNext_active i ha
  rw [e, ← withHostFields, microNext_withHostFields]
  rfl

/-- Everything an edge outside block reset can do to the pins. -/
theorem step_pins_cases {s t : State} (hr : s.input.rstN = true) (h : step s = .next t) :
    (s.active = false ∧ pins t = pins s)
    ∨ (s.active = true ∧ s.input.hwFault = true ∧ pins t = { pins s with cs := true, sclk := false })
    ∨ (s.active = true ∧ s.input.hwFault = false
        ∧ ∃ u, microOp s = some u ∧ pins t = pins (microNext s.input s u)) := by
  have hbus := pins_busNext s.input s
  rcases step_cases h with ⟨hr', _⟩ | ⟨_, ha, rfl⟩ | ⟨_, ha, hf, rfl⟩ | ⟨_, ha, hf, u, hu, rfl⟩
  · simp [hr] at hr'
  · exact .inl ⟨ha, hbus⟩
  · refine .inr (.inl ⟨ha, hf, ?_⟩)
    rw [pins_outside, ← hbus]
    rfl
  · refine .inr (.inr ⟨ha, hf, u, hu, ?_⟩)
    rw [pins_outside, pins_microNext_busNext _ _ ha]

theorem microNext_pinRst (i : Inputs) (s : State) {u : MicroOp} (hu : ∀ v, u ≠ .setRst v) :
    (microNext i s u).pinRst = s.pinRst := by
  cases u with
  | setRst v => exact absurd rfl (hu v)
  | _ => simp [microNext]

/-- A micro-op that is no BYTE moves RST at most. -/
theorem pins_microNext_of_ne_byte (i : Inputs) (s : State) {u : MicroOp} (hu : ∀ dc src, u ≠ .byte dc src) :
    pins (microNext i s u) = { pins s with rst := (microNext i s u).pinRst } := by
  cases u with
  | byte dc src => exact absurd rfl (hu dc src)
  | _ => simp [microNext, pins]

/-- Settles O39: of what an edge can do to the pins, a SETRST alone moves RST, a BYTE and the abort alone the others. -/
theorem pinsMoveOnlyByTheirMicroOps : Obligations.PinsMoveOnlyByTheirMicroOps := by
  intro s t hr h
  change (_ → (pins t).rst = (pins s).rst)
    ∧ (_ → (pins t).dc = (pins s).dc ∧ (pins t).cs = (pins s).cs ∧ (pins t).sclk = (pins s).sclk
      ∧ (pins t).mosi = (pins s).mosi)
  rcases step_pins_cases hr h with ⟨_, e⟩ | ⟨ha, hf, e⟩ | ⟨ha, hf, u, hu, e⟩ <;> rw [e]
  · exact ⟨fun _ => rfl, fun _ => ⟨rfl, rfl, rfl, rfl⟩⟩
  · exact ⟨fun _ => rfl, fun hquiet => by simp [ha, hf] at hquiet⟩
  · simp only [ha, hf, hu, Option.some.injEq, ne_eq, Bool.true_eq_false, Bool.false_eq_true, false_or, true_and]
    refine ⟨microNext_pinRst s.input s, fun hbyte => ?_⟩
    rw [pins_microNext_of_ne_byte s.input s hbyte]
    exact ⟨rfl, rfl, rfl, rfl⟩

/-! ### Framing -/

/-- An edge from the levels `p` to the levels `q` keeps the framing of 41_transport.md R123. -/
structure Framed (p q : PinLevels) : Prop where
  dc : q.dc ≠ p.dc → p.cs = true ∧ q.cs = true
  cs : q.cs ≠ p.cs → p.sclk = false ∧ q.sclk = false

theorem Framed.of_same {p q : PinLevels} (hdc : q.dc = p.dc) (hcs : q.cs = p.cs) : Framed p q :=
  ⟨fun h => absurd hdc h, fun h => absurd hcs h⟩

/-- DC moves in slot 0, before CS falls; CS moves in slots 1 and 18, where SCLK is 0 and stays. -/
theorem framed_byteSlot {dc : Bool} {h k n : Nat} {s : State} (hp : 1 ≤ h) (hk : k = 1 + n * h)
    (w : OnWave dc h k s) : Framed (pins s) (pins (byteSlot dc n s)) := by
  have hcs := w.cs
  have hsclk := w.sclk
  simp only [waveCs, waveSclk, (begun_slot hp hk).1] at hcs hsclk
  constructor <;> simp only [pins, byteSlot_pinDc, byteSlot_pinCs, byteSlot_pinSclk]
  · intro hmoved
    obtain rfl : n = 0 := by
      by_contra h0
      exact hmoved (if_neg h0)
    exact ⟨hcs, hcs⟩
  · intro hmoved
    obtain rfl | rfl : n = 1 ∨ n = 18 := by
      by_contra h0
      rw [not_or] at h0
      exact hmoved (by rw [if_neg h0.1, if_neg h0.2])
    all_goals exact ⟨hsclk, hsclk⟩

theorem framed_byteEdge {dc : Bool} {s : State} (b : Byte) (hc : s.cfg.wf = true)
    (w : OnWave dc (halfPeriod s.cfg) s.cnt s) : Framed (pins s) (pins (byteEdge dc b s)) := by
  have haction : pins (byteEdge dc b s) = pins (byteAction dc b s) := by simp [pins, byteEdge]
  rw [haction]
  rcases byteAction_cases dc b hc with ⟨_, e⟩ | ⟨n, hn, e⟩ | ⟨_, _, e⟩ <;> rw [e]
  · exact .of_same rfl rfl
  · exact framed_byteSlot (halfPeriod_pos hc) hn w
  · exact .of_same rfl rfl

/-- Every micro-op keeps the framing: outside a BYTE neither DC nor CS moves. -/
theorem framed_microNext (i : Inputs) {s : State} {u : MicroOp} (hc : s.cfg.wf = true) (ha : s.active = true)
    (hu : microOp s = some u) (h : pinsOk s = true) : Framed (pins s) (pins (microNext i s u)) := by
  by_cases hbyte : ∃ dc src, u = .byte dc src
  · obtain ⟨dc, src, rfl⟩ := hbyte
    exact framed_byteEdge _ hc ((pinsOk_iff_wave (currentByte_eq_some_iff.2 ⟨ha, hu⟩)).1 h).1
  · rw [pins_microNext_of_ne_byte i s fun dc src e => hbyte ⟨dc, src, e⟩]
    exact .of_same rfl rfl

/-- Settles O54: every edge but the abort is `Framed`; the abort moves CS and SCLK alone, and leaves SCLK at 0. -/
theorem framingHoldsAtEveryEdge : Obligations.FramingHoldsAtEveryEdge := by
  rintro s t ⟨hc, -, -, -⟩ hpins hr h
  change ((pins t).dc ≠ (pins s).dc → (pins s).cs = true ∧ (pins t).cs = true)
    ∧ ((pins t).cs ≠ (pins s).cs → (pins t).sclk = false ∧ (_ → (pins s).sclk = false))
  have hedge : Framed (pins s) (pins t)
      ∨ s.input.hwFault = true ∧ pins t = { pins s with cs := true, sclk := false } := by
    rcases step_pins_cases hr h with ⟨_, e⟩ | ⟨_, hf, e⟩ | ⟨ha, _, u, hu, e⟩
    · exact .inl (.of_same (by rw [e]) (by rw [e]))
    · exact .inr ⟨hf, e⟩
    · exact .inl (e ▸ framed_microNext s.input hc ha hu hpins)
  rcases hedge with ⟨hdc, hcs⟩ | ⟨hf, e⟩
  · exact ⟨hdc, fun hmoved => ⟨(hcs hmoved).2, fun _ => (hcs hmoved).1⟩⟩
  · rw [e]
    exact ⟨fun hmoved => absurd rfl hmoved, fun _ => ⟨rfl, fun hf' => by simp [hf] at hf'⟩⟩

end Machine
end Sys2Proof
end

section
/-! PROOFS, 42_sequencer.md R130 to R133: the CMD edge of the five host commands. `allowed_iff` is the acceptance table
of R133; whether a command is accepted, rejected or dropped decides its whole next state. -/

namespace Sys2Proof
namespace Machine

/-! ### The acceptance table -/

theorem allowed_iff {i : Instr} {w : Word} (h : encode i = .hostCmd w) (d : DriverState) :
    allowed (hostOp w) d = true ↔
      i = .reset ∨ i = .init ∨ ((i = .clear ∨ i = .writeFrame) ∧ d = .idle)
        ∨ (i = .waitIdle ∧ (d = .idle ∨ d = .busy)) := by
  rcases hostCmd_op h with ⟨rfl, ho⟩ | ⟨rfl, ho⟩ | ⟨rfl, ho⟩ | ⟨rfl, ho⟩ | ⟨rfl, ho⟩ <;> rw [ho] <;> simp [allowed]

theorem not_allowed_iff {i : Instr} {w : Word} (h : encode i = .hostCmd w) (d : DriverState) :
    allowed (hostOp w) d = false ↔
      ((i = .clear ∨ i = .writeFrame) ∧ d ≠ .idle) ∨ (i = .waitIdle ∧ d ≠ .idle ∧ d ≠ .busy) := by
  rw [← Bool.not_eq_true, allowed_iff h]
  rcases hostCmd_op h with ⟨rfl, _⟩ | ⟨rfl, _⟩ | ⟨rfl, _⟩ | ⟨rfl, _⟩ | ⟨rfl, _⟩ <;> simp

theorem entryState_hostOp {i : Instr} {w : Word} (h : encode i = .hostCmd w) :
    entryState (hostOp w) = if i = .reset ∨ i = .init then .resetting
      else if i = .clear ∨ i = .writeFrame then .transferring else .busy := by
  cases i <;> cases h <;> rfl

/-! ### The CMD edge with ACTIVE = 0 -/

section
variable {op : BitVec 4} {s : State}

theorem hostCommand_of_accepted (ha : s.active = false) (hd : allowed op s.state = true)
    (hlen : op = 4#4 → s.frameLen.toNat = planeBytes s.cfg) :
    hostCommand op s = accept op (recordCommand op s) := by
  have hfit : ¬ (op = 4#4 ∧ s.frameLen.toNat ≠ planeBytes s.cfg) := fun ⟨ho, hne⟩ => hne (hlen ho)
  simp only [hostCommand, ha, hd, hfit, Bool.false_eq_true, Bool.true_eq_false, if_false]

theorem hostCommand_of_not_allowed (ha : s.active = false) (hd : allowed op s.state = false) :
    hostCommand op s = raise .cmdRejected (recordCommand op s) := by
  simp only [hostCommand, ha, hd, Bool.false_eq_true, if_false, if_true]

/-- An allowed command is accepted or has the wrong length: neither is CMD_REJECTED. -/
theorem hostCommand_rejected_iff (ha : s.active = false) :
    (hostCommand op s).result = .cmdRejected ↔ allowed op s.state = false := by
  refine ⟨fun hr => ?_, fun hd => by rw [hostCommand_of_not_allowed ha hd]; rfl⟩
  by_contra hd
  simp only [hostCommand, ha, hd, Bool.false_eq_true, if_false] at hr
  split at hr <;> cases hr

end

/-! ### The statements -/

/-- Settles O6: `allowed_iff` and the length make it an acceptance, whose entry state is its command's. -/
theorem acceptedCommandStartsItsOperation : Obligations.AcceptedCommandStartsItsOperation := by
  intro i w s hi ha hcond
  have hd : allowed (hostOp w) s.state = true := (allowed_iff hi _).2 (by tauto)
  have hlen : hostOp w = 4#4 → s.frameLen.toNat = planeBytes s.cfg := by
    rcases hcond with rfl | rfl | ⟨rfl, _⟩ | ⟨rfl, _, hl⟩ | ⟨rfl, _⟩
    case inr.inr.inr.inl => exact fun _ => hl
    all_goals
      cases hi
      exact fun ho => absurd ho (by decide)
  refine ⟨_, exec_hostCmd hi s, ?_⟩
  rw [hostCommand_of_accepted ha hd hlen, ← entryState_hostOp hi]
  rfl

/-- Settles O7: the commands that `allowed` turns away, whatever the length register holds. -/
theorem commandRejectedOutsideItsStates : Obligations.CommandRejectedOutsideItsStates := by
  intro i w s hi ha
  rw [exec_hostCmd hi, ← not_allowed_iff hi]
  simp only [Host.Outcome.next.injEq, exists_eq_left', hostCommand_rejected_iff ha, true_and]
  intro hd
  rw [hostCommand_of_not_allowed ha hd]
  rfl

/-- Settles O9: any word with ACTIVE = 1 is `dropCommand`. -/
theorem commandDroppedWhileActive : Obligations.CommandDroppedWhileActive := by
  refine fun s ha => ⟨cmdWrite_active ha, fun i w hi => ?_⟩
  rw [exec_hostCmd hi, hostCommand_of_active ha]
  rfl

/-- A host command that leaves ACTIVE as it was touches no field of the sequencer: it was dropped or refused. -/
theorem hostCommand_keeps_sequencer {op : BitVec 4} {s : State} (h : (hostCommand op s).active = s.active) :
    (hostCommand op s).state = s.state ∧ (hostCommand op s).op = s.op
      ∧ (hostCommand op s).opTimeout = s.opTimeout ∧ (hostCommand op s).opBase = s.opBase
      ∧ (hostCommand op s).upc = s.upc ∧ (hostCommand op s).cnt = s.cnt
      ∧ (hostCommand op s).timedOut = s.timedOut ∧ (hostCommand op s).contended = s.contended := by
  cases ha : s.active with
  | true => simp [hostCommand_of_active ha]
  | false =>
    rcases hostCommand_cases op ha with e | e | ⟨e, _⟩ <;> rw [e] at h ⊢
    · simp
    · simp
    · simp [ha] at h

/-- Settles O11: field by field what `hostCommand` leaves, and `hostCommand_keeps_sequencer`. -/
theorem hostCommandsKeepPinsRegistersAndMemory : Obligations.HostCommandsKeepPinsRegistersAndMemory := by
  intro i w s t hi ht
  rw [exec_hostCmd hi] at ht
  obtain rfl := Host.Outcome.next.inj ht
  simpa using hostCommand_keeps_sequencer

end Machine
end Sys2Proof
end

section
/-! PROOFS, 42_sequencer.md R134 and R140: the programs P(op) as lists. A frame command is its planes and then
`refreshWait`; what is said of a program (its stream, its edges) is said of those parts and added up. -/

namespace Sys2Proof
namespace Machine

/-! ### Streams -/

section
variable (buf : Nat → Byte)

theorem streamOf_append (p q : List MicroOp) : streamOf buf (p ++ q) = streamOf buf p ++ streamOf buf q :=
  List.filterMap_append

theorem streamOf_sendCommand (b : Byte) : streamOf buf [sendCommand b] = [cFrame b] := rfl

theorem streamOf_refreshWait : streamOf buf refreshWait = [] := rfl

theorem streamOf_constPlane (c : Config) (b : Byte) :
    streamOf buf (constPlane c b) = List.replicate (planeBytes c) (dFrame b) :=
  List.filterMap_replicate_of_some rfl

theorem streamOf_bufferPlane (c : Config) :
    streamOf buf (bufferPlane c) = (List.range (planeBytes c)).map fun i => dFrame (buf i) := by
  rw [streamOf, bufferPlane, List.filterMap_map, ← List.filterMap_eq_map]
  rfl

end

/-- Settles O40: each program is `framePlanes` of its first plane and `refreshWait`; its stream is that of the parts. -/
theorem frameProgramsSendWholePlanes : Obligations.FrameProgramsSendWholePlanes := by
  rintro c buf n rfl
  have hL : c.width * c.height / 8 = planeBytes c := rfl
  rw [hL]
  refine ⟨fun hv => ?_, fun hv => ?_, planeBytes_eq⟩ <;>
    simp only [program_three, program_four, programClear, programWriteFrame, framePlanes, hv, streamOf_append,
      streamOf_sendCommand, streamOf_constPlane, streamOf_bufferPlane, streamOf_refreshWait] <;>
    simp [refreshWait, sendCommand, sendData, constPlane, bufferPlane]

/-! ### END -/

/-- Settles O43: in `program_shape` END comes last, after plain micro-ops, a SETSTATE and a WAIT. -/
theorem programsEndInTheirOnlyEnd : Obligations.ProgramsEndInTheirOnlyEnd := by
  intro c op h1 h5
  obtain ⟨A, S, B, W, C, F, hp, hA, hB, hC, hcase⟩ := program_shape c (legalOp_of_toNat h1 h5)
  have hplain : ∀ a b, plain (.finish a b) ≠ true := by simp [plain]
  have hS : ∀ a b, .finish a b ∉ S := by
    rcases hcase with ⟨_, rfl, _⟩ | ⟨_, rfl, _⟩ | ⟨_, rfl, _⟩ | ⟨_, rfl, _⟩ <;> simp
  have hW : ∀ a b, .finish a b ∉ W := by
    rcases hcase with ⟨_, _, _, rfl, _⟩ | ⟨_, _, rfl, _⟩ | ⟨_, _, rfl, _⟩ | ⟨_, _, _, rfl, _⟩ <;> simp
  refine ⟨A ++ (S ++ (B ++ (W ++ C))), ?_, ?_⟩
  · rw [hp]
    rcases hcase with ⟨rfl, _, _, _, rfl⟩ | ⟨rfl, _, _, rfl⟩ | ⟨rfl | rfl, _, _, rfl⟩ | ⟨rfl, _, _, _, rfl⟩ <;>
      simp
  · rintro u hu a b rfl
    simp only [List.mem_append] at hu
    rcases hu with hu | hu | hu | hu | hu
    · exact hplain a b (hA _ hu)
    · exact hS a b hu
    · exact hplain a b (hB _ hu)
    · exact hW a b hu
    · exact hplain a b (hC _ hu)

/-! ### Edges -/

/-- The edges of a list of micro-ops, a WAIT taken at its last sample (42_sequencer.md R135). -/
def edges (c : Config) (t : Word) (p : List MicroOp) : Nat := (p.map (microDur c t)).sum

section
variable (c : Config) (t : Word)

theorem edges_append (p q : List MicroOp) : edges c t (p ++ q) = edges c t p + edges c t q := by
  simp [edges]

theorem edges_cons (u : MicroOp) (p : List MicroOp) : edges c t (u :: p) = microDur c t u + edges c t p := by
  simp [edges]

theorem edges_nil : edges c t [] = 0 := rfl

theorem edges_constPlane (b : Byte) : edges c t (constPlane c b) = planeBytes c * byteDur c := by
  simp [edges, constPlane, sendData, microDur]

theorem edges_bufferPlane : edges c t (bufferPlane c) = planeBytes c * byteDur c := by
  simp [edges, bufferPlane, Function.comp_def, microDur]

theorem edges_rstPulse : edges c t rstPulse = 3 + 30 * cyclesPerMs c := by
  simp only [rstPulse, edges_cons, edges_nil, microDur, Config.resetDwellMs]
  omega

theorem edges_defaultInitTable :
    edges c t (expandTable Config.defaultInitTable) = 25 * cyclesPerMs c + 19 * byteDur c := by
  simp only [Config.defaultInitTable, expandTable, expandRest, expandEntry, sendCommand, sendData, List.map_cons,
    List.map_nil, edges_append, edges_cons, edges_nil, microDur, Config.settleMs]
  omega

/-- The planes of a frame command and their opcodes: two of each with THREE_COLOR and a trigger, one with MONO
(44_frame.md R171, R172). -/
theorem edges_framePlanes {p : List MicroOp} (hp : edges c t p = planeBytes c * byteDur c) :
    edges c t (framePlanes c p) = match c.panelVariant with
      | .threeColor => (2 * planeBytes c + 3) * byteDur c
      | .mono => (planeBytes c + 2) * byteDur c := by
  cases hv : c.panelVariant <;>
    simp only [framePlanes, hv, edges_append, edges_cons, edges_nil, edges_constPlane, hp, sendCommand, microDur] <;>
    ring

theorem edges_refreshWait : edges c t refreshWait = 3 + pollEdges c * lastSample c t := by
  simp only [refreshWait, edges_cons, edges_nil, microDur]
  omega

theorem opBound_eq (op : BitVec 4) : opBound c op t = edges c t (program c op) := rfl

end

/-- M with the quotient as 45_busy_wait.md writes it: POLL_MS is at least 1. -/
theorem lastSample_eq {c : Config} (h : c.wf = true) (t : Word) :
    lastSample c t = max 1 ((t.toNat + c.pollMs - 1) / c.pollMs) := by
  rw [lastSample, Nat.add_sub_assoc (pollMs_pos h).1]

/-- Settles O45: the edges of each program's parts, added up. -/
theorem operationBounds : Obligations.OperationBounds := by
  intro c t hc ms byte wait n
  have hwait : pollEdges c * lastSample c t = wait := by rw [lastSample_eq hc]; rfl
  have hframe {p : List MicroOp} (hp : edges c t p = n * byte) :
      edges c t (framePlanes c p ++ refreshWait) = (match c.panelVariant with
        | .threeColor => (2 * n + 3) * byte
        | .mono => (n + 2) * byte) + 3 + wait := by
    rw [edges_append, edges_framePlanes c t hp, edges_refreshWait, hwait, Nat.add_assoc]
    rfl
  have hclear : opBound c 3#4 t = _ := hframe (edges_constPlane c t 0xFF#8)
  have hwrite : opBound c 4#4 t = _ := hframe (edges_bufferPlane c t)
  refine ⟨?_, fun htable => ?_, fun hv => ?_, fun hv => ?_, ?_, fun hR7 => ?_⟩
  · rw [opBound_eq, program_one, programReset, edges_append, edges_rstPulse, edges_cons, edges_nil]
    show 3 + 30 * ms + 1 = _
    omega
  · rw [opBound_eq, program_two, programInit, htable]
    simp only [edges_append, edges_rstPulse, edges_cons, edges_nil, edges_defaultInitTable, sendCommand, microDur,
      hwait]
    show 3 + 30 * ms + (1 + (byte + (1 + wait + 0))) + (25 * ms + 19 * byte) + (1 + 0) = _
    omega
  · rw [hclear, hwrite, hv]
    exact ⟨rfl, rfl⟩
  · rw [hclear, hwrite, hv]
    exact ⟨rfl, rfl⟩
  · rw [opBound_eq, program_five, programWaitIdle, edges_cons, edges_cons, edges_nil, microDur, hwait, microDur]
    omega
  · have hn : n = 4736 := planeBytes_eq hR7
    have hpoll : c.pollMs = 10 := by
      simp [Config.sourceValues] at hR7
      tauto
    exact ⟨by omega, by omega, by simp only [wait, hpoll]; rfl⟩

end Machine
end Sys2Proof
end

section
/-! PROOFS, 42_sequencer.md R133 to R139: the course of an operation. `step_course_cases` says once what an edge does to
the sequencer's fields; STATE then follows the program (`stateAt`), and END finds the state its program has reached. -/

namespace Sys2Proof
namespace Machine

/-! ### What an edge does to the sequencer -/

/-- `s` and `t` agree on the build and on every field the sequencer and its invariants read. -/
structure SameCourse (s t : State) : Prop where
  cfg : t.cfg = s.cfg
  state : t.state = s.state
  active : t.active = s.active
  op : t.op = s.op
  opTimeout : t.opTimeout = s.opTimeout
  upc : t.upc = s.upc
  cnt : t.cnt = s.cnt
  timedOut : t.timedOut = s.timedOut
  result : t.result = s.result

theorem SameCourse.outside (i : Inputs) (run b : Bool) (s : State) :
    SameCourse s (surroundings i run (synchronise b s)) := ⟨rfl, rfl, rfl, rfl, rfl, rfl, rfl, rfl, rfl⟩

theorem SameCourse.withHostFields (d : Bool) (t b l : Word) (s : State) :
    SameCourse s (withHostFields d t b l s) := ⟨rfl, rfl, rfl, rfl, rfl, rfl, rfl, rfl, rfl⟩

theorem SameCourse.trans {s t u : State} (h : SameCourse s t) (g : SameCourse t u) : SameCourse s u :=
  ⟨g.cfg.trans h.cfg, g.state.trans h.state, g.active.trans h.active, g.op.trans h.op, g.opTimeout.trans h.opTimeout,
    g.upc.trans h.upc, g.cnt.trans h.cnt, g.timedOut.trans h.timedOut, g.result.trans h.result⟩

/-- Everything an edge outside block reset can do to the sequencer: the bus, the abort, or the current micro-op. -/
theorem step_course_cases {s t : State} (hr : s.input.rstN = true) (h : step s = .next t) :
    (s.active = false ∧ SameCourse (busNext s.input s) t)
    ∨ (s.active = true ∧ s.input.hwFault = true ∧ SameCourse (abort s) t)
    ∨ (s.active = true ∧ s.input.hwFault = false
        ∧ ∃ u, microOp s = some u ∧ SameCourse (microNext s.input s u) t) := by
  rcases step_cases h with ⟨hr', _⟩ | ⟨_, ha, rfl⟩ | ⟨_, ha, hf, rfl⟩ | ⟨_, ha, hf, u, hu, rfl⟩
  · simp [hr] at hr'
  · exact .inl ⟨ha, .outside ..⟩
  all_goals
    obtain ⟨d, x, b, l, e⟩ := busNext_active s.input ha
    rw [e, ← Machine.withHostFields]
  · exact .inr (.inl ⟨ha, hf, .trans (.withHostFields d x b l (abort s)) (.outside ..)⟩)
  · rw [microNext_withHostFields]
    exact .inr (.inr ⟨ha, hf, u, hu, .trans (.withHostFields ..) (.outside ..)⟩)

/-- With ACTIVE = 0 the bus leaves the sequencer alone, or a refused command writes RESULT, or one is accepted. -/
theorem busNext_course_cases (i : Inputs) {s : State} (ha : s.active = false) :
    SameCourse s (busNext i s)
    ∨ (∃ r, r ≠ .none ∧ SameCourse (raise r s) (busNext i s))
    ∨ (allowed (hostOp i.regWdata) s.state = true
        ∧ SameCourse (accept (hostOp i.regWdata) s) (busNext i s)) := by
  rcases busNext_inactive i ha with ⟨_, _, _, e⟩ | ⟨r, hr, e⟩ | ⟨_, hd, e⟩ <;> rw [e]
  · exact .inl ⟨rfl, rfl, rfl, rfl, rfl, rfl, rfl, rfl, rfl⟩
  · refine .inr (.inl ⟨r, ?_, rfl, rfl, rfl, rfl, rfl, rfl, rfl, rfl, rfl⟩)
    rcases hr with rfl | rfl | rfl <;> decide
  · exact .inr (.inr ⟨hd, rfl, rfl, rfl, rfl, rfl, rfl, rfl, rfl, rfl⟩)

/-- A WAIT's edge counts on, or leaves the WAIT for the next micro-op or for END (45_busy_wait.md R188). -/
theorem waitEdge_moves (s : State) :
    ((waitEdge s).upc = s.upc ∧ (waitEdge s).cnt = s.cnt + 1)
    ∨ (((waitEdge s).upc = s.upc + 1 ∨ (waitEdge s).upc = endIndex s.cfg s.op) ∧ (waitEdge s).cnt = 0) := by
  rcases wait_cases s with ⟨h0, e⟩ | ⟨_, _, e⟩ | ⟨_, _, _, _, _, e⟩ | ⟨_, _, _, _, _, _, e⟩ | ⟨_, _, _, _, _, _, e⟩ <;>
    rw [e]
  · exact .inl ⟨rfl, by simp [h0]⟩
  · exact .inl ⟨rfl, rfl⟩
  · exact .inr ⟨.inl rfl, rfl⟩
  · exact .inr ⟨.inr rfl, rfl⟩
  · exact .inl ⟨rfl, rfl⟩

/-! ### STATE and RESULT -/

theorem driverStateOk_running_iff {s : State} (ha : s.active = true) :
    driverStateOk s = true ↔ s.state = stateAt s.cfg s.op s.upc := by
  simp [driverStateOk, ha]

theorem driverStateOk_idle_iff {s : State} (ha : s.active = false) :
    driverStateOk s = true ↔ s.state ≠ .initializing ∧ s.state ≠ .transferring := by
  simp [driverStateOk, ha]

theorem resultOk_running_iff {s : State} (ha : s.active = true) : resultOk s = true ↔ s.result = .none := by
  simp [resultOk, ha]

theorem resultOk_idle_iff {s : State} (ha : s.active = false) :
    resultOk s = true ↔ s.result ≠ .none ∨ s.state = .uninitialized := by
  simp [resultOk, ha]

theorem SameCourse.driverStateOk {s t : State} (h : SameCourse s t) : driverStateOk t = driverStateOk s := by
  simp only [Machine.driverStateOk, h.active, h.state, h.cfg, h.op, h.upc]

theorem SameCourse.resultOk {s t : State} (h : SameCourse s t) : resultOk t = resultOk s := by
  simp only [Machine.resultOk, h.active, h.result, h.state]

/-- STATE where the sequencer stands at END, with the states END then gives (42_sequencer.md R134, R139). -/
theorem state_at_finish {s : State} {a b : DriverState} (ha : s.active = true) (h : driverStateOk s = true)
    (hu : microOp s = some (.finish a b)) :
    (s.op = 1#4 ∧ a = .resetting ∧ b = .resetting ∧ s.state = .resetting)
    ∨ (s.op = 2#4 ∧ a = .idle ∧ b = .failed ∧ s.state = .initializing)
    ∨ ((s.op = 3#4 ∨ s.op = 4#4 ∨ s.op = 5#4) ∧ a = .idle ∧ b = .busy ∧ s.state = .busy) := by
  obtain ⟨hend, hop⟩ := finish_states hu
  have hstate := (driverStateOk_running_iff ha).1 h
  rw [hend, stateAt_end _ (legalOp_of_getElem? hu)] at hstate
  rcases hop with ⟨ho, rfl, rfl⟩ | ⟨ho, rfl, rfl⟩ | ⟨ho, rfl, rfl⟩
  · rw [ho] at hstate
    exact .inl ⟨ho, rfl, rfl, hstate⟩
  · rw [ho] at hstate
    exact .inr (.inl ⟨ho, rfl, rfl, hstate⟩)
  · have hbusy : s.state = .busy := by rcases ho with ho | ho | ho <;> rw [hstate, ho] <;> rfl
    exact .inr (.inr ⟨ho, rfl, rfl, hbusy⟩)

/-- A micro-op that lasts more than one edge leaves STATE alone: a SETSTATE takes one. -/
theorem stateAfter_of_not_last {c : Config} {t : Word} {u : MicroOp} {k : Nat} (h : k < microDur c t u)
    (hmore : k + 1 ≠ microDur c t u) (d : DriverState) : stateAfter d u = d := by
  cases u with
  | setState e =>
    simp only [microDur] at h hmore
    omega
  | _ => rfl

/-- While the operation runs on, STATE is the program's: timed micro-ops move both alike, and nothing between a WAIT and
END does. -/
theorem driverStateOk_microNext (i : Inputs) {s : State} {u : MicroOp} (ha : s.active = true)
    (hu : microOp s = some u) (hk : s.cnt < microDur s.cfg s.opTimeout u) (h : driverStateOk s = true) :
    driverStateOk (microNext i s u) = true := by
  have hs := (driverStateOk_running_iff ha).1 h
  by_cases ht : timed u = true
  · obtain ⟨hact, -, -, -, hlast, hmore⟩ := microNext_timed (i := i) (s := s) ht
    rw [driverStateOk_running_iff (hact.trans ha), state_timed ht, microNext_cfg, microNext_op]
    by_cases hl : s.cnt + 1 = microDur s.cfg s.opTimeout u
    · rw [(hlast hl).1, stateAt_succ hu, hs]
    · rw [(hmore hl).1, stateAfter_of_not_last hk hl, hs]
  cases u with
  | wait =>
    rw [microNext, driverStateOk_running_iff (by rw [waitEdge_active, ha]), waitEdge_state, waitEdge_cfg, waitEdge_op,
      hs]
    rcases waitEdge_moves s with ⟨e, _⟩ | ⟨e | e, _⟩ <;> rw [e]
    · exact (stateAt_succ hu).symm
    · exact stateAt_wait hu
  | finish a b =>
    rw [microNext, driverStateOk_idle_iff (finishEdge_active ..), finishEdge_state]
    rcases state_at_finish ha h hu with ⟨_, rfl, rfl, _⟩ | ⟨_, rfl, rfl, _⟩ | ⟨_, rfl, rfl, _⟩ <;> split <;> simp
  | _ => exact absurd rfl ht

theorem resultOk_microNext (i : Inputs) {s : State} (u : MicroOp) (ha : s.active = true)
    (h : resultOk s = true) : resultOk (microNext i s u) = true := by
  have hs := (resultOk_running_iff ha).1 h
  by_cases ht : timed u = true
  · obtain ⟨hact, -, -, hres, -⟩ := microNext_timed (i := i) (s := s) ht
    rw [resultOk_running_iff (hact.trans ha), hres, hs]
  cases u with
  | wait => rw [microNext, resultOk_running_iff (by rw [waitEdge_active, ha]), waitEdge_result, hs]
  | finish a b =>
    rw [microNext, resultOk_idle_iff (finishEdge_active ..), finishEdge_result]
    left
    split <;> decide
  | _ => exact absurd rfl ht

theorem driverStateOk_busNext (i : Inputs) {s : State} (ha : s.active = false) (h : driverStateOk s = true) :
    driverStateOk (busNext i s) = true := by
  rcases busNext_course_cases i ha with e | ⟨r, _, e⟩ | ⟨_, e⟩ <;> rw [e.driverStateOk]
  · exact h
  · exact h
  · exact (driverStateOk_running_iff rfl).2 (stateAt_zero _ _).symm

theorem resultOk_busNext (i : Inputs) {s : State} (ha : s.active = false) (h : resultOk s = true) :
    resultOk (busNext i s) = true := by
  rcases busNext_course_cases i ha with e | ⟨r, hr, e⟩ | ⟨_, e⟩ <;> rw [e.resultOk]
  · exact h
  · exact (resultOk_idle_iff (s := raise r s) ha).2 (.inl hr)
  · rfl

/-- Settles O51: block reset and the abort give their own states; the bus and each micro-op keep both invariants. -/
theorem everyStepKeepsTheDriverState : Obligations.EveryStepKeepsTheDriverState := by
  rintro s t ⟨-, -, hp, -⟩ hd hres h
  cases hr : s.input.rstN with
  | false =>
    obtain rfl := Host.Outcome.next.inj ((step_reset hr).symm.trans h)
    exact ⟨rfl, rfl⟩
  | true =>
    rcases step_course_cases hr h with ⟨ha, e⟩ | ⟨_, _, e⟩ | ⟨ha, _, u, hu, e⟩ <;> rw [e.driverStateOk, e.resultOk]
    · exact ⟨driverStateOk_busNext _ ha hd, resultOk_busNext _ ha hres⟩
    · exact ⟨rfl, rfl⟩
    · obtain ⟨v, hv, hk⟩ := (positionOk_running_iff ha).1 hp
      obtain rfl : v = u := Option.some.inj (hv.symm.trans hu)
      exact ⟨driverStateOk_microNext _ ha hu hk hd, resultOk_microNext _ _ ha hres⟩

/-! ### The table of R139 -/

/-- The rows of an accepted command. -/
theorem transitionListed_of_accepted {i : Inputs} {c : Instr} {s t : State} (hacc : acceptedAt i c s t)
    (hd : allowed (hostOp i.regWdata) s.state = true) (hstate : t.state = entryState (hostOp i.regWdata)) :
    transitionListed i s t := by
  have ⟨_, _, _, hc, _⟩ := hacc
  have henc := encode_of_decodeHost hc
  rw [allowed_iff henc] at hd
  rw [entryState_hostOp henc] at hstate
  rcases hd with rfl | rfl | ⟨rfl | rfl, hs⟩ | ⟨rfl, hs⟩
  · exact .inr (.inl ⟨hacc, hstate⟩)
  · exact .inr (.inr (.inl ⟨hacc, hstate⟩))
  · exact .inr (.inr (.inr (.inr (.inr (.inr (.inl ⟨.inl hacc, hs, hstate⟩))))))
  · exact .inr (.inr (.inr (.inr (.inr (.inr (.inl ⟨.inr hacc, hs, hstate⟩))))))
  · exact .inr (.inr (.inr (.inr (.inr (.inr (.inr (.inr (.inl ⟨hacc, hs, hstate⟩))))))))

/-- The rows of a SETSTATE: it stands where STATE is still the entry state. -/
theorem transitionListed_of_setState {i : Inputs} {d : DriverState} {s t : State} (hrun : runsAt i (.setState d) s)
    (h : driverStateOk s = true) (hstate : t.state = d) : transitionListed i s t := by
  have ⟨ha, _, hu⟩ := hrun
  obtain ⟨hentry, hop⟩ := setState_at hu
  have hs := ((driverStateOk_running_iff ha).1 h).trans hentry
  rcases hop with ⟨ho, rfl⟩ | ⟨ho, rfl⟩
  · rw [ho] at hs
    exact .inr (.inr (.inr (.inl ⟨hrun, ho, hs, hstate⟩)))
  · have hs' : s.state = .transferring := by rcases ho with ho | ho <;> rw [hs, ho] <;> rfl
    exact .inr (.inr (.inr (.inr (.inr (.inr (.inr (.inl ⟨hrun, ho, hs', hstate⟩)))))))

/-- The rows of END; the two that keep STATE are the first line's. -/
theorem transitionListed_of_finish {i : Inputs} {a b : DriverState} {s t : State} (hrun : runsAt i (.finish a b) s)
    (h : driverStateOk s = true) (hact : t.active = false) (hstate : t.state = if s.timedOut then b else a) :
    transitionListed i s t := by
  have ⟨ha, _, hu⟩ := hrun
  rcases state_at_finish ha h hu with ⟨_, rfl, rfl, hs⟩ | ⟨ho, rfl, rfl, hs⟩ | ⟨ho, rfl, rfl, hs⟩ <;>
    cases hto : s.timedOut <;> rw [hto] at hstate
  · exact .inl (hstate.trans hs.symm)
  · exact .inl (hstate.trans hs.symm)
  · exact .inr (.inr (.inr (.inr (.inl ⟨hrun, ho, hs, hact, hto, hstate⟩))))
  · exact .inr (.inr (.inr (.inr (.inr (.inl ⟨hrun, ho, hs, hact, hto, hstate⟩)))))
  · exact .inr (.inr (.inr (.inr (.inr (.inr (.inr (.inr (.inr (.inl ⟨hrun, ho, hs, hact, hto, hstate⟩)))))))))
  · exact .inl (hstate.trans hs.symm)

/-- SETRST, DELAY, BYTE and WAIT leave STATE alone. -/
theorem microNext_state_of_ne (i : Inputs) (s : State) {u : MicroOp} (hset : ∀ d, u ≠ .setState d)
    (hend : ∀ a b, u ≠ .finish a b) : (microNext i s u).state = s.state := by
  cases u with
  | setState d => exact absurd rfl (hset d)
  | finish a b => exact absurd rfl (hend a b)
  | _ => simp [microNext]

/-- Settles O53: with ACTIVE = 0 only an acceptance moves STATE; with ACTIVE = 1 the abort, a SETSTATE or END. -/
theorem onlyListedStateTransitionsOccur : Obligations.OnlyListedStateTransitionsOccur := by
  rintro s t - hd hr h
  rcases step_course_cases hr h with ⟨ha, e⟩ | ⟨ha, hf, e⟩ | ⟨ha, hf, u, hu, e⟩
  · rcases busNext_course_cases s.input ha with e' | ⟨_, _, e'⟩ | ⟨hallow, e'⟩
    · exact .inl (e.state.trans e'.state)
    · exact .inl (e.state.trans e'.state)
    · obtain ⟨hw, hcmd, c, hc⟩ := busNext_accepted ha e'.active
      exact transitionListed_of_accepted ⟨ha, hw, hcmd, hc, e.active.trans e'.active⟩ hallow (e.state.trans e'.state)
  · exact .inr (.inr (.inr (.inr (.inr (.inr (.inr (.inr (.inr (.inr ⟨ha, hf, e.active, e.state⟩)))))))))
  · have hrun : runsAt s.input u s := ⟨ha, hf, hu⟩
    by_cases hset : ∃ d, u = .setState d
    · obtain ⟨d, rfl⟩ := hset
      exact transitionListed_of_setState hrun hd (e.state.trans (setStateEdge_state ..))
    by_cases hend : ∃ a b, u = .finish a b
    · obtain ⟨a, b, rfl⟩ := hend
      exact transitionListed_of_finish hrun hd (e.active.trans (finishEdge_active ..))
        (e.state.trans (finishEdge_state ..))
    · exact .inl (e.state.trans (microNext_state_of_ne _ _ (fun d hd => hset ⟨d, hd⟩)
        (fun a b hab => hend ⟨a, b, hab⟩)))

end Machine
end Sys2Proof
end

section
/-! PROOFS, 42_sequencer.md R135 and R140: every edge brings a running operation nearer to its end. What is left is the
edges of the program from st.upc on, less st.cnt (`remaining_eq`); the run to the end is an induction on it. -/

namespace Sys2Proof
namespace Machine

/-! ### The edges from a position on -/

/-- The edges of P(op) from its micro-op `n` on. -/
def edgesFrom (c : Config) (op : BitVec 4) (t : Word) (n : Nat) : Nat := edges c t ((program c op).drop n)

theorem edgesFrom_of_getElem? {c : Config} {op : BitVec 4} {n : Nat} {u : MicroOp} (t : Word)
    (h : (program c op)[n]? = some u) : edgesFrom c op t n = microDur c t u + edgesFrom c op t (n + 1) := by
  obtain ⟨hn, rfl⟩ := List.getElem?_eq_some_iff.1 h
  rw [edgesFrom, List.drop_eq_getElem_cons hn, edges_cons]
  rfl

theorem edgesFrom_antitone (c : Config) (op : BitVec 4) (t : Word) : Antitone (edgesFrom c op t) := fun _ _ h =>
  (((List.drop_sublist_drop_left _ h).map _).sum_le_sum fun _ _ => Nat.zero_le _)

/-- From END on there is END's own edge. -/
theorem edgesFrom_end (c : Config) {op : BitVec 4} (h : legalOp op) (t : Word) :
    edgesFrom c op t (endIndex c op) = 1 := by
  have hlast : (program c op).drop (endIndex c op + 1) = [] := List.drop_eq_nil_of_le (by unfold endIndex; omega)
  have hdur : ∀ a b, microDur c t (.finish a b) = 1 := fun _ _ => rfl
  rw [edgesFrom_of_getElem? t (endIndex_finish c h), edgesFrom, hlast, edges_nil]
  split_ifs <;> rw [hdur]

theorem remaining_eq {s : State} (ha : s.active = true) :
    remaining s = edgesFrom s.cfg s.op s.opTimeout s.upc - s.cnt := if_pos ha

theorem remaining_idle {s : State} (ha : s.active = false) : remaining s = 0 := by
  simp [remaining, ha]

theorem remaining_at {s : State} {u : MicroOp} (ha : s.active = true) (hu : microOp s = some u) :
    remaining s = microDur s.cfg s.opTimeout u + edgesFrom s.cfg s.op s.opTimeout (s.upc + 1) - s.cnt := by
  rw [remaining_eq ha, edgesFrom_of_getElem? _ hu]

theorem SameCourse.remaining {s t : State} (h : SameCourse s t) : remaining t = remaining s := by
  simp only [Machine.remaining, h.active, h.cfg, h.op, h.opTimeout, h.upc, h.cnt]

/-! ### One edge of the current micro-op -/

section
variable {s : State}

/-- A timed micro-op takes one edge off, whether it counts on or leaves to the next. -/
theorem remaining_timed (i : Inputs) {u : MicroOp} (ha : s.active = true) (hu : microOp s = some u)
    (hk : s.cnt < microDur s.cfg s.opTimeout u) (ht : timed u = true) :
    remaining (microNext i s u) + 1 = remaining s := by
  obtain ⟨hact, -, -, -, hlast, hmore⟩ := microNext_timed (i := i) (s := s) ht
  rw [remaining_at ha hu, remaining_eq (hact.trans ha), microNext_cfg, microNext_op, microNext_opTimeout]
  by_cases hl : s.cnt + 1 = microDur s.cfg s.opTimeout u
  · obtain ⟨hupc, hcnt⟩ := hlast hl
    rw [hupc, hcnt]
    omega
  · obtain ⟨hupc, hcnt⟩ := hmore hl
    rw [hupc, hcnt, edgesFrom_of_getElem? _ hu]
    omega

theorem remaining_finishEdge {a b : DriverState} (ha : s.active = true) (hu : microOp s = some (.finish a b))
    (hk : s.cnt < 1) : remaining (finishEdge a b s) + 1 = remaining s := by
  have hend := finish_at hu
  rw [remaining_idle (finishEdge_active ..), remaining_eq ha, hend, edgesFrom_end _ (legalOp_of_getElem? hu)]
  omega

/-- END stands after every WAIT. -/
theorem wait_before_end {c : Config} {op : BitVec 4} {n : Nat} (h : (program c op)[n]? = some .wait) :
    n + 1 ≤ endIndex c op := by
  obtain ⟨_, hnext⟩ := next_exists h (by simp)
  have := (List.getElem?_eq_some_iff.1 hnext).1
  unfold endIndex
  omega

/-- A WAIT's edge that counts on is one edge; one that leaves the WAIT leaves the edges from a later micro-op on. -/
theorem remaining_waitEdge (ha : s.active = true) (hu : microOp s = some .wait)
    (hk : s.cnt < microDur s.cfg s.opTimeout .wait) :
    remaining (waitEdge s) < remaining s
      ∧ ((waitEdge s).upc = s.upc → remaining (waitEdge s) + 1 = remaining s) := by
  have hend := wait_before_end hu
  rw [remaining_at ha hu, remaining_eq (by rw [waitEdge_active, ha]), waitEdge_cfg, waitEdge_op, waitEdge_opTimeout]
  rcases waitEdge_moves s with ⟨hupc, hcnt⟩ | ⟨hupc, hcnt⟩
  · rw [hupc, hcnt, edgesFrom_of_getElem? _ hu]
    omega
  · have hlater : s.upc + 1 ≤ (waitEdge s).upc := by rcases hupc with e | e <;> omega
    have := edgesFrom_antitone s.cfg s.op s.opTimeout hlater
    omega

end

/-- Settles O55: a timed micro-op and END take exactly one edge off; a WAIT is `remaining_waitEdge`. -/
theorem everyEdgeCountsDown : Obligations.EveryEdgeCountsDown := by
  rintro s t ⟨-, -, hp, -⟩ ha hr hf h
  obtain ⟨v, hv, hk⟩ := (positionOk_running_iff ha).1 hp
  rcases step_course_cases hr h with ⟨ha', _⟩ | ⟨_, hf', _⟩ | ⟨_, _, u, hu, e⟩
  · simp [ha] at ha'
  · simp [hf] at hf'
  obtain rfl : v = u := Option.some.inj (hv.symm.trans hu)
  rw [e.remaining, e.upc]
  by_cases ht : timed v = true
  · have := remaining_timed s.input ha hu hk ht
    omega
  cases v with
  | wait =>
    obtain ⟨hless, hexact⟩ := remaining_waitEdge ha hu hk
    exact ⟨hless, fun hstay => hexact (hstay hu)⟩
  | finish a b =>
    have := remaining_finishEdge ha hu hk
    simp only [microNext]
    omega
  | _ => exact absurd rfl ht

/-! ### The end of an operation -/

/-- Block reset and the abort end an operation at once (70_reset_and_hazards.md R230, 60_exceptions.md R205). -/
theorem step_ends {s t : State} (ha : s.active = true) (hd : s.input.rstN = false ∨ s.input.hwFault = true)
    (h : step s = .next t) : t.active = false := by
  cases hr : s.input.rstN with
  | false =>
    obtain rfl := Host.Outcome.next.inj ((step_reset hr).symm.trans h)
    rfl
  | true =>
    have hf := hd.resolve_left (by simp [hr])
    obtain rfl := Host.Outcome.next.inj ((step_abort hr ha hf).symm.trans h)
    rfl

theorem remaining_pos {s : State} (hs : SeqInv s) (ha : s.active = true) : 0 < remaining s := by
  obtain ⟨-, -, hp, -⟩ := hs
  obtain ⟨u, hu, hk⟩ := (positionOk_running_iff ha).1 hp
  rw [remaining_at ha hu]
  omega

/-- Whatever the inputs, an edge of a running operation ends it or leaves fewer edges (R135, R140). -/
theorem step_ends_or_counts_down {s t : State} (hs : SeqInv s) (ha : s.active = true) (h : step s = .next t) :
    t.active = false ∨ remaining t < remaining s := by
  by_cases hd : s.input.rstN = false ∨ s.input.hwFault = true
  · exact .inl (step_ends ha hd h)
  · rw [not_or, Bool.not_eq_false, Bool.not_eq_true] at hd
    exact .inr (everyEdgeCountsDown s t hs ha hd.1 hd.2 h).1

/-- The edges of a running operation, one after the other, until ACTIVE is 0. -/
theorem operation_ends {s : State} (hs : SeqInv s) (ha : s.active = true) :
    ∃ k t, k ≤ remaining s ∧ Sys2Proof.core.run k s = .next t ∧ t.active = false := by
  induction hn : remaining s using Nat.strong_induction_on generalizing s with
  | _ n ih =>
    obtain ⟨t, ht⟩ := noStepStops s hs
    have hpos := remaining_pos hs ha
    have hdown := step_ends_or_counts_down hs ha ht
    cases hact : t.active with
    | false => exact ⟨1, t, by omega, run_one ht, hact⟩
    | true =>
      have hless := hdown.resolve_left (by simp [hact])
      obtain ⟨k, v, hk, hrun, hv⟩ := ih _ (hn ▸ hless) (everyStepStaysInItsProgram s t hs ht) hact rfl
      exact ⟨k + 1, v, by omega, (run_succ k ht).trans hrun, hv⟩

/-- Settles O56: `operation_ends` bounds the run, and at the accepting edge the whole program is left. -/
theorem everyOperationEnds : Obligations.EveryOperationEnds := by
  refine ⟨fun _ => operation_ends, fun s ha hupc hcnt => ?_⟩
  rw [remaining_eq ha, hupc, hcnt]
  rfl

end Machine
end Sys2Proof
end

section
/-! PROOFS, 42_sequencer.md R135 to R138: the edges of SETSTATE, END and BYTE as steps of the engine. -/

namespace Sys2Proof
namespace Machine

theorem finishEdge_eq (a b : DriverState) (s : State) :
    finishEdge a b s =
      { s with
        state := if s.timedOut then b else a
        result := if s.timedOut then .busyTimeout else .ok
        active := false, upc := 0, cnt := 0 } := by
  unfold finishEdge
  split <;> rfl

/-- Settles O20: SETSTATE lasts one edge, so from cnt = 0 it always moves on; END is `finishEdge_eq`. -/
theorem setStateAndEndTakeOneEdge : Obligations.SetStateAndEndTakeOneEdge := by
  refine ⟨fun i s d hf hu h0 => ?_, fun i s a b hf hu => ?_⟩
  · rw [enginePhase_micro hf hu, microNext, setStateEdge, advance_eq]
    simp [h0]
  · rw [enginePhase_micro hf hu, microNext, finishEdge_eq]

theorem busNext_of_no_write {i : Inputs} (h : i.regWe = false) (s : State) : busNext i s = s := by
  simp [busNext, h]

/-- Settles O23: the step is a BYTE edge, and so is the meaning of the decoded frame (`exec_spiFrame`). -/
theorem stepRunsTheDecodedFrame : Obligations.StepRunsTheDecodedFrame := by
  intro s dc src hr hf hw ha hu
  have hstep := step_micro hr ha hf hu
  rw [busNext_of_no_write hw, microNext] at hstep
  refine ⟨fun c hc => ?_, fun _ _ => hstep⟩
  rw [hstep, exec_spiFrame (encode_of_decodeFrameIn hc), frameDc_mkFrame, frameB_mkFrame, andThen_next]

end Machine
end Sys2Proof
end

section
/-! PROOFS, 43_reset_init.md R150 and R151: an undisturbed RESET. After k edges of an operation without a WAIT what is
left and the level of RST follow from the position (`Underway`); `reset_position` then reads k off the program. -/

namespace Sys2Proof
namespace Machine

/-! ### RST along a program -/

/-- The level of RST at position `upc` of P(op), `r` being the level at its start: the last SETRST passed. -/
def rstAt (c : Config) (op : BitVec 4) (r : Bool) (upc : Nat) : Bool :=
  ((program c op).take upc).foldl rstAfter r

theorem rstAt_succ {c : Config} {op : BitVec 4} {n : Nat} {u : MicroOp} (h : (program c op)[n]? = some u)
    (r : Bool) : rstAt c op r (n + 1) = rstAfter (rstAt c op r n) u := by
  rw [rstAt, List.take_add_one, h, List.foldl_append]
  rfl

/-- A micro-op that lasts more than one edge leaves RST alone: a SETRST takes one. -/
theorem rstAfter_of_not_last {c : Config} {t : Word} {u : MicroOp} {k : Nat} (h : k < microDur c t u)
    (hmore : k + 1 ≠ microDur c t u) (r : Bool) : rstAfter r u = r := by
  cases u with
  | setRst v =>
    simp only [microDur] at h hmore
    omega
  | _ => rfl

/-! ### An undisturbed operation, edge by edge -/

/-- `t` is `k` edges into the operation that began at `s`, and the edges left are undisturbed. -/
structure Underway (s : State) (k : Nat) (t : State) : Prop where
  inv : SeqInv t
  active : t.active = true
  kept : Kept s t
  left : remaining t + k = remaining s
  rst : t.pinRst = rstAt s.cfg s.op s.pinRst t.upc
  calm : calmFor (remaining t) t

/-- At the accepting edge's state the operation has taken no edge. -/
theorem Underway.zero {s : State} (hs : SeqInv s) (ha : s.active = true) (hupc : s.upc = 0)
    (hcalm : calmFor (remaining s) s) : Underway s 0 s :=
  ⟨hs, ha, .refl s, rfl, by rw [hupc]; rfl, hcalm⟩

/-- An edge of a timed micro-op takes the operation one edge on. -/
theorem Underway.succ {s t : State} {k : Nat} {u : MicroOp} (h : Underway s k t) (hu : microOp t = some u)
    (ht : timed u = true) : ∃ v, step t = .next v ∧ Underway s (k + 1) v := by
  obtain ⟨hinv, ha, hkept, hleft, hrst, hcalm⟩ := h
  have ⟨_, _, hp, _⟩ := hinv
  obtain ⟨u', hu', hk⟩ := (positionOk_running_iff ha).1 hp
  obtain rfl : u' = u := Option.some.inj (hu'.symm.trans hu)
  obtain ⟨n, hn⟩ := Nat.exists_eq_succ_of_ne_zero (remaining_pos hinv ha).ne'
  rw [hn] at hcalm
  obtain ⟨v, hstep, hcalm', hkept', -, hrst', -, hlast, hmore⟩ := calm_timed hcalm ha hu ht
  obtain ⟨hr, hf⟩ := calm_input hcalm
  have hdown : remaining v + 1 = remaining t :=
    (everyEdgeCountsDown t v hinv ha hr hf hstep).2 fun hw => by
      obtain rfl := Option.some.inj (hu.symm.trans hw)
      cases ht
  have hrstv : v.pinRst = rstAt s.cfg s.op s.pinRst v.upc := by
    rw [hrst', hrst]
    by_cases hl : t.cnt + 1 = microDur t.cfg t.opTimeout u'
    · rw [microOp, hkept.cfg, hkept.op] at hu
      rw [(hlast hl).1, rstAt_succ hu]
    · rw [(hmore hl).1, rstAfter_of_not_last hk hl]
  refine ⟨v, hstep, everyStepStaysInItsProgram t v hinv hstep, hkept'.active.trans ha, hkept.trans hkept', by omega,
    hrstv, ?_⟩
  rwa [show remaining v = n by omega]

/-- The undisturbed edge of END (42_sequencer.md R138). -/
theorem calm_finish {n : Nat} {s : State} {a b : DriverState} (hcalm : calmFor (n + 1) s) (ha : s.active = true)
    (hu : microOp s = some (.finish a b)) :
    ∃ t, step s = .next t ∧ t.active = false ∧ t.state = (if s.timedOut then b else a)
      ∧ t.result = (if s.timedOut then .busyTimeout else .ok) ∧ t.pinRst = s.pinRst := by
  obtain ⟨hr, hf⟩ := calm_input hcalm
  have hstep := step_micro hr ha hf hu
  have hrst := (pinsMoveOnlyByTheirMicroOps s _ hr hstep).1 (.inr (.inr (by simp [hu])))
  rcases step_course_cases hr hstep with ⟨ha', _⟩ | ⟨_, hf', _⟩ | ⟨_, _, u, hu', e⟩
  · simp [ha] at ha'
  · simp [hf] at hf'
  · obtain rfl := Option.some.inj (hu.symm.trans hu')
    exact ⟨_, hstep, e.active.trans (finishEdge_active ..), e.state.trans (finishEdge_state ..),
      e.result.trans (finishEdge_result ..), hrst⟩

/-! ### The positions of RESET -/

/-- RST along P(RESET): low between its SETRST(0) and the SETRST(1) after it. -/
theorem rstAt_reset (c : Config) (r : Bool) {n : Nat} (h1 : 1 ≤ n) (h6 : n ≤ 6) :
    rstAt c 1#4 r n = !decide (n = 3 ∨ n = 4) := by
  rw [rstAt, program_one]
  interval_cases n <;> rfl

/-- Where a RESET can stand, and the edges it then has left. -/
theorem reset_position {t : State} {n : Nat} (hn : n = cyclesPerMs t.cfg) (ha : t.active = true) (ho : t.op = 1#4)
    (hp : positionOk t = true) :
    (t.upc = 0 ∧ t.cnt = 0 ∧ remaining t = 30 * n + 4)
    ∨ (t.upc = 1 ∧ t.cnt < 10 * n ∧ remaining t + t.cnt = 30 * n + 3)
    ∨ (t.upc = 2 ∧ t.cnt = 0 ∧ remaining t = 20 * n + 3)
    ∨ (t.upc = 3 ∧ t.cnt < 10 * n ∧ remaining t + t.cnt = 20 * n + 2)
    ∨ (t.upc = 4 ∧ t.cnt = 0 ∧ remaining t = 10 * n + 2)
    ∨ (t.upc = 5 ∧ t.cnt < 10 * n ∧ remaining t + t.cnt = 10 * n + 1)
    ∨ (t.upc = 6 ∧ t.cnt = 0 ∧ remaining t = 1) := by
  obtain ⟨u, hu, hk⟩ := (positionOk_running_iff ha).1 hp
  rw [microOp, ho, program_one] at hu
  have hlt : t.upc < 7 := (List.getElem?_eq_some_iff.1 hu).1
  rw [remaining_eq ha, ho, edgesFrom, program_one]
  generalize t.upc = p at hu hlt ⊢
  subst hn
  -- at each position the edges left are those of the micro-ops from there on
  interval_cases p
  all_goals
    cases hu
    simp only [microDur, Config.resetDwellMs] at hk
    simp [programReset, rstPulse, Config.resetDwellMs, edges_cons, edges_nil, microDur]
    omega

/-- Before END the micro-ops of RESET are those of the pulse. -/
theorem timed_of_reset {t : State} {u : MicroOp} (ho : t.op = 1#4) (hu : microOp t = some u) (h : t.upc < 6) :
    timed u = true := by
  have hpulse : ∀ u ∈ rstPulse, timed u = true := by decide
  rw [microOp, ho, program_one, programReset, List.getElem?_append_left h] at hu
  exact hpulse u (List.mem_of_getElem? hu)

/-- With one edge left a RESET stands at END. -/
theorem microOp_reset_end {t : State} (ha : t.active = true) (ho : t.op = 1#4) (hp : positionOk t = true)
    (h1 : remaining t = 1) : microOp t = some (.finish .resetting .resetting) := by
  have hpos := reset_position rfl ha ho hp
  have hupc : t.upc = 6 := by omega
  rw [microOp, ho, hupc]
  rfl

/-! ### An undisturbed RESET -/

section
variable {s : State} {n : Nat} (hs : SeqInv s) (ha : s.active = true) (ho : s.op = 1#4) (hupc : s.upc = 0)
  (hn : n = cyclesPerMs s.cfg) (hcalm : calmFor (30 * n + 4) s)
include hs ha ho hupc hn

theorem remaining_reset : remaining s = 30 * n + 4 := by
  have ⟨_, _, hp, _⟩ := hs
  have hpos := reset_position hn ha ho hp
  omega

/-- RST `k` edges into a RESET. -/
theorem reset_rst {t : State} {k : Nat} (h : Underway s k t) (hk : 1 ≤ k) :
    t.pinRst = !(decide (2 + 10 * n ≤ k) && decide (k < 3 + 20 * n)) := by
  have ⟨_, _, hp, _⟩ := h.inv
  have hleft := h.left
  rw [remaining_reset hs ha ho hupc hn] at hleft
  have hpos := reset_position (hn.trans (by rw [h.kept.cfg])) h.active (h.kept.op.trans ho) hp
  rw [h.rst, ho, rstAt_reset _ _ (by omega) (by omega)]
  congr 1
  rw [← Bool.decide_and, decide_eq_decide]
  omega

include hcalm

/-- The edges of RESET but END's: before END every micro-op is timed. -/
theorem reset_underway {k : Nat} (hk : k < 30 * n + 4) :
    ∃ t, Sys2Proof.core.run k s = .next t ∧ Underway s k t := by
  have hrem := remaining_reset hs ha ho hupc hn
  induction k with
  | zero => exact ⟨s, rfl, .zero hs ha hupc (hrem ▸ hcalm)⟩
  | succ k ih =>
    obtain ⟨t, hrun, h⟩ := ih (by omega)
    have ⟨_, _, hp, _⟩ := h.inv
    have hleft := h.left
    have hot := h.kept.op.trans ho
    have hpos := reset_position rfl h.active hot hp
    obtain ⟨u, hu, -⟩ := (positionOk_running_iff h.active).1 hp
    obtain ⟨v, hstep, h'⟩ := h.succ hu (timed_of_reset hot hu (by omega))
    exact ⟨v, run_step hrun hstep, h'⟩

/-- The last edge of RESET is END's. -/
theorem reset_ends (hto : s.timedOut = false) :
    ∃ t, Sys2Proof.core.run (30 * n + 4) s = .next t ∧ t.active = false ∧ t.state = .resetting ∧ t.result = .ok
      ∧ t.pinRst = true := by
  obtain ⟨t, hrun, h⟩ := reset_underway hs ha ho hupc hn hcalm (k := 30 * n + 3) (by omega)
  have ⟨_, _, hp, _⟩ := h.inv
  have hleft := h.left
  rw [remaining_reset hs ha ho hupc hn] at hleft
  have h1 : remaining t = 1 := by omega
  obtain ⟨v, hstep, hact, hstate, hresult, hrst⟩ := calm_finish (h1 ▸ h.calm) h.active
    (microOp_reset_end h.active (h.kept.op.trans ho) hp h1)
  rw [h.kept.timedOut, hto] at hstate hresult
  have hafter : ¬ 30 * n + 3 < 3 + 20 * n := by omega
  refine ⟨v, run_step hrun hstep, hact, hstate, hresult, ?_⟩
  rw [hrst, reset_rst hs ha ho hupc hn h (by omega), decide_eq_false hafter]
  simp

end

/-- Settles O58: RST follows `reset_rst` up to END's edge, and END's is `reset_ends`. -/
theorem resetPulsesRstAndEndsOk : Obligations.ResetPulsesRstAndEndsOk := by
  intro s hs ha ho hupc _ hto hcalm
  generalize hn : s.cfg.clkHz / 1000 = n at hcalm ⊢
  obtain ⟨t, hrun, hact, hstate, hresult, hrst⟩ := reset_ends hs ha ho hupc hn.symm hcalm hto
  refine ⟨⟨t, hrun, hact, hstate, hresult⟩, fun k hk1 hk => ?_⟩
  rcases Nat.lt_or_eq_of_le hk with hlt | rfl
  · obtain ⟨u, hrunu, hu⟩ := reset_underway hs ha ho hupc hn.symm hcalm hlt
    exact ⟨u, hrunu, reset_rst hs ha ho hupc hn.symm hu hk1, fun _ => hu.active⟩
  · have hafter : ¬ 30 * n + 4 < 3 + 20 * n := by omega
    exact ⟨t, hrun, by simp [hrst, hafter], fun h => absurd h (Nat.lt_irrefl _)⟩

end Machine
end Sys2Proof
end

section
/-! PROOFS, 43_reset_init.md R153 to R156: P(INIT) and its stream. TABLE is the entries with a settle delay between
them (`expandTable_eq_intercalate`), and a settle delay sends nothing. -/

namespace Sys2Proof
namespace Machine

/-- The entries after the first bring their settle delays with them; so the delays stand between entries. -/
theorem intercalate_expandEntry (e : InitEntry) (l : List InitEntry) :
    List.intercalate [.delay Config.settleMs] ((e :: l).map expandEntry) = expandEntry e ++ expandRest l := by
  induction l generalizing e with
  | nil => simp [expandRest]
  | cons f l ih =>
    rw [List.map_cons, List.map_cons, List.intercalate_cons_cons, ← List.map_cons, ih, expandRest, List.append_assoc]
    rfl

theorem expandTable_eq_intercalate (l : List InitEntry) :
    expandTable l = List.intercalate [.delay Config.settleMs] (l.map expandEntry) := by
  cases l with
  | nil => rfl
  | cons e l => exact (intercalate_expandEntry e l).symm

section
variable (buf : Nat → Byte)

theorem streamOf_rstPulse : streamOf buf rstPulse = [] := rfl

theorem streamOf_expandEntry (e : InitEntry) :
    streamOf buf (expandEntry e) = cFrame e.opcode :: e.data.map dFrame := by
  have hdata : streamOf buf (e.data.map sendData) = e.data.map dFrame := by
    rw [streamOf, List.filterMap_map, ← List.filterMap_eq_map]
    rfl
  rw [← hdata]
  rfl

theorem streamOf_expandRest (l : List InitEntry) :
    streamOf buf (expandRest l) = l.flatMap fun e => cFrame e.opcode :: e.data.map dFrame := by
  induction l with
  | nil => rfl
  | cons e l ih =>
    rw [List.flatMap_cons, ← ih, ← streamOf_expandEntry buf, ← streamOf_append]
    rfl

theorem streamOf_expandTable (l : List InitEntry) :
    streamOf buf (expandTable l) = l.flatMap fun e => cFrame e.opcode :: e.data.map dFrame := by
  cases l with
  | nil => rfl
  | cons e l => rw [expandTable, streamOf_append, streamOf_expandEntry, streamOf_expandRest, List.flatMap_cons]

end

/-- Settles O41: the program by `expandTable_eq_intercalate`, its stream part by part. -/
theorem initSendsItsTableInOrder : Obligations.InitSendsItsTableInOrder := by
  refine fun c buf => ⟨?_, ?_, rfl, rfl⟩
  · rw [program_two, programInit, expandTable_eq_intercalate]
    rfl
  · rw [program_two, programInit, streamOf_append, streamOf_append, streamOf_append, streamOf_rstPulse,
      streamOf_expandTable]
    exact List.append_nil _

end Machine
end Sys2Proof
end

section
/-! PROOFS, 44_frame.md R176: a WRITE_FRAME of another length than L. -/

namespace Sys2Proof
namespace Machine

theorem hostCommand_of_wrong_length {s : State} (ha : s.active = false) (hd : allowed 4#4 s.state = true)
    (hlen : s.frameLen.toNat ≠ planeBytes s.cfg) :
    hostCommand 4#4 s = raise .frameSizeMismatch (recordCommand 4#4 s) := by
  simp only [hostCommand, ha, hd, hlen, Bool.false_eq_true, Bool.true_eq_false, if_false, ne_eq, not_false_eq_true,
    and_self, if_true]

/-- Settles O8: in Idle a WRITE_FRAME is allowed, so only its length is left to refuse it. -/
theorem wrongFrameLengthRefused : Obligations.WrongFrameLengthRefused := by
  intro s ha hidle hlen
  have hd : allowed 4#4 s.state = true := by rw [hidle]; rfl
  rw [exec_hostCmd (w := 4#32) rfl]
  exact congrArg Host.Outcome.next (hostCommand_of_wrong_length ha hd hlen)

end Machine
end Sys2Proof
end

section
/-! PROOFS, 44_frame.md R170 to R177, 43_reset_init.md R155 and 45_busy_wait.md R189, R190: what a receiver collects
from an undisturbed operation. `Watched` says of every state of the operation what the receiver holds there: the frames
of the micro-ops passed, and inside a BYTE its bits so far. Each edge but END's keeps it, and END's reads the claim
off it. -/

namespace Sys2Proof
namespace Machine

/-! ### The host's duty, from edge to edge -/

/-- A calm schedule holds the inputs of the current cycle. -/
theorem calm_head {n : Nat} {s : State} (h : calmFor (n + 1) s) : s.inputs[0]? = some s.input := by
  obtain ⟨i, hi, -⟩ := h 0 (Nat.succ_pos n)
  unfold State.input
  cases hs : s.inputs with
  | nil => simp [hs] at hi
  | cons a l => rfl

/-- An address becomes contended only by a host write of the cycle (20_memory.md R66). -/
theorem mem_noteContended {run : Bool} {ws : List (Word × Byte)} {l : List Nat} {a : Nat}
    (h : a ∈ noteContended run ws l) : a ∈ l ∨ ∃ w ∈ ws, w.1.toNat = a := by
  cases run with
  | false => exact .inl h
  | true =>
    simp only [noteContended, if_true] at h
    induction ws generalizing l with
    | nil => exact .inl h
    | cons w ws ih =>
      rw [List.foldl_cons] at h
      rcases ih h with hl | ⟨v, hv, e⟩
      · split at hl
        · exact .inl hl
        · rcases List.mem_cons.1 hl with e | hl
          · exact .inr ⟨w, List.mem_cons_self, e.symm⟩
          · exact .inl hl
      · exact .inr ⟨v, List.mem_cons_of_mem _ hv, e⟩

/-- What a running operation's edge does to the schedule and to the record of overlapping host writes. -/
theorem step_surroundings {s t : State} (hr : s.input.rstN = true) (ha : s.active = true) (h : step s = .next t) :
    t.inputs = s.inputs.tail ∧ ∃ run, t.contended = noteContended run s.input.memWrites s.contended := by
  obtain ⟨_, _, _, _, e⟩ := busNext_active s.input ha
  rcases step_cases h with ⟨hr', _⟩ | ⟨_, ha', _⟩ | ⟨_, _, _, rfl⟩ | ⟨_, _, _, _, _, rfl⟩
  · simp [hr] at hr'
  · simp [ha] at ha'
  · exact ⟨by simp [e], _, by simp [e]; rfl⟩
  · exact ⟨by simp [e], _, by simp [e]; rfl⟩

/-- An edge without a host write to the buffer leaves the buffer as it was, and the duty for the cycles after it. -/
theorem bufferKept_step {buf : Nat → Byte} {n : Nat} {s t : State} (hcalm : calmFor (n + 1) s)
    (ha : s.active = true) (hstep : step s = .next t) (h : bufferKept buf (n + 1) s) : bufferKept buf n t := by
  obtain ⟨hr, -⟩ := calm_input hcalm
  obtain ⟨hop, -, hbase⟩ := (operandsAreLatchedAtAcceptance s t hr hstep).2 (.inl ha)
  obtain ⟨hinputs, run, hcont⟩ := step_surroundings hr ha hstep
  intro ho k hk
  rw [step_cfg hstep] at hk
  have haddr : frameAddr t k = frameAddr s k := by rw [frameAddr, hbase, step_cfg hstep]; rfl
  obtain ⟨hfree, hread, hquiet⟩ := h (hop ▸ ho) k hk
  have hnow : ∀ w ∈ s.input.memWrites, w.1.toNat ≠ (frameAddr s k).toNat := fun w hw e =>
    hquiet 0 _ (Nat.succ_pos n) (calm_head hcalm) w hw (BitVec.eq_of_toNat_eq e)
  rw [haddr, hcont, step_mem hstep, Memory.read_writeAll_other _ _ hnow]
  refine ⟨fun hmem => ?_, hread, fun j i hj hi => hquiet (j + 1) i (Nat.succ_lt_succ hj) ?_⟩
  · rcases mem_noteContended hmem with hl | ⟨w, hw, e⟩
    · exact hfree hl
    · exact hnow w hw e
  · rwa [hinputs, List.getElem?_tail] at hi

theorem bufferKept_mono {buf : Nat → Byte} {n m : Nat} {s : State} (h : bufferKept buf n s) (hm : m ≤ n) :
    bufferKept buf m s := fun ho k hk =>
  have ⟨hfree, hread, hquiet⟩ := h ho k hk
  ⟨hfree, hread, fun j i hj => hquiet j i (Nat.lt_of_lt_of_le hj hm)⟩

/-- The byte a source gives, `buf` being the buffer (40_adapter.md R104). -/
def givenByte (buf : Nat → Byte) : ByteSrc → Byte
  | .const b => b
  | .frame i => buf i

theorem frameOfMicroOp_byte (buf : Nat → Byte) (dc : Bool) (src : ByteSrc) :
    frameOfMicroOp buf (.byte dc src) = some (mkFrame dc (givenByte buf src)) := by
  cases src <;> rfl

theorem frameOfMicroOp_of_ne_byte (buf : Nat → Byte) {u : MicroOp} (hu : ∀ dc src, u ≠ .byte dc src) :
    frameOfMicroOp buf u = none := by
  cases u with
  | byte dc src => exact absurd rfl (hu dc src)
  | _ => rfl

/-- At the fetch edge a BYTE gets the byte of its program: a frame byte stands in the buffer (20_memory.md R66). -/
theorem sourceByte_of_kept {buf : Nat → Byte} {n : Nat} {s : State} {dc : Bool} {src : ByteSrc}
    (hcalm : calmFor (n + 1) s) (h : bufferKept buf (n + 1) s) (hu : microOp s = some (.byte dc src))
    (h0 : s.cnt = 0) : sourceByte s.input s src = givenByte buf src := by
  cases src with
  | const b => rfl
  | frame k =>
    obtain ⟨ho, hk⟩ := frame_index (List.mem_of_getElem? hu)
    obtain ⟨hfree, hread, hquiet⟩ := h ho k hk
    rw [sourceByte, if_pos h0]
    exact fbData_of_kept hfree (fun w hw e =>
      hquiet 0 _ (Nat.succ_pos n) (calm_head hcalm) w hw (BitVec.eq_of_toNat_eq e)) hread

/-! ### The micro-ops passed -/

/-- The micro-ops that an operation has run: those before its position, or before its WAIT where that timed out and
left the rest out (45_busy_wait.md R188). -/
def passed (s : State) : List MicroOp :=
  if s.timedOut then (program s.cfg s.op).takeWhile (fun u => u != .wait)
  else (program s.cfg s.op).take s.upc

theorem passed_running {s : State} (h : s.timedOut = false) : passed s = (program s.cfg s.op).take s.upc := by
  simp [passed, h]

theorem passed_timedOut {s : State} (h : s.timedOut = true) :
    passed s = (program s.cfg s.op).takeWhile (fun u => u != .wait) := by
  simp [passed, h]

theorem SameCourse.passed {s t : State} (h : SameCourse s t) : passed t = passed s := by
  simp only [Machine.passed, h.timedOut, h.cfg, h.op, h.upc]

theorem SameCourse.microOp {s t : State} (h : SameCourse s t) : microOp t = microOp s := by
  simp only [Machine.microOp, h.cfg, h.op, h.upc]

/-- The program up to a WAIT is what stands before its first WAIT: it has no other. -/
theorem take_eq_takeWhile_of_wait {c : Config} {op : BitVec 4} {n : Nat} (h : (program c op)[n]? = some .wait) :
    (program c op).take n = (program c op).takeWhile (fun u => u != .wait) := by
  obtain ⟨hn, hw⟩ := List.getElem?_eq_some_iff.1 h
  have hfirst : (program c op).findIdx (fun u => !(u != .wait)) = n := by
    rw [List.findIdx_eq hn]
    refine ⟨by simp [hw], fun j hj => ?_⟩
    simp only [bne, Bool.not_not, beq_eq_false_iff_ne]
    intro e
    have := wait_unique (List.getElem?_eq_some_iff.2 ⟨_, e⟩) h
    omega
  rw [List.takeWhile_eq_take_findIdx_not, hfirst]

theorem streamOf_take_succ {p : List MicroOp} {n : Nat} {u : MicroOp} (buf : Nat → Byte) (h : p[n]? = some u) :
    streamOf buf (p.take (n + 1)) = streamOf buf (p.take n) ++ (frameOfMicroOp buf u).toList := by
  rw [List.take_add_one, h, streamOf_append]
  rfl

/-- Where an edge of any micro-op but END leaves the sequencer: there, one on, or at END after a timeout. -/
theorem microNext_course (i : Inputs) (s : State) {u : MicroOp} (hu : ∀ a b, u ≠ .finish a b) :
    ((microNext i s u).timedOut = s.timedOut ∧ ((microNext i s u).upc = s.upc ∨ (microNext i s u).upc = s.upc + 1))
    ∨ (u = .wait ∧ (microNext i s u).timedOut = true ∧ (microNext i s u).upc = endIndex s.cfg s.op) := by
  by_cases ht : timed u = true
  · obtain ⟨-, hto, -, -, hlast, hmore⟩ := microNext_timed (i := i) (s := s) ht
    by_cases hl : s.cnt + 1 = microDur s.cfg s.opTimeout u
    · exact .inl ⟨hto, .inr (hlast hl).1⟩
    · exact .inl ⟨hto, .inl (hmore hl).1⟩
  cases u with
  | wait =>
    rw [microNext]
    rcases wait_cases s with ⟨_, e⟩ | ⟨_, _, e⟩ | ⟨_, _, _, _, _, e⟩ | ⟨_, _, _, _, _, _, e⟩ | ⟨_, _, _, _, _, _, e⟩ <;>
      rw [e]
    · exact .inl ⟨rfl, .inl rfl⟩
    · exact .inl ⟨rfl, .inl rfl⟩
    · exact .inl ⟨rfl, .inr rfl⟩
    · exact .inr ⟨rfl, rfl, rfl⟩
    · exact .inl ⟨rfl, .inl rfl⟩
  | finish a b => exact absurd rfl (hu a b)
  | _ => exact absurd rfl ht

theorem microNext_active (i : Inputs) (s : State) {u : MicroOp} (hu : ∀ a b, u ≠ .finish a b) :
    (microNext i s u).active = s.active := by
  cases u with
  | finish a b => exact absurd rfl (hu a b)
  | _ => simp [microNext]

/-- A micro-op that is no BYTE adds no frame to those of the micro-ops passed. -/
theorem streamOf_passed_microNext (buf : Nat → Byte) (i : Inputs) {s : State} {u : MicroOp}
    (hu : microOp s = some u) (hbyte : ∀ dc src, u ≠ .byte dc src) (hend : ∀ a b, u ≠ .finish a b)
    (hto : s.timedOut = false) : streamOf buf (passed (microNext i s u)) = streamOf buf (passed s) := by
  rw [passed_running hto]
  rcases microNext_course i s hend with ⟨hto', hupc⟩ | ⟨rfl, hto', -⟩
  · rw [passed_running (hto'.trans hto), microNext_cfg, microNext_op]
    rcases hupc with e | e <;> rw [e]
    rw [streamOf_take_succ buf hu, frameOfMicroOp_of_ne_byte buf hbyte, Option.toList_none, List.append_nil]
  · rw [passed_timedOut hto', microNext_cfg, microNext_op, take_eq_takeWhile_of_wait hu]

/-! ### What the receiver holds -/

/-- What a receiver that was `r` when the operation began holds in the state `s` of it: the frames of the micro-ops
passed, and inside a BYTE what `collected` adds to them, st.sh holding its byte once fetched. -/
def Received (buf : Nat → Byte) (r : Receiver) (s : State) (q : Receiver) : Prop :=
  ∃ p : Receiver, p.frames = (streamOf buf (passed s)).reverse ++ r.frames
    ∧ match currentByte s with
      | some (dc, src) => q = collected dc (givenByte buf src) p (slotsBegun (halfPeriod s.cfg) s.cnt)
          ∧ (s.cnt ≠ 0 → s.sh = givenByte buf src)
      | none => q = p

theorem received_iff_byte {buf : Nat → Byte} {r q : Receiver} {s : State} {dc : Bool} {src : ByteSrc}
    (hb : currentByte s = some (dc, src)) :
    Received buf r s q ↔ ∃ p : Receiver, p.frames = (streamOf buf (passed s)).reverse ++ r.frames
      ∧ q = collected dc (givenByte buf src) p (slotsBegun (halfPeriod s.cfg) s.cnt)
      ∧ (s.cnt ≠ 0 → s.sh = givenByte buf src) := by
  simp only [Received, hb]

/-- Outside a BYTE, and before its fetch edge, there are the frames alone. -/
theorem received_iff_rest {buf : Nat → Byte} {r q : Receiver} {s : State} (h : currentByte s = none ∨ s.cnt = 0) :
    Received buf r s q ↔ q.frames = (streamOf buf (passed s)).reverse ++ r.frames := by
  cases hb : currentByte s with
  | none => simp [Received, hb]
  | some d =>
    have h0 : s.cnt = 0 := h.resolve_left (by simp [hb])
    simp [Received, hb, h0, slotsBegun, collected]

/-- An edge of a micro-op that is neither BYTE nor END shows the receiver nothing. -/
theorem received_rest {buf : Nat → Byte} {r q : Receiver} {s t : State} {u : MicroOp} (i : Inputs)
    (hu : microOp s = some u) (hbyte : ∀ dc src, u ≠ .byte dc src) (hend : ∀ a b, u ≠ .finish a b)
    (hto : s.timedOut = false) (hcourse : SameCourse (microNext i s u) t) (hpins : pins t = pins (microNext i s u))
    (h : Received buf r s q) : Received buf r t (receive (pins s) (pins t) q) := by
  have hnone : ∀ x, microOp x = some u → currentByte x = none := fun x hx => by
    rw [Option.eq_none_iff_forall_ne_some]
    rintro ⟨dc, src⟩ hb
    exact hbyte dc src (Option.some.inj (hx.symm.trans (currentByte_eq_some_iff.1 hb).2))
  have hrest : currentByte t = none ∨ t.cnt = 0 := by
    rw [hcourse.cnt]
    exact (microNext_stays_or_begins i s u).imp_left fun e =>
      hnone t (hcourse.microOp.trans ((microOp_microNext i e).trans hu))
  obtain ⟨hcs, hsclk⟩ := microNext_rest i s hbyte
  rw [hpins, receive_same _ _ _ hcs.symm hsclk.symm, received_iff_rest hrest, hcourse.passed,
    streamOf_passed_microNext buf i hu hbyte hend hto]
  exact (received_iff_rest (.inl (hnone s hu))).1 h

/-- An edge of a BYTE brings the receiver its next bit, and the last edge the whole frame. -/
theorem received_byte {buf : Nat → Byte} {r q : Receiver} {n : Nat} {s t : State} {dc : Bool} {src : ByteSrc}
    (hc : s.cfg.wf = true) (hwave : pinsOk s = true) (ha : s.active = true)
    (hu : microOp s = some (.byte dc src)) (hto : s.timedOut = false) (hcalm : calmFor (n + 1) s)
    (hkept : bufferKept buf (n + 1) s) (hstep : step s = .next t) (h : Received buf r s q) :
    Received buf r t (receive (pins s) (pins t) q) := by
  have hb := currentByte_eq_some_iff.2 ⟨ha, hu⟩
  obtain ⟨p, hp, rfl, hsh⟩ := (received_iff_byte hb).1 h
  have hheld : heldByte s src = givenByte buf src := by
    unfold heldByte
    split
    next h0 => exact sourceByte_of_kept hcalm hkept hu h0
    next h0 => exact hsh h0
  have hs : Sending dc src (givenByte buf src) s := ⟨hc, ha, hu, ((pinsOk_iff_wave hb).1 hwave).1, hheld⟩
  obtain ⟨t', hstep', -, hsame, hsh', hwave', hlast, hmore⟩ := calm_byte hcalm hs
  obtain rfl := Host.Outcome.next.inj (hstep'.symm.trans hstep)
  have hpos := halfPeriod_pos hc
  have hrec := receive_wave hpos hs.wave hwave' p
  rw [hsh'] at hrec
  rw [hrec]
  have hto' := hsame.timedOut.trans hto
  rw [passed_running hto] at hp
  by_cases hd : s.cnt + 1 = byteDur s.cfg
  · obtain ⟨hupc, hcnt⟩ := hlast hd
    rw [received_iff_rest (.inr hcnt), passed_running hto', hsame.cfg, hsame.op, hupc, streamOf_take_succ buf hu,
      frameOfMicroOp_byte, hd, byteDur, begun_end hpos, collected_after _ _ _ (by decide), hp]
    simp
  · obtain ⟨hupc, hcnt⟩ := hmore hd
    have hb' : currentByte t' = some (dc, src) :=
      currentByte_eq_some_iff.2 ⟨hsame.active.trans ha, by rw [microOp, hsame.cfg, hsame.op, hupc]; exact hu⟩
    rw [received_iff_byte hb', passed_running hto', hsame.cfg, hsame.op, hupc, hcnt]
    exact ⟨p, hp, rfl, fun _ => hsh'⟩

/-! ### An operation watched, edge by edge -/

/-- `s` is a state of an undisturbed operation, and a receiver that was `r` at its acceptance holds `q`. -/
structure Watched (buf : Nat → Byte) (r : Receiver) (s : State) (q : Receiver) : Prop where
  inv : SeqInv s
  wave : pinsOk s = true
  active : s.active = true
  calm : calmFor (remaining s) s
  kept : bufferKept buf (remaining s) s
  timeout : s.timedOut = true → s.op ≠ 1#4 ∧ ∃ a b, microOp s = some (.finish a b)
  received : Received buf r s q

theorem exists_finish_at_end (c : Config) {op : BitVec 4} (h : legalOp op) :
    ∃ a b, (program c op)[endIndex c op]? = some (.finish a b) := by
  rw [endIndex_finish c h]
  split_ifs <;> exact ⟨_, _, rfl⟩

/-- RESET has no WAIT. -/
theorem op_ne_one_of_wait {c : Config} {op : BitVec 4} {n : Nat} (h : (program c op)[n]? = some .wait) :
    op ≠ 1#4 := by
  have hnone : .wait ∉ programReset := by decide
  rintro rfl
  exact hnone (List.mem_of_getElem? h)

/-- The edges left of an operation are at least the current one. -/
theorem Watched.remaining_eq_succ {buf : Nat → Byte} {r q : Receiver} {s : State} (h : Watched buf r s q) :
    ∃ n, remaining s = n + 1 :=
  Nat.exists_eq_succ_of_ne_zero (remaining_pos h.inv h.active).ne'

/-- An undisturbed edge is the current micro-op's, for the sequencer and for the pins. -/
theorem calm_micro {n : Nat} {s : State} {u : MicroOp} (hcalm : calmFor (n + 1) s) (ha : s.active = true)
    (hu : microOp s = some u) :
    ∃ t, step s = .next t ∧ SameCourse (microNext s.input s u) t ∧ pins t = pins (microNext s.input s u) := by
  obtain ⟨hr, hf⟩ := calm_input hcalm
  obtain ⟨d, x, b, l, e⟩ := busNext_active s.input ha
  have hstep := step_micro hr ha hf hu
  rw [e, ← withHostFields, microNext_withHostFields] at hstep
  exact ⟨_, hstep, .trans (.withHostFields ..) (.outside ..), rfl⟩

/-- Every edge but END's keeps the receiver up with the operation. -/
theorem Watched.succ {buf : Nat → Byte} {r q : Receiver} {s : State} {u : MicroOp} (h : Watched buf r s q)
    (hu : microOp s = some u) (hend : ∀ a b, u ≠ .finish a b) :
    ∃ t, step s = .next t ∧ t.op = s.op ∧ remaining t < remaining s
      ∧ Watched buf r t (receive (pins s) (pins t) q) := by
  have ⟨hinv, hwave, ha, hcalm, hkept, htimeout, hrec⟩ := h
  obtain ⟨n, hn⟩ := h.remaining_eq_succ
  rw [hn] at hcalm hkept
  obtain ⟨hr, hf⟩ := calm_input hcalm
  have hto : s.timedOut = false := Bool.eq_false_iff.2 fun hto => by
    obtain ⟨-, a, b, hfin⟩ := htimeout hto
    exact hend a b (Option.some.inj (hu.symm.trans hfin))
  obtain ⟨t, hstep, hcourse, hpins⟩ := calm_micro hcalm ha hu
  have hop : t.op = s.op := hcourse.op.trans (microNext_op ..)
  have hless := (everyEdgeCountsDown s t hinv ha hr hf hstep).1
  have hn' : remaining t ≤ n := by omega
  obtain ⟨hinputs, -⟩ := step_surroundings hr ha hstep
  refine ⟨t, hstep, hop, hless, everyStepStaysInItsProgram s t hinv hstep,
    everyStepKeepsThePinWaveform s t hinv hwave hstep, ?_, calm_mono (calm_tail hcalm hinputs) hn',
    bufferKept_mono (bufferKept_step hcalm ha hstep hkept) hn', fun hto' => ?_, ?_⟩
  · rw [hcourse.active, microNext_active _ _ hend, ha]
  · -- only a WAIT sets st.timed_out, and it goes to END
    rw [hcourse.timedOut] at hto'
    rcases microNext_course s.input s hend with ⟨e, -⟩ | ⟨rfl, -, hupc⟩
    · simp [e, hto] at hto'
    · rw [hop, hcourse.microOp, microOp, microNext_cfg, microNext_op, hupc]
      exact ⟨op_ne_one_of_wait hu, exists_finish_at_end _ (legalOp_of_getElem? hu)⟩
  · by_cases hbyte : ∃ dc src, u = .byte dc src
    · obtain ⟨dc, src, rfl⟩ := hbyte
      obtain ⟨hc, -⟩ := hinv
      exact received_byte hc hwave ha hu hto hcalm hkept hstep hrec
    · exact received_rest s.input hu (fun dc src e => hbyte ⟨dc, src, e⟩) hend hto hcourse hpins hrec

/-- How the operation `op` can end in `t`, a receiver that was `r` at its acceptance holding `q`: OK with the whole
stream, or BUSY_TIMEOUT with the frames before the WAIT. -/
def EndsWithItsStream (buf : Nat → Byte) (r : Receiver) (c : Config) (op : BitVec 4) (t : State) (q : Receiver) :
    Prop :=
  (t.result = .ok ∧ t.state = (if op = 1#4 then .resetting else .idle)
      ∧ q.frames = (streamOf buf (program c op)).reverse ++ r.frames)
  ∨ (t.result = .busyTimeout ∧ t.state = (if op = 2#4 then .failed else .busy) ∧ op ≠ 1#4
      ∧ q.frames = (streamOf buf ((program c op).takeWhile (fun u => u != .wait))).reverse ++ r.frames)

/-- At END every frame of the program has been passed: END is last and sends none. -/
theorem streamOf_take_end (buf : Nat → Byte) {c : Config} {op : BitVec 4} {n : Nat} {a b : DriverState}
    (h : (program c op)[n]? = some (.finish a b)) :
    streamOf buf ((program c op).take n) = streamOf buf (program c op) := by
  have hall : (program c op).take (n + 1) = program c op :=
    List.take_of_length_le (by have := finish_at h; unfold endIndex at this; omega)
  have hsucc := streamOf_take_succ buf h
  rw [hall, frameOfMicroOp_of_ne_byte buf (by simp), Option.toList_none, List.append_nil] at hsucc
  exact hsucc.symm

/-- END's edge shows the receiver nothing, and its states are those of 42_sequencer.md R134. -/
theorem Watched.finish {buf : Nat → Byte} {r q : Receiver} {s : State} {a b : DriverState} (h : Watched buf r s q)
    (hu : microOp s = some (.finish a b)) :
    ∃ t, step s = .next t ∧ t.active = false
      ∧ EndsWithItsStream buf r s.cfg s.op t (receive (pins s) (pins t) q) := by
  have ⟨_, _, ha, hcalm, _, htimeout, hrec⟩ := h
  obtain ⟨n, hn⟩ := h.remaining_eq_succ
  rw [hn] at hcalm
  obtain ⟨t, hstep, hcourse, hpins⟩ := calm_micro hcalm ha hu
  have hbyte : currentByte s = none := by simp [currentByte, hu]
  have hseen : receive (pins s) (pins t) q = q := by
    obtain ⟨hcs, hsclk⟩ := microNext_rest s.input s (u := .finish a b) (by simp)
    rw [hpins, receive_same _ _ _ hcs.symm hsclk.symm]
  have hframes := (received_iff_rest (.inl hbyte)).1 hrec
  have hstate : t.state = if s.timedOut then b else a := hcourse.state.trans (finishEdge_state ..)
  have hresult : t.result = if s.timedOut then .busyTimeout else .ok := hcourse.result.trans (finishEdge_result ..)
  obtain ⟨-, hop⟩ := finish_states hu
  refine ⟨t, hstep, hcourse.active.trans (finishEdge_active ..), ?_⟩
  rw [hseen]
  cases hto : s.timedOut with
  | false =>
    rw [hto] at hstate hresult
    rw [passed_running hto, streamOf_take_end buf hu] at hframes
    refine .inl ⟨hresult, hstate.trans ?_, hframes⟩
    rcases hop with ⟨ho, rfl, -⟩ | ⟨ho, rfl, -⟩ | ⟨ho | ho | ho, rfl, -⟩ <;> rw [ho] <;> rfl
  | true =>
    rw [hto] at hstate hresult
    rw [passed_timedOut hto] at hframes
    obtain ⟨hne, -⟩ := htimeout hto
    refine .inr ⟨hresult, hstate.trans ?_, hne, hframes⟩
    rcases hop with ⟨ho, -⟩ | ⟨ho, -, rfl⟩ | ⟨ho | ho | ho, -, rfl⟩
    · exact absurd ho hne
    all_goals rw [ho]; rfl

/-- The edges of a watched operation, one after the other, through END's. -/
theorem Watched.ends {buf : Nat → Byte} {r q : Receiver} {s : State} (h : Watched buf r s q) :
    ∃ k t p, k ≤ remaining s ∧ observe k s q = some (t, p) ∧ t.active = false
      ∧ EndsWithItsStream buf r s.cfg s.op t p := by
  induction hn : remaining s using Nat.strong_induction_on generalizing s q with
  | _ n ih =>
    have ⟨_, _, hp, _⟩ := h.inv
    obtain ⟨u, hu, -⟩ := (positionOk_running_iff h.active).1 hp
    by_cases hend : ∃ a b, u = .finish a b
    · obtain ⟨a, b, rfl⟩ := hend
      obtain ⟨t, hstep, hact, hresult⟩ := h.finish hu
      have hpos := remaining_pos h.inv h.active
      exact ⟨1, t, _, by omega, by rw [observe, hstep]; rfl, hact, hresult⟩
    · obtain ⟨t, hstep, hop, hless, ht⟩ := h.succ hu fun a b e => hend ⟨a, b, e⟩
      obtain ⟨k, v, p, hk, hobs, hact, hresult⟩ := ih _ (hn ▸ hless) ht rfl
      rw [step_cfg hstep, hop] at hresult
      exact ⟨k + 1, v, p, by omega, by rw [observe, hstep]; exact hobs, hact, hresult⟩

/-- Settles O57: at the acceptance nothing is passed and the receiver holds what it held, so `Watched.ends` runs. -/
theorem operationsSendTheirStream : Obligations.OperationsSendTheirStream := by
  intro s r buf hinv hwave ha hupc hcnt hto hcalm hkept
  have hrec : Received buf r s r := (received_iff_rest (.inr hcnt)).2 (by rw [passed_running hto, hupc]; rfl)
  exact Watched.ends ⟨hinv, hwave, ha, hcalm, hkept, fun h => by simp [hto] at h, hrec⟩

end Machine
end Sys2Proof
end

section
/-! PROOFS, 45_busy_wait.md R186 to R190 and 60_exceptions.md R202: the WAIT. Its edges are the start edge, the sample
edges POLL_MS·C·m and the edges between; M is the first sample at which the timeout test holds, so a WAIT that times out
does so at M, with POLL_MS·M elapsed. -/

namespace Sys2Proof
namespace Machine

/-! ### The edges of a WAIT -/

theorem panelIdle_iff {s : State} : panelIdle s = true ↔ s.busySync ≠ s.cfg.busyActiveLevel := by
  simp [panelIdle]

theorem panelIdle_eq_false_iff {s : State} : panelIdle s = false ↔ s.busySync = s.cfg.busyActiveLevel := by
  simp [panelIdle]

section
variable {s : State} {m : Nat}

theorem waitEdge_start (h : s.cnt = 0) : waitEdge s = { s with elapsed := 0#33, cnt := 1 } := if_pos h

theorem waitEdge_between (h0 : s.cnt ≠ 0) (h : s.cnt % pollEdges s.cfg ≠ 0) :
    waitEdge s = { s with cnt := s.cnt + 1 } := by
  rw [waitEdge, if_neg h0, if_neg h]

theorem waitEdge_sample (hc : s.cfg.wf = true) (hm : 1 ≤ m) (h : s.cnt = pollEdges s.cfg * m) :
    waitEdge s = waitSample m s := by
  have hp := pollEdges_pos hc
  have h0 : s.cnt ≠ 0 := h ▸ (Nat.mul_pos hp hm).ne'
  have hmod : s.cnt % pollEdges s.cfg = 0 := h ▸ Nat.mul_mod_right ..
  have hdiv : s.cnt / pollEdges s.cfg = m := h ▸ Nat.mul_div_cancel_left m hp
  rw [waitEdge, if_neg h0, if_pos hmod, hdiv]

theorem waitSample_idle (m : Nat) (h : panelIdle s = true) :
    waitSample m s
      = { s with elapsed := BitVec.ofNat 33 (s.cfg.pollMs * m), upc := s.upc + 1, cnt := 0 } := if_pos h

theorem waitSample_timeout (h : panelIdle s = false) (ht : s.opTimeout.toNat ≤ s.cfg.pollMs * m) :
    waitSample m s
      = { s with
          elapsed := BitVec.ofNat 33 (s.cfg.pollMs * m), timedOut := true, upc := endIndex s.cfg s.op
          cnt := 0 } := by
  rw [waitSample, if_neg (Bool.eq_false_iff.1 h), if_pos ht]
  rfl

theorem waitSample_busy (h : panelIdle s = false) (ht : s.cfg.pollMs * m < s.opTimeout.toNat) :
    waitSample m s = { s with elapsed := BitVec.ofNat 33 (s.cfg.pollMs * m), cnt := s.cnt + 1 } := by
  rw [waitSample, if_neg (Bool.eq_false_iff.1 h), if_neg (Nat.not_le.2 ht)]

end

/-- Settles O21: an equation per kind of edge, and at a sample edge per answer of the panel and the timeout. -/
theorem waitSamplesAndEnds : Obligations.WaitSamplesAndEnds := by
  intro i s hf hu
  rw [enginePhase_micro hf hu, microNext]
  refine ⟨fun h0 => ?_, fun m hm hc hcnt => ?_, fun hpos hmid => ?_⟩
  · rw [waitEdge_start h0]
  · rw [waitEdge_sample hc hm hcnt]
    refine ⟨fun hidle => ?_, fun hbusy ht => ?_, fun hbusy ht => ?_⟩
    · rw [waitSample_idle m (panelIdle_iff.2 hidle)]
    · rw [waitSample_timeout (panelIdle_eq_false_iff.2 hbusy) ht]
      rfl
    · rw [waitSample_busy (panelIdle_eq_false_iff.2 hbusy) ht]
  · rw [waitEdge_between hpos.ne' hmid]

/-! ### The elapsed time of a sample -/

/-- Up to sample M no elapsed time is cut by the 33 bits of st.elapsed (10_state.md R36). -/
theorem sample_elapsed {c : Config} (hc : c.wf = true) {t : Word} {m : Nat} (hm : m ≤ lastSample c t) :
    (BitVec.ofNat 33 (c.pollMs * m)).toNat = c.pollMs * m := by
  rw [BitVec.toNat_ofNat]
  exact Nat.mod_eq_of_lt (Nat.lt_of_le_of_lt (Nat.mul_le_mul_left _ hm) (lastSample_fits hc t))

/-- The elapsed time of the largest T bounds that of every sample. -/
theorem sample_elapsed_le {c : Config} {t : Word} {m : Nat} (hm : m ≤ lastSample c t) :
    c.pollMs * m ≤ c.pollMs * lastSample c 0xFFFFFFFF#32 :=
  Nat.mul_le_mul_left _ (hm.trans (lastSample_mono c t))

/-- Inside a WAIT no sample comes after M: its last edge is POLL_MS·C·M. -/
theorem sample_le_lastSample {c : Config} {t : Word} {k m : Nat} (hc : c.wf = true) (hk : k < microDur c t .wait)
    (h : k = pollEdges c * m) : m ≤ lastSample c t := by
  rw [microDur, h, Nat.lt_one_add_iff] at hk
  exact Nat.le_of_mul_le_mul_left hk (pollEdges_pos hc)

/-- Between sample edges the number of samples taken stays. -/
theorem samples_between {k n : Nat} (h0 : k ≠ 0) (h : k % n ≠ 0) : k / n = (k - 1) / n := by
  obtain ⟨j, rfl⟩ := Nat.exists_eq_succ_of_ne_zero h0
  rw [Nat.succ_eq_add_one, Nat.succ_div_of_not_dvd fun hd => h (Nat.mod_eq_zero_of_dvd hd), Nat.add_sub_cancel]

/-! ### What an edge does to st.elapsed -/

/-- The register bus does not reach st.elapsed. -/
theorem busNext_elapsed (i : Inputs) (s : State) : (busNext i s).elapsed = s.elapsed := by
  cases ha : s.active with
  | true =>
    obtain ⟨_, _, _, _, e⟩ := busNext_active i ha
    rw [e]
  | false => rcases busNext_inactive i ha with ⟨_, _, _, e⟩ | ⟨_, _, e⟩ | ⟨_, _, e⟩ <;> rw [e] <;> rfl

/-- Outside block reset only the current micro-op's edge writes st.elapsed. -/
theorem step_elapsed_of_rest {s t : State} (hr : s.input.rstN = true)
    (hrest : s.active = false ∨ s.input.hwFault = true) (h : step s = .next t) : t.elapsed = s.elapsed := by
  rw [← busNext_elapsed s.input s]
  rcases step_cases h with ⟨hr', _⟩ | ⟨_, _, rfl⟩ | ⟨_, _, _, rfl⟩ | ⟨_, ha, hf, _⟩
  · simp [hr] at hr'
  · rfl
  · rfl
  · simp [ha, hf] at hrest

theorem step_elapsed_of_micro {s t : State} {u : MicroOp} (hr : s.input.rstN = true) (ha : s.active = true)
    (hf : s.input.hwFault = false) (hu : microOp s = some u) (h : step s = .next t) :
    t.elapsed = (microNext s.input s u).elapsed := by
  obtain ⟨d, x, b, l, e⟩ := busNext_active s.input ha
  obtain rfl := Host.Outcome.next.inj ((step_micro hr ha hf hu).symm.trans h)
  rw [e, ← withHostFields, microNext_withHostFields]
  rfl

/-! ### The invariant of st.elapsed, by what the sequencer does -/

/-- The bound on st.elapsed that holds in every state. -/
def elapsedBounded (s : State) : Prop := s.elapsed.toNat ≤ s.cfg.pollMs * lastSample s.cfg 0xFFFFFFFF#32

theorem waitOk_idle_iff {s : State} (ha : s.active = false) :
    waitOk s = true ↔ elapsedBounded s
      ∧ (s.result = .busyTimeout → s.elapsed.toNat = s.cfg.pollMs * lastSample s.cfg s.opTimeout) := by
  simp [waitOk, elapsedBounded, ha, imp_iff_not_or]

theorem waitOk_timedOut_iff {s : State} (ha : s.active = true) (hto : s.timedOut = true) :
    waitOk s = true ↔ elapsedBounded s ∧ s.upc = endIndex s.cfg s.op
      ∧ s.elapsed.toNat = s.cfg.pollMs * lastSample s.cfg s.opTimeout := by
  simp [waitOk, elapsedBounded, ha, hto]

theorem waitOk_running_iff {s : State} (ha : s.active = true) (hto : s.timedOut = false) :
    waitOk s = true ↔ elapsedBounded s ∧ (microOp s = some .wait → s.cnt ≠ 0 →
      s.elapsed.toNat = s.cfg.pollMs * ((s.cnt - 1) / pollEdges s.cfg)) := by
  rw [waitOk, Bool.and_eq_true, decide_eq_true_iff, if_pos ha, hto, if_neg Bool.false_ne_true]
  refine and_congr_right fun _ => ?_
  split
  next hw => simp [hw, Decidable.or_iff_not_imp_left]
  next hw => simp [show microOp s ≠ some .wait from hw]

/-- Outside a WAIT, and before its start edge, the bound is all there is to say of a running operation. -/
theorem waitOk_of_begin {s : State} (ha : s.active = true) (hto : s.timedOut = false) (hb : elapsedBounded s)
    (h : s.cnt = 0 ∨ microOp s ≠ some .wait) : waitOk s = true :=
  (waitOk_running_iff ha hto).2 ⟨hb, fun hw h0 => (h.elim h0 (· hw)).elim⟩

theorem elapsedBounded_of_waitOk {s : State} (h : waitOk s = true) : elapsedBounded s := by
  rw [waitOk, Bool.and_eq_true, decide_eq_true_iff] at h
  exact h.1

/-- `waitOk` reads the sequencer and st.elapsed alone. -/
theorem SameCourse.waitOk {s t : State} (h : SameCourse s t) (he : t.elapsed = s.elapsed) :
    waitOk t = waitOk s := by
  simp only [Machine.waitOk, h.active, h.timedOut, h.upc, h.cfg, h.op, h.opTimeout, h.cnt, h.result, h.microOp, he]

/-- A timeout stands at END: st.timed_out is 0 at every other micro-op (45_busy_wait.md R188). -/
theorem timedOut_of_not_finish {s : State} {u : MicroOp} (ha : s.active = true) (hu : microOp s = some u)
    (hend : ∀ a b, u ≠ .finish a b) (h : waitOk s = true) : s.timedOut = false := by
  refine Bool.eq_false_iff.2 fun hto => ?_
  obtain ⟨-, hupc, -⟩ := (waitOk_timedOut_iff ha hto).1 h
  obtain ⟨a, b, hfin⟩ := exists_finish_at_end s.cfg (legalOp_of_getElem? hu)
  rw [microOp, hupc] at hu
  exact hend a b (Option.some.inj (hu.symm.trans hfin))

theorem waitOk_busNext (i : Inputs) {s : State} (ha : s.active = false) (h : waitOk s = true) :
    waitOk (busNext i s) = true := by
  have hb := elapsedBounded_of_waitOk h
  rcases busNext_inactive i ha with ⟨_, _, _, e⟩ | ⟨r, hr, e⟩ | ⟨_, _, e⟩ <;> rw [e]
  · exact h
  · refine (waitOk_idle_iff (s := raise r (recordCommand _ s)) ha).2 ⟨hb, fun hbt => ?_⟩
    rw [raise_result] at hbt
    simp [hbt] at hr
  · exact waitOk_of_begin rfl rfl hb (.inl rfl)

/-- A timed micro-op leaves st.elapsed, and a WAIT after it begins at st.cnt = 0. -/
theorem waitOk_timed (i : Inputs) {s : State} {u : MicroOp} (ha : s.active = true) (hu : microOp s = some u)
    (ht : timed u = true) (hto : s.timedOut = false) (hb : elapsedBounded s) : waitOk (microNext i s u) = true := by
  obtain ⟨hact, hto', hel, -⟩ := microNext_timed (i := i) (s := s) ht
  refine waitOk_of_begin (hact.trans ha) (hto'.trans hto) (by rwa [elapsedBounded, hel, microNext_cfg]) ?_
  refine (microNext_stays_or_begins i s u).symm.imp_right fun e hw => ?_
  obtain rfl := Option.some.inj (((microOp_microNext i e).trans hu).symm.trans hw)
  cases ht

/-- Each edge of a WAIT: the number of samples is that of the poll intervals counted, and the timeout's is M. -/
theorem waitOk_waitEdge {s : State} (hc : s.cfg.wf = true) (ha : s.active = true) (hu : microOp s = some .wait)
    (hk : s.cnt < microDur s.cfg s.opTimeout .wait) (hto : s.timedOut = false) (h : waitOk s = true) :
    waitOk (waitEdge s) = true := by
  have hp := pollEdges_pos hc
  obtain ⟨hb, hcount⟩ := (waitOk_running_iff ha hto).1 h
  have hsample : ∀ m, s.cnt = pollEdges s.cfg * m →
      (BitVec.ofNat 33 (s.cfg.pollMs * m)).toNat = s.cfg.pollMs * m ∧ m ≤ lastSample s.cfg s.opTimeout
        ∧ (BitVec.ofNat 33 (s.cfg.pollMs * m)).toNat ≤ s.cfg.pollMs * lastSample s.cfg 0xFFFFFFFF#32 := by
    intro m hm
    have hle := sample_le_lastSample hc hk hm
    rw [sample_elapsed hc hle]
    exact ⟨rfl, hle, sample_elapsed_le hle⟩
  rcases wait_cases s with
    ⟨_, e⟩ | ⟨h0, hmid, e⟩ | ⟨_, m, hm, _, _, e⟩ | ⟨_, m, hm, hm1, _, ht, e⟩ | ⟨_, m, hm, _, _, _, e⟩ <;> rw [e]
  · exact Iff.mpr (waitOk_running_iff ha hto) ⟨Nat.zero_le _, fun _ _ => by simp⟩
  · refine Iff.mpr (waitOk_running_iff ha hto) ⟨hb, fun _ _ => (hcount hu h0).trans ?_⟩
    show _ = s.cfg.pollMs * (s.cnt / pollEdges s.cfg)
    rw [samples_between h0 hmid]
  · exact waitOk_of_begin ha hto (hsample m hm).2.2 (.inl rfl)
  · obtain ⟨hel, hle, hbound⟩ := hsample m hm
    have hM : m = lastSample s.cfg s.opTimeout := le_antisymm hle ((lastSample_le_iff hc hm1).2 ht)
    exact Iff.mpr (waitOk_timedOut_iff ha rfl) ⟨hbound, rfl, hM ▸ hel⟩
  · obtain ⟨hel, -, hbound⟩ := hsample m hm
    refine Iff.mpr (waitOk_running_iff ha hto) ⟨hbound, fun _ _ => hel.trans ?_⟩
    show _ = s.cfg.pollMs * (s.cnt / pollEdges s.cfg)
    rw [hm, Nat.mul_div_cancel_left m hp]

theorem waitOk_microNext (i : Inputs) {s : State} {u : MicroOp} (hc : s.cfg.wf = true) (ha : s.active = true)
    (hu : microOp s = some u) (hk : s.cnt < microDur s.cfg s.opTimeout u) (h : waitOk s = true) :
    waitOk (microNext i s u) = true := by
  have hb := elapsedBounded_of_waitOk h
  have hto : (∀ a b, u ≠ .finish a b) → s.timedOut = false := fun hend => timedOut_of_not_finish ha hu hend h
  by_cases ht : timed u = true
  · exact waitOk_timed i ha hu ht (hto (by rintro a b rfl; cases ht)) hb
  cases u with
  | wait => exact waitOk_waitEdge hc ha hu hk (hto (by simp)) h
  | finish a b =>
    rw [microNext, finishEdge_eq]
    refine (waitOk_idle_iff rfl).2 ⟨hb, fun hbt => ?_⟩
    cases hto' : s.timedOut with
    | false => simp [hto'] at hbt
    | true => exact ((waitOk_timedOut_iff ha hto').1 h).2.2
  | _ => exact absurd rfl ht

theorem waitOk_step {s t : State} (hs : SeqInv s) (hw : waitOk s = true) (h : step s = .next t) :
    waitOk t = true := by
  obtain ⟨hc, -, hp, -⟩ := hs
  have hb := elapsedBounded_of_waitOk hw
  cases hr : s.input.rstN with
  | false =>
    obtain rfl := Host.Outcome.next.inj ((step_reset hr).symm.trans h)
    exact (waitOk_idle_iff rfl).2 ⟨Nat.zero_le _, fun hbt => by cases hbt⟩
  | true =>
    rcases step_course_cases hr h with ⟨ha, e⟩ | ⟨_, hf, e⟩ | ⟨ha, hf, u, hu, e⟩
    · rw [e.waitOk ((step_elapsed_of_rest hr (.inl ha) h).trans (busNext_elapsed ..).symm)]
      exact waitOk_busNext _ ha hw
    · have he := step_elapsed_of_rest hr (.inr hf) h
      rw [e.waitOk he]
      exact (waitOk_idle_iff rfl).2 ⟨hb, fun hbt => by cases hbt⟩
    · obtain ⟨v, hv, hk⟩ := (positionOk_running_iff ha).1 hp
      obtain rfl : v = u := Option.some.inj (hv.symm.trans hu)
      rw [e.waitOk (step_elapsed_of_micro hr ha hf hu h)]
      exact waitOk_microNext _ hc ha hu hk hw

/-- Settles O52: with POLL_MS = 10 the bound that `waitOk` holds is 4 294 967 300 (`lastSample_ten`). -/
theorem everyStepKeepsTheElapsedTime : Obligations.EveryStepKeepsTheElapsedTime := by
  intro s t hs hw h
  have ht := waitOk_step hs hw h
  refine ⟨ht, fun h10 => ?_⟩
  have hb := elapsedBounded_of_waitOk ht
  rwa [elapsedBounded, step_cfg h, lastSample_ten h10] at hb

/-! ### A WAIT under a level that is held -/

/-- The sample that ends a WAIT in which BUSY stays at `level`: the first one, or M where the level is the active one
(45_busy_wait.md R189). -/
def endSample (c : Config) (t : Word) (level : Bool) : Nat := if level = c.busyActiveLevel then lastSample c t else 1

section
variable {c : Config} (t : Word) {level : Bool}

theorem endSample_active (h : level = c.busyActiveLevel) : endSample c t level = lastSample c t := if_pos h

theorem endSample_idle (h : level ≠ c.busyActiveLevel) : endSample c t level = 1 := if_neg h

theorem endSample_bounds : 1 ≤ endSample c t level ∧ endSample c t level ≤ lastSample c t := by
  have := lastSample_pos c t
  unfold endSample
  split <;> omega

end

/-- Before that sample a WAIT only counts. -/
theorem waitEdge_before_endSample {s : State} (hc : s.cfg.wf = true)
    (h : s.cnt < pollEdges s.cfg * endSample s.cfg s.opTimeout s.busySync) :
    (waitEdge s).upc = s.upc ∧ (waitEdge s).cnt = s.cnt + 1 ∧ (waitEdge s).timedOut = s.timedOut := by
  have hbefore : ∀ m, s.cnt = pollEdges s.cfg * m → m < endSample s.cfg s.opTimeout s.busySync := fun m hm =>
    Nat.lt_of_mul_lt_mul_left (hm ▸ h)
  rcases wait_cases s with
    ⟨h0, e⟩ | ⟨_, _, e⟩ | ⟨_, m, hm, hm1, hidle, _⟩ | ⟨_, m, hm, hm1, hbusy, ht, _⟩ | ⟨_, m, _, _, _, _, e⟩
  · rw [e]
    exact ⟨rfl, by rw [h0], rfl⟩
  · rw [e]
    exact ⟨rfl, rfl, rfl⟩
  · -- an idle panel ends a WAIT at its first sample
    have := hbefore m hm
    rw [endSample_idle _ (panelIdle_iff.1 hidle)] at this
    omega
  · -- the timeout test fails before M
    have := hbefore m hm
    rw [endSample_active _ (panelIdle_eq_false_iff.1 hbusy)] at this
    have := (lastSample_le_iff hc hm1).2 ht
    omega
  · rw [e]
    exact ⟨rfl, rfl, rfl⟩

/-- At that sample it ends: with a timeout where the level is the active one. -/
theorem waitEdge_at_endSample {s : State} (hc : s.cfg.wf = true)
    (h : s.cnt = pollEdges s.cfg * endSample s.cfg s.opTimeout s.busySync) :
    (waitEdge s).upc = (if s.busySync = s.cfg.busyActiveLevel then endIndex s.cfg s.op else s.upc + 1)
      ∧ (waitEdge s).timedOut = (if s.busySync = s.cfg.busyActiveLevel then true else s.timedOut)
      ∧ (waitEdge s).elapsed.toNat = s.cfg.pollMs * endSample s.cfg s.opTimeout s.busySync := by
  obtain ⟨h1, hle⟩ := endSample_bounds (c := s.cfg) s.opTimeout (level := s.busySync)
  have hel := sample_elapsed hc hle
  rw [waitEdge_sample hc h1 h]
  by_cases hl : s.busySync = s.cfg.busyActiveLevel
  · have ht := (lastSample_le_iff hc h1).1 (endSample_active s.opTimeout hl).ge
    rw [waitSample_timeout (panelIdle_eq_false_iff.2 hl) ht, if_pos hl, if_pos hl]
    exact ⟨rfl, rfl, hel⟩
  · rw [waitSample_idle _ (panelIdle_iff.2 hl), if_neg hl, if_neg hl]
    exact ⟨rfl, rfl, hel⟩

/-! ### An undisturbed WAIT_IDLE -/

/-- In the next `n` cycles nothing disturbs the operation, and BUSY stays at `level`. -/
structure Steady (level : Bool) (n : Nat) (s : State) : Prop where
  calm : calmFor n s
  held : busyHeld level n s

theorem busyHeld_step {level : Bool} {n : Nat} {s t : State} (hcalm : calmFor (n + 1) s) (ha : s.active = true)
    (hstep : step s = .next t) (h : busyHeld level (n + 1) s) : busyHeld level n t := by
  obtain ⟨hr, -⟩ := calm_input hcalm
  obtain ⟨hs1, -, hmid, hin⟩ := h
  obtain ⟨es1, emid, esync⟩ := step_sync hr hstep
  obtain ⟨hinputs, -⟩ := step_surroundings hr ha hstep
  obtain ⟨hmid', hsync'⟩ := shiftStages_level fun b hb => (hmid b hb).trans hs1.symm
  obtain ⟨i, hi, hbusy⟩ := hin 0 (Nat.succ_pos n)
  obtain rfl := Option.some.inj ((calm_head hcalm).symm.trans hi)
  refine ⟨es1.trans hbusy, esync.trans (hsync'.trans hs1), fun b hb => ?_, fun k hk => ?_⟩
  · rw [emid] at hb
    exact (hmid' b hb).trans hs1
  · rw [hinputs, List.getElem?_tail]
    exact hin (k + 1) (Nat.succ_lt_succ hk)

/-- An undisturbed edge under a held level is the current micro-op's. -/
theorem Steady.micro {level : Bool} {n : Nat} {s : State} {u : MicroOp} (h : Steady level (n + 1) s)
    (ha : s.active = true) (hu : microOp s = some u) :
    ∃ t, step s = .next t ∧ SameCourse (microNext s.input s u) t ∧ t.elapsed = (microNext s.input s u).elapsed
      ∧ Steady level n t := by
  obtain ⟨hcalm, hheld⟩ := h
  obtain ⟨hr, hf⟩ := calm_input hcalm
  obtain ⟨t, hstep, hcourse, -⟩ := calm_micro hcalm ha hu
  obtain ⟨hinputs, -⟩ := step_surroundings hr ha hstep
  exact ⟨t, hstep, hcourse, step_elapsed_of_micro hr ha hf hu hstep, calm_tail hcalm hinputs,
    busyHeld_step hcalm ha hstep hheld⟩

/-- `t` is `k` edges into the WAIT of the WAIT_IDLE that began at `s`. -/
structure WaitingIdle (s : State) (k : Nat) (t : State) : Prop where
  kept : Kept s t
  upc : t.upc = 0
  cnt : t.cnt = k

section
variable {s : State} {level : Bool} (hc : s.cfg.wf = true) (ha : s.active = true) (ho : s.op = 5#4)
  (hupc : s.upc = 0) (hcnt : s.cnt = 0)

include ho in
theorem WaitingIdle.microOp {t : State} {k : Nat} (h : WaitingIdle s k t) : microOp t = some .wait := by
  rw [Machine.microOp, h.kept.op, ho, h.upc]
  rfl

include hc ha ho hupc hcnt

/-- The edges of the WAIT before the sample that ends it. -/
theorem waitIdle_waits {k n : Nat} (hk : k ≤ pollEdges s.cfg * endSample s.cfg s.opTimeout level)
    (hs : Steady level (k + n) s) :
    ∃ t : State, Sys2Proof.core.run k s = .next t ∧ WaitingIdle s k t ∧ Steady level n t := by
  induction k generalizing n with
  | zero => exact ⟨s, rfl, ⟨.refl s, hupc, hcnt⟩, by rwa [Nat.zero_add] at hs⟩
  | succ k ih =>
    obtain ⟨t, hrun, hw, hst⟩ := ih (n := n + 1) (Nat.le_of_succ_le hk) (by rwa [Nat.add_right_comm] at hs)
    obtain ⟨v, hstep, hcourse, -, hsv⟩ := hst.micro (hw.kept.active.trans ha) (hw.microOp ho)
    have hsync : t.busySync = level := hst.held.2.1
    have hlt : t.cnt < pollEdges t.cfg * endSample t.cfg t.opTimeout t.busySync := by
      rwa [hw.cnt, hw.kept.cfg, hw.kept.opTimeout, hsync]
    obtain ⟨eupc, ecnt, eto⟩ := waitEdge_before_endSample (hw.kept.cfg ▸ hc) hlt
    have hkept : Kept t v := ⟨hcourse.active.trans (waitEdge_active t), hcourse.cfg.trans (waitEdge_cfg t),
      hcourse.op.trans (waitEdge_op t), hcourse.opTimeout.trans (waitEdge_opTimeout t), hcourse.timedOut.trans eto⟩
    exact ⟨v, run_step hrun hstep, ⟨hw.kept.trans hkept, hcourse.upc.trans (eupc.trans hw.upc),
      hcourse.cnt.trans (ecnt.trans (by rw [hw.cnt]))⟩, hsv⟩

/-- The sample that ends the WAIT: its two ways out, success and timeout, lead to the same END. -/
theorem waitIdle_reaches_end (hto : s.timedOut = false) {n : Nat}
    (hs : Steady level (pollEdges s.cfg * endSample s.cfg s.opTimeout level + (n + 1)) s) :
    ∃ t : State, Sys2Proof.core.run (pollEdges s.cfg * endSample s.cfg s.opTimeout level + 1) s = .next t
      ∧ t.active = true ∧ microOp t = some (.finish .idle .busy)
      ∧ t.timedOut = decide (level = s.cfg.busyActiveLevel)
      ∧ t.elapsed.toNat = s.cfg.pollMs * endSample s.cfg s.opTimeout level ∧ Steady level n t := by
  obtain ⟨t, hrun, hw, hst⟩ := waitIdle_waits hc ha ho hupc hcnt le_rfl hs
  obtain ⟨kact, kcfg, kop, kopt, kto⟩ := hw.kept
  have hsync : t.busySync = level := hst.held.2.1
  obtain ⟨eupc, eto, eel⟩ := waitEdge_at_endSample (s := t) (kcfg ▸ hc) (by rw [hw.cnt, kcfg, kopt, hsync])
  rw [hsync, kcfg] at eupc eto eel
  obtain ⟨v, hstep, hcourse, hel, hsv⟩ := hst.micro (kact.trans ha) (hw.microOp ho)
  rw [microNext] at hcourse hel
  have hupcv : v.upc = 1 := by
    rw [hcourse.upc, eupc, hw.upc, kop, ho]
    split <;> rfl
  refine ⟨v, run_step hrun hstep, ?_, ?_, ?_, ?_, hsv⟩
  · rw [hcourse.active, waitEdge_active, kact, ha]
  · rw [microOp, hupcv, hcourse.op, waitEdge_op, kop, ho]
    rfl
  · rw [hcourse.timedOut, eto, kto, hto]
    simp
  · rw [hel, eel, kopt]

/-- The last edge of WAIT_IDLE is END's (42_sequencer.md R138). -/
theorem waitIdle_ends (hto : s.timedOut = false)
    (hs : Steady level (2 + pollEdges s.cfg * endSample s.cfg s.opTimeout level) s) :
    ∃ t : State, Sys2Proof.core.run (2 + pollEdges s.cfg * endSample s.cfg s.opTimeout level) s = .next t
      ∧ t.active = false ∧ t.state = (if level = s.cfg.busyActiveLevel then .busy else .idle)
      ∧ t.result = (if level = s.cfg.busyActiveLevel then .busyTimeout else .ok)
      ∧ t.elapsed.toNat = s.cfg.pollMs * endSample s.cfg s.opTimeout level := by
  rw [Nat.add_comm] at hs ⊢
  obtain ⟨t, hrun, hact, hfin, htot, helt, hst⟩ := waitIdle_reaches_end hc ha ho hupc hcnt hto hs
  obtain ⟨v, hstep, hcourse, hel, -⟩ := hst.micro hact hfin
  rw [microNext] at hcourse hel
  refine ⟨v, run_step hrun hstep, hcourse.active.trans (finishEdge_active ..), ?_, ?_, ?_⟩
  · rw [hcourse.state, finishEdge_state, htot]
    simp
  · rw [hcourse.result, finishEdge_result, htot]
    simp
  · rw [hel, finishEdge_elapsed, helt]

end

/-- Settles O59: `waitIdle_ends` at either level, where the WAIT ends at its first sample or at M. -/
theorem waitIdleEndsByTheLevelHeld : Obligations.WaitIdleEndsByTheLevelHeld := by
  rintro s ⟨hc, -⟩ ha ho hupc hcnt hto
  refine ⟨fun level hl hcalm hheld => ?_, fun m hm hcalm hheld => ?_⟩
  · have hends := waitIdle_ends (level := level) hc ha ho hupc hcnt hto
    rw [endSample_idle _ hl, Nat.mul_one, Nat.mul_one, if_neg hl, if_neg hl] at hends
    exact hends ⟨hcalm, hheld⟩
  · have hends := waitIdle_ends (level := s.cfg.busyActiveLevel) hc ha ho hupc hcnt hto
    rw [endSample_active _ rfl, lastSample_eq hc, ← hm, if_pos rfl, if_pos rfl] at hends
    exact hends ⟨hcalm, hheld⟩

end Machine
end Sys2Proof
end

section
/-! PROOFS, 60_exceptions.md R201, R204, R205 and R219: refusals, the hardware-fault abort, and the edge of an inactive
block. HW_FAULT is an input of the engine alone, which ACTIVE = 0 keeps out of the edge (`clockEdge_inactive`). -/

namespace Sys2Proof
namespace Machine

/-! ### Refusals -/

/-- Settles O12: an accepted write would leave ACTIVE = 1, so of `cmdWrite_cases` the refusal is left. -/
theorem refusedCommandsArePrecise : Obligations.RefusedCommandsArePrecise := by
  intro w s t ha ht hinactive
  rcases cmdWrite_cases w ha with ⟨r, hrefused, e⟩ | e <;> rw [e] at ht <;> obtain rfl := Host.Outcome.next.inj ht
  · exact ⟨rfl, hrefused⟩
  · simp at hinactive

/-! ### The abort -/

/-- The abort of the pre-edge state, whatever micro-op it pre-empts: the bus only lays the host's fields over it. -/
theorem step_abort_withHostFields {s : State} (hr : s.input.rstN = true) (ha : s.active = true)
    (hf : s.input.hwFault = true) :
    ∃ d t b l, step s = .next (withHostFields d t b l
      (surroundings s.input (writeFrameActive s) (synchronise s.input.busy (abort s)))) := by
  obtain ⟨d, t, b, l, e⟩ := busNext_active s.input ha
  refine ⟨d, t, b, l, ?_⟩
  rw [step_abort hr ha hf, e]
  rfl

/-- Settles O26: the fields are those of `abort s`; host's fields, synchroniser and surroundings are none of them. -/
theorem hardwareFaultAborts : Obligations.HardwareFaultAborts := by
  intro s hr ha hf
  obtain ⟨_, _, _, _, e⟩ := step_abort_withHostFields hr ha hf
  exact ⟨_, e, rfl, rfl, rfl, rfl, rfl, rfl, rfl, rfl, rfl, rfl, rfl, rfl, rfl, rfl, rfl, rfl, rfl⟩

/-! ### The edge with ACTIVE = 0 -/

/-- With ACTIVE = 0 an edge is block reset, or the bus, the synchroniser and the surroundings: no engine. -/
theorem clockEdge_inactive (i : Inputs) {s : State} (ha : s.active = false) :
    clockEdge i s = .next (if i.rstN then
        surroundings i (writeFrameActive (busNext i s)) (synchronise i.busy (busNext i s))
      else surroundings i false (blockReset s)) := by
  cases hr : i.rstN <;> simp [clockEdge, hr, ha, busPhase_eq, writeFrameActive]

/-- Settles O27: none of the parts that `clockEdge_inactive` names reads HW_FAULT. -/
theorem hardwareFaultIgnoredWhileInactive : Obligations.HardwareFaultIgnoredWhileInactive := by
  intro i s b ha
  rw [clockEdge_inactive _ ha, clockEdge_inactive _ ha]
  rfl

theorem writeFrameActive_of_inactive {s : State} (ha : s.active = false) : writeFrameActive s = false := by
  simp [writeFrameActive, ha]

/-- Settles O35: without a write the bus leaves the state as it is. -/
theorem inactiveBlockChangesOnlyTheSynchroniser : Obligations.InactiveBlockChangesOnlyTheSynchroniser := by
  intro s hr hw ha
  rw [step_inactive hr ha, busNext_of_no_write hw, writeFrameActive_of_inactive ha]

end Machine
end Sys2Proof
end

section
/-! PROOFS, 70_reset_and_hazards.md R230: block reset, from any state. -/

namespace Sys2Proof
namespace Machine

/-- Settles O24: by `step_reset` the edge is `blockReset`, which keeps of the state only its build and the host's
side, so each field of the block is that of `State.resetOf s.cfg`, of which `resetStateIsTheSpecs` speaks. -/
theorem blockResetWinsOverEverything : Obligations.BlockResetWinsOverEverything := by
  intro s hr
  have hreset := resetStateIsTheSpecs.1 (State.resetOf s.cfg) (.inr ⟨s.cfg, rfl⟩)
  exact ⟨_, step_reset hr, hreset⟩

end Machine
end Sys2Proof
end
